-- ==== Sys2Proof/Word.lean ====
section
/-! DEFINITION. The widths of the idealvm ISA (00_scope.md R6, R7): the machine word, the byte, the
two address kinds and the instruction's immediate field. Nothing here can be mended later, so it holds
only the plainest names. -/

namespace Sys2Proof

/-- A 64-bit machine word: a general or protected register, or IP (00_scope.md R6, `XLEN`). -/
abbrev Word := BitVec 64

/-- One cell of the Memory Array (20_memory.md R60). -/
abbrev Byte := BitVec 8

/-- A 32-bit address, logical or physical (20_memory.md R61). -/
abbrev Addr := BitVec 32

/-- The 16-bit `offset` field of an instruction word (30_encoding.md R101). -/
abbrev Imm := BitVec 16

/-- A 32-bit instruction word (30_encoding.md R100). -/
abbrev InstrWord := BitVec 32

/-- A 32-bit page-table entry (20_memory.md R73). -/
abbrev Entry := BitVec 32

end Sys2Proof
end

