-- ==== Sys2Proof/Syntax.lean ====
section
/-! DEFINITION. The syntax of the idealvm ISA: the names of the two register files (10_state.md R20, R26)
and the 35 instructions of the closed opcode list (30_encoding.md R105). A constructor carries the fields its
instruction uses; the fields the decoder ignores (30_encoding.md R108, D24) are not part of an instruction. -/

namespace Sys2Proof

/-- The sixteen general registers, by index (10_state.md R20). `z` is register 15, the zero register. -/
inductive Reg where
  | a | b | c | d | e | f | g | h | i | j | k | x | y | sp | bp | z
  deriving DecidableEq, Repr

/-- The sixteen protected registers, by index (10_state.md R26); `p5` to `p15` are reserved (R35). -/
inductive PReg where
  | eflags | usp | psp | ijt | rpt
  | p5 | p6 | p7 | p8 | p9 | p10 | p11 | p12 | p13 | p14 | p15
  deriving DecidableEq, Repr

/-- The 35 instructions, in opcode order 0 to 34 (30_encoding.md R105). `r0` and `r1` name the word's two
register fields and `off` its 16-bit offset. -/
inductive Instr where
  /-- Opcode 0, MOV (R120). -/
  | mov (r0 r1 : Reg) (off : Imm)
  /-- Opcode 1, GEF (R121). -/
  | gef (r0 : Reg)
  /-- Opcode 2, LB (R131). -/
  | lb (r0 r1 : Reg) (off : Imm)
  /-- Opcode 3, LBU (R132). -/
  | lbu (r0 r1 : Reg) (off : Imm)
  /-- Opcode 4, LH (R133). -/
  | lh (r0 r1 : Reg) (off : Imm)
  /-- Opcode 5, LHU (R134). -/
  | lhu (r0 r1 : Reg) (off : Imm)
  /-- Opcode 6, LW (R135). -/
  | lw (r0 r1 : Reg) (off : Imm)
  /-- Opcode 7, LWU (R136). -/
  | lwu (r0 r1 : Reg) (off : Imm)
  /-- Opcode 8, LD (R137). -/
  | ld (r0 r1 : Reg) (off : Imm)
  /-- Opcode 9, SB (R138). -/
  | sb (r0 r1 : Reg) (off : Imm)
  /-- Opcode 10, SH (R139). -/
  | sh (r0 r1 : Reg) (off : Imm)
  /-- Opcode 11, SW (R140). -/
  | sw (r0 r1 : Reg) (off : Imm)
  /-- Opcode 12, SD (R141). -/
  | sd (r0 r1 : Reg) (off : Imm)
  /-- Opcode 13, PUSH (R151). -/
  | push (r0 : Reg) (off : Imm)
  /-- Opcode 14, POP (R152). -/
  | pop (r0 : Reg)
  /-- Opcode 15, JMP (R161). -/
  | jmp (r1 : Reg) (off : Imm)
  /-- Opcode 16, JLT (R162). -/
  | jlt (r1 : Reg) (off : Imm)
  /-- Opcode 17, JGT (R163). -/
  | jgt (r1 : Reg) (off : Imm)
  /-- Opcode 18, JZR (R164). -/
  | jzr (r1 : Reg) (off : Imm)
  /-- Opcode 19, JIF (R165). -/
  | jif (r0 r1 : Reg) (off : Imm)
  /-- Opcode 20, AND (R172). -/
  | and (r0 r1 : Reg) (off : Imm)
  /-- Opcode 21, OR (R173). -/
  | or (r0 r1 : Reg) (off : Imm)
  /-- Opcode 22, XOR (R174). -/
  | xor (r0 r1 : Reg) (off : Imm)
  /-- Opcode 23, SHL (R175). -/
  | shl (r0 r1 : Reg) (off : Imm)
  /-- Opcode 24, SHR (R176). -/
  | shr (r0 r1 : Reg) (off : Imm)
  /-- Opcode 25, ADD (R177). -/
  | add (r0 r1 : Reg) (off : Imm)
  /-- Opcode 26, SUB (R178). -/
  | sub (r0 r1 : Reg) (off : Imm)
  /-- Opcode 27, MUL (R179). -/
  | mul (r0 r1 : Reg) (off : Imm)
  /-- Opcode 28, SMUL (R180). -/
  | smul (r0 r1 : Reg) (off : Imm)
  /-- Opcode 29, DIV (R181). -/
  | div (r0 r1 : Reg) (off : Imm)
  /-- Opcode 30, SDIV (R182). -/
  | sdiv (r0 r1 : Reg) (off : Imm)
  /-- Opcode 31, SSHR (R183). -/
  | sshr (r0 r1 : Reg) (off : Imm)
  /-- Opcode 32, INT (R200). -/
  | int (r1 : Reg) (off : Imm)
  /-- Opcode 33, PMOV (R202). -/
  | pmov (r0 : PReg) (r1 : Reg) (off : Imm)
  /-- Opcode 34, IRET (R203). -/
  | iret
  deriving DecidableEq, Repr

end Sys2Proof
end

