-- ==== Sys2Proof/WellFormed.lean ====
section
/-! DEFINITION. Well-formedness. The type `Instr` admits no ill-formed instruction: its registers are names and its
offset is the 16-bit field itself. What can be ill-formed is an instruction as an assembler line gives it, four plain
numbers `(op, r0, r1, off)`; 30_encoding.md R118 says for which numbers the encoding loses nothing, and R105 which opcode
numbers select an instruction. -/

namespace Sys2Proof

/-- The four numbers of an instruction before it is encoded (30_encoding.md R118): the opcode, the two register
numbers and the signed displacement. -/
structure RawFields where
  /-- The opcode number. -/
  op : Nat
  /-- The first register number. -/
  r0 : Nat
  /-- The second register number. -/
  r1 : Nat
  /-- The displacement. -/
  off : Int
  deriving DecidableEq, Repr

/-- The opcode fits its 8-bit field (R118: "`op` in 0..255"). -/
def RawFields.opcodeFits (f : RawFields) : Bool := decide (f.op < 256)

/-- Both register numbers fit their 4-bit fields (R118: "`r0`, `r1` in 0..15"). -/
def RawFields.registersFit (f : RawFields) : Bool := decide (f.r0 < 16) && decide (f.r1 < 16)

/-- The displacement fits the signed 16-bit field (R118: "off in `[-32768, 32767]`"; 30_encoding.md R104). -/
def RawFields.offsetFits (f : RawFields) : Bool := decide (-32768 ≤ f.off) && decide (f.off ≤ 32767)

/-- The domain of the encoding's round-trip law (R118). -/
def RawFields.encodable (f : RawFields) : Bool := f.opcodeFits && f.registersFit && f.offsetFits

/-- The opcode selects one of the 35 instructions (R105, R106). -/
def RawFields.opcodeDefined (f : RawFields) : Bool := decide (f.op < 35)

/-- The numbers are those of an instruction: encodable, with a defined opcode. -/
def RawFields.wellFormed (f : RawFields) : Bool := f.encodable && f.opcodeDefined

end Sys2Proof
end

