-- ==== Sys2Proof/Decode.lean ====
section
/-! DEFINITION. The encoding of the idealvm ISA, both ways: the fields of a word (30_encoding.md R101, R103), the
opcode map (R105), decoding a word and a byte sequence (R102), and the encoder (R118). Decoding is total: a word whose
opcode selects no instruction is rejected by name (R106), never read as a neighbour. -/

namespace Sys2Proof

/-- The register number of a general register (10_state.md R20). -/
def Reg.index : Reg → BitVec 4
  | .a => 0#4
  | .b => 1#4
  | .c => 2#4
  | .d => 3#4
  | .e => 4#4
  | .f => 5#4
  | .g => 6#4
  | .h => 7#4
  | .i => 8#4
  | .j => 9#4
  | .k => 10#4
  | .x => 11#4
  | .y => 12#4
  | .sp => 13#4
  | .bp => 14#4
  | .z => 15#4

/-- The general register of a register number (10_state.md R20). -/
def Reg.ofIndex (n : BitVec 4) : Reg :=
  match n.toNat with
  | 0 => .a
  | 1 => .b
  | 2 => .c
  | 3 => .d
  | 4 => .e
  | 5 => .f
  | 6 => .g
  | 7 => .h
  | 8 => .i
  | 9 => .j
  | 10 => .k
  | 11 => .x
  | 12 => .y
  | 13 => .sp
  | 14 => .bp
  | _ => .z

/-- The index of a protected register (10_state.md R26). -/
def PReg.index : PReg → BitVec 4
  | .eflags => 0#4
  | .usp => 1#4
  | .psp => 2#4
  | .ijt => 3#4
  | .rpt => 4#4
  | .p5 => 5#4
  | .p6 => 6#4
  | .p7 => 7#4
  | .p8 => 8#4
  | .p9 => 9#4
  | .p10 => 10#4
  | .p11 => 11#4
  | .p12 => 12#4
  | .p13 => 13#4
  | .p14 => 14#4
  | .p15 => 15#4

/-- The protected register of an index (10_state.md R26; 45_system.md R202: every index is accepted). -/
def PReg.ofIndex (n : BitVec 4) : PReg :=
  match n.toNat with
  | 0 => .eflags
  | 1 => .usp
  | 2 => .psp
  | 3 => .ijt
  | 4 => .rpt
  | 5 => .p5
  | 6 => .p6
  | 7 => .p7
  | 8 => .p8
  | 9 => .p9
  | 10 => .p10
  | 11 => .p11
  | 12 => .p12
  | 13 => .p13
  | 14 => .p14
  | _ => .p15

/-- The four fields of an instruction word (30_encoding.md R101). -/
structure Fields where
  /-- Bits 31..24. -/
  opcode : BitVec 8
  /-- Bits 23..20. -/
  r0 : BitVec 4
  /-- Bits 19..16. -/
  r1 : BitVec 4
  /-- Bits 15..0. -/
  offset : Imm
  deriving DecidableEq, Repr

/-- The fields of a word (30_encoding.md R103). Decoding fields is total and raises nothing. -/
def Fields.ofWord (w : InstrWord) : Fields where
  opcode := w.extractLsb' 24 8
  r0 := w.extractLsb' 20 4
  r1 := w.extractLsb' 16 4
  offset := w.extractLsb' 0 16

/-- The word with the given fields (30_encoding.md R101: opcode, r0, r1, offset from the most significant bit down). -/
def Fields.toWord (f : Fields) : InstrWord := f.opcode ++ f.r0 ++ f.r1 ++ f.offset

/-- The instruction that the fields select (30_encoding.md R105), if any (R106: opcodes 35 to 255 select none). The whole
8-bit opcode is looked up, its two reserved high bits included (R107). Unused fields are ignored (R108). -/
def Fields.select (f : Fields) : Option Instr :=
  let r0 := Reg.ofIndex f.r0
  let r1 := Reg.ofIndex f.r1
  let off := f.offset
  match f.opcode.toNat with
  | 0 => some (.mov r0 r1 off)
  | 1 => some (.gef r0)
  | 2 => some (.lb r0 r1 off)
  | 3 => some (.lbu r0 r1 off)
  | 4 => some (.lh r0 r1 off)
  | 5 => some (.lhu r0 r1 off)
  | 6 => some (.lw r0 r1 off)
  | 7 => some (.lwu r0 r1 off)
  | 8 => some (.ld r0 r1 off)
  | 9 => some (.sb r0 r1 off)
  | 10 => some (.sh r0 r1 off)
  | 11 => some (.sw r0 r1 off)
  | 12 => some (.sd r0 r1 off)
  | 13 => some (.push r0 off)
  | 14 => some (.pop r0)
  | 15 => some (.jmp r1 off)
  | 16 => some (.jlt r1 off)
  | 17 => some (.jgt r1 off)
  | 18 => some (.jzr r1 off)
  | 19 => some (.jif r0 r1 off)
  | 20 => some (.and r0 r1 off)
  | 21 => some (.or r0 r1 off)
  | 22 => some (.xor r0 r1 off)
  | 23 => some (.shl r0 r1 off)
  | 24 => some (.shr r0 r1 off)
  | 25 => some (.add r0 r1 off)
  | 26 => some (.sub r0 r1 off)
  | 27 => some (.mul r0 r1 off)
  | 28 => some (.smul r0 r1 off)
  | 29 => some (.div r0 r1 off)
  | 30 => some (.sdiv r0 r1 off)
  | 31 => some (.sshr r0 r1 off)
  | 32 => some (.int r1 off)
  | 33 => some (.pmov (PReg.ofIndex f.r0) r1 off)
  | 34 => some .iret
  | _ => none

/-- Why a byte sequence or a word is no instruction. -/
inductive DecodeReject where
  /-- The opcode is none of the 35 (30_encoding.md R106, R107). -/
  | unknownOpcode (opcode : BitVec 8)
  /-- Fewer than the four bytes every instruction has (30_encoding.md R100). -/
  | truncated
  deriving DecidableEq, Repr

/-- What decoding answers. -/
inductive Decoded where
  /-- The instruction the word stands for. -/
  | instr (i : Instr)
  /-- No instruction, and why. -/
  | rejected (r : DecodeReject)
  deriving DecidableEq, Repr

/-- Decode one instruction word (30_encoding.md R103, R105, R106). -/
def decode (w : InstrWord) : Decoded :=
  match (Fields.ofWord w).select with
  | some i => .instr i
  | none => .rejected (.unknownOpcode (Fields.ofWord w).opcode)

/-- The word that four bytes of memory hold, lowest address first (30_encoding.md R102: byte 0 holds bits 7..0). -/
def wordOfBytes (b0 b1 b2 b3 : Byte) : InstrWord := b3 ++ b2 ++ b1 ++ b0

/-- The four bytes of a word, lowest address first (30_encoding.md R102). -/
def bytesOfWord (w : InstrWord) : List Byte :=
  [w.extractLsb' 0 8, w.extractLsb' 8 8, w.extractLsb' 16 8, w.extractLsb' 24 8]

/-- Decode the instruction at the head of a byte sequence: the instruction and the bytes after it. Total on any bytes; every
instruction is four bytes long (30_encoding.md R100). -/
def decodeBytes : List Byte → Decoded × List Byte
  | b0 :: b1 :: b2 :: b3 :: rest => (decode (wordOfBytes b0 b1 b2 b3), rest)
  | short => (.rejected .truncated, short)

/-- The instruction the decoder reads from an opcode-table word of `nbits` bits: its low 32 bits, laid out in memory order
(30_encoding.md R102) and given to `decodeBytes`. -/
def decodeTableWord (nbits w : Nat) : Option Instr :=
  match (decodeBytes (bytesOfWord (BitVec.ofNat 32 (w % 2 ^ nbits)))).1 with
  | .instr i => some i
  | .rejected _ => none

/-- The fields an instruction is encoded with (30_encoding.md R101, R105); an ignored field is 0 (R108). -/
def Instr.fields : Instr → Fields
  | .mov r0 r1 off => ⟨0#8, r0.index, r1.index, off⟩
  | .gef r0 => ⟨1#8, r0.index, 0#4, 0#16⟩
  | .lb r0 r1 off => ⟨2#8, r0.index, r1.index, off⟩
  | .lbu r0 r1 off => ⟨3#8, r0.index, r1.index, off⟩
  | .lh r0 r1 off => ⟨4#8, r0.index, r1.index, off⟩
  | .lhu r0 r1 off => ⟨5#8, r0.index, r1.index, off⟩
  | .lw r0 r1 off => ⟨6#8, r0.index, r1.index, off⟩
  | .lwu r0 r1 off => ⟨7#8, r0.index, r1.index, off⟩
  | .ld r0 r1 off => ⟨8#8, r0.index, r1.index, off⟩
  | .sb r0 r1 off => ⟨9#8, r0.index, r1.index, off⟩
  | .sh r0 r1 off => ⟨10#8, r0.index, r1.index, off⟩
  | .sw r0 r1 off => ⟨11#8, r0.index, r1.index, off⟩
  | .sd r0 r1 off => ⟨12#8, r0.index, r1.index, off⟩
  | .push r0 off => ⟨13#8, r0.index, 0#4, off⟩
  | .pop r0 => ⟨14#8, r0.index, 0#4, 0#16⟩
  | .jmp r1 off => ⟨15#8, 0#4, r1.index, off⟩
  | .jlt r1 off => ⟨16#8, 0#4, r1.index, off⟩
  | .jgt r1 off => ⟨17#8, 0#4, r1.index, off⟩
  | .jzr r1 off => ⟨18#8, 0#4, r1.index, off⟩
  | .jif r0 r1 off => ⟨19#8, r0.index, r1.index, off⟩
  | .and r0 r1 off => ⟨20#8, r0.index, r1.index, off⟩
  | .or r0 r1 off => ⟨21#8, r0.index, r1.index, off⟩
  | .xor r0 r1 off => ⟨22#8, r0.index, r1.index, off⟩
  | .shl r0 r1 off => ⟨23#8, r0.index, r1.index, off⟩
  | .shr r0 r1 off => ⟨24#8, r0.index, r1.index, off⟩
  | .add r0 r1 off => ⟨25#8, r0.index, r1.index, off⟩
  | .sub r0 r1 off => ⟨26#8, r0.index, r1.index, off⟩
  | .mul r0 r1 off => ⟨27#8, r0.index, r1.index, off⟩
  | .smul r0 r1 off => ⟨28#8, r0.index, r1.index, off⟩
  | .div r0 r1 off => ⟨29#8, r0.index, r1.index, off⟩
  | .sdiv r0 r1 off => ⟨30#8, r0.index, r1.index, off⟩
  | .sshr r0 r1 off => ⟨31#8, r0.index, r1.index, off⟩
  | .int r1 off => ⟨32#8, 0#4, r1.index, off⟩
  | .pmov r0 r1 off => ⟨33#8, r0.index, r1.index, off⟩
  | .iret => ⟨34#8, 0#4, 0#4, 0#16⟩

/-- The word of an instruction (30_encoding.md R118). -/
def encode (i : Instr) : InstrWord := i.fields.toWord

/-- The bytes of an instruction in memory, lowest address first (30_encoding.md R102). -/
def encodeBytes (i : Instr) : List Byte := bytesOfWord (encode i)

/-- The encoding function of 30_encoding.md R118 on plain numbers:
`op << 24 | r0 << 20 | r1 << 16 | (off & 0xFFFF)`. -/
def RawFields.encode (f : RawFields) : InstrWord :=
  BitVec.ofNat 32 (f.op <<< 24) ||| BitVec.ofNat 32 (f.r0 <<< 20) ||| BitVec.ofNat 32 (f.r1 <<< 16)
    ||| (BitVec.ofInt 32 f.off &&& 0xFFFF#32)

/-- The plain numbers of a word (30_encoding.md R103; the displacement is two's complement, R104). -/
def RawFields.ofWord (w : InstrWord) : RawFields where
  op := (Fields.ofWord w).opcode.toNat
  r0 := (Fields.ofWord w).r0.toNat
  r1 := (Fields.ofWord w).r1.toNat
  off := (Fields.ofWord w).offset.toInt

/-- The plain numbers of an instruction. -/
def Instr.raw (i : Instr) : RawFields := RawFields.ofWord (Sys2Proof.encode i)

/-- An instruction is well-formed when its numbers are. Every term of `Instr` is (`Laws.WellEncoded`). -/
def Instr.wellFormed (i : Instr) : Bool := i.raw.wellFormed

end Sys2Proof
end

