-- ==== Sys2Proof/Config.lean ====
section
/-! DEFINITION. What the spec leaves to the implementation (00_scope.md R6) and the values it leaves open.

The parameters that a run is built with (MEM_SIZE, INIT_MEM, RESET_IP) live in the state, so that a statement over every
state is a statement over every value of them; the constants here are only what the nullary `State.reset` is built with.
The free values have no body: nothing can be proved of them, so a claim that mentions one holds whatever it is. -/

namespace Sys2Proof

/-- MEM_SIZE of `State.reset`: the whole 32-bit physical address space. DESIGN CHOICE, unsafe (log 1): the spec makes it
a parameter, `1 <= MEM_SIZE <= 2^32` (R6, D23). -/
def Config.resetMemSize : Nat := 4294967296

/-- The largest MEM_SIZE the ISA admits: one byte for each 32-bit physical address (R6). -/
def Config.maxMemSize : Nat := 4294967296

/-- RESET_IP of `State.reset`: the spec's own default, 0 (R6, 10_state.md R44). DESIGN CHOICE, unsafe (log 3): an embedder
may configure another. -/
def Config.resetIP : Word := 0#64

/-- What an implementation does with SDIV of -2^63 by -1 (44_alu.md R182, D15, U1): a quotient and a remainder, or an
ALU_FAULT. -/
inductive SdivOverflow where
  /-- The instruction completes with this quotient and this remainder. -/
  | pair (quotient remainder : Word)
  /-- The instruction raises ALU_FAULT. -/
  | aluFault
  deriving DecidableEq, Repr, Inhabited

/-- The parameter SDIV_OVERFLOW (R6, D15, U1; log 4). No value is chosen: it has no body. -/
opaque Config.sdivOverflow : SdivOverflow

/-- Free value: the general registers after a double fault (60_exceptions.md R240, U4; log 5). -/
opaque Config.haltReg : Nat → Reg → Word

/-- Free value: the protected registers after a double fault (U4; log 5). -/
opaque Config.haltPReg : Nat → PReg → Word

/-- Free value: IP after a double fault (U4; log 5). -/
opaque Config.haltIP : Nat → Word

/-- Free value: the bytes of memory after a double fault, as a list of writes to a zeroed array (U4; log 5). Every content
of the array is the outcome of some list. -/
opaque Config.haltWrites : Nat → List Host.Cell

/-- Free value: the `handlingInterrupt` latch after a double fault (U4; log 5). -/
opaque Config.haltHandling : Nat → Bool

/-- Free value: the `intSet` latch after a double fault (U4; log 5). -/
opaque Config.haltIntSet : Nat → Bool

/-- Free value: `intCode` after a double fault (U4; log 5). -/
opaque Config.haltIntCode : Nat → BitVec 8

end Sys2Proof
end

