-- ==== Sys2Proof/Machine/State.lean ====
section
/-! DEFINITION. The state of the core (10_state.md), as plain data, the reasons a step can end without a next state,
and the state after reset (10_state.md R44, 70_reset_and_hazards.md R260). -/

namespace Sys2Proof.Machine

/-- The general registers that hold a value, x[0] to x[14] (10_state.md R20). x[15], `Z`, is hard-wired: it has no
storage, reads 0 and discards writes (R21) in `Regs.get` and `Regs.set`. -/
structure Regs where
  a : Word
  b : Word
  c : Word
  d : Word
  e : Word
  f : Word
  g : Word
  h : Word
  i : Word
  j : Word
  k : Word
  x : Word
  y : Word
  /-- x[13], the stack pointer (R22). -/
  sp : Word
  /-- x[14], an ordinary register to the hardware (R22, U12). -/
  bp : Word
  deriving DecidableEq, Repr

/-- The protected registers p[0] to p[15] (10_state.md R26). -/
structure PRegs where
  /-- p[0]: the condition flags and the three mode bits (R28). -/
  eflags : Word
  /-- p[1]: the value SP had when the last interrupt was entered (R31). -/
  usp : Word
  /-- p[2]: the value SP takes at interrupt entry (R32). -/
  psp : Word
  /-- p[3]: the base of the interrupt jump table (R33). -/
  ijt : Word
  /-- p[4]: the base of the root page table (R34). -/
  rpt : Word
  p5 : Word
  p6 : Word
  p7 : Word
  p8 : Word
  p9 : Word
  p10 : Word
  p11 : Word
  p12 : Word
  p13 : Word
  p14 : Word
  p15 : Word
  deriving DecidableEq, Repr

/-- The Memory Array (10_state.md R41, 20_memory.md R60): its size MEM_SIZE and its bytes. A byte that `cells` does not
list reads as `Memory.unlisted`; `Memory.wf` is the canonical form. -/
structure Memory where
  /-- MEM_SIZE, fixed at construction (00_scope.md R6). -/
  size : Nat
  /-- The bytes that differ from `Memory.unlisted`, by rising address. -/
  cells : List Host.Cell
  deriving DecidableEq, Repr

/-- An interrupt descriptor `{code, info}` (10_state.md R40, 60_exceptions.md R220). -/
structure Interrupt where
  /-- The 8-bit interrupt code. -/
  code : BitVec 8
  /-- The 64-bit information word, which only the host can see (60_exceptions.md R222). -/
  info : Word
  deriving DecidableEq, Repr

/-- The whole state of the core (10_state.md, opening record; R43 closes the list), and one counter of the model's. -/
structure State where
  /-- The general registers (R20 to R23). -/
  x : Regs
  /-- The instruction pointer (R24, R25). -/
  ip : Word
  /-- The protected registers (R26 to R36). -/
  p : PRegs
  /-- The Memory Array (R41). -/
  mem : Memory
  /-- True from an interrupt entry to the next IRET (R37). -/
  handlingInterrupt : Bool
  /-- A hardware interrupt is pending (R38). -/
  intSet : Bool
  /-- The code of the pending hardware interrupt (R38). -/
  intCode : BitVec 8
  /-- The double-fault latch (R39, 60_exceptions.md R240). -/
  halted : Bool
  /-- The descriptor of the interrupt most recently raised (R40). -/
  lastInt : Interrupt
  /-- The MODEL's own: the index that the next double fault's free values are drawn with (U4; log 5). -/
  freeIndex : Nat
  deriving DecidableEq, Repr

/-- Why a step would end in a fault: never. The spec gives every tick of this core a next state: interrupts are entered
(60_exceptions.md R231), bounds errors drop the tick (20_memory.md R65) and a double fault sets the `halted` latch (R240). The type
has no constructor, so nothing can raise it; that is safe only because each of those rules is total. -/
inductive Fault where
  deriving DecidableEq, Repr

/-- Why an input is refused. -/
inductive Refusal where
  /-- Raised by an arm of `exec` for an instruction without a meaning. No arm does: every instruction is modelled. Safe. -/
  | notModelled (mnemonic : String)
  /-- Raised by `inject` for a code outside 0x20..0x9F, which the host contract excludes (60_exceptions.md R226, D20, U5). Safe: the
  model says nothing about such an injection. -/
  | injectCodeOutOfContract (code : BitVec 8)
  deriving DecidableEq, Repr

/-- Every general register 0 (10_state.md R44). -/
def Regs.zero : Regs where
  a := 0#64
  b := 0#64
  c := 0#64
  d := 0#64
  e := 0#64
  f := 0#64
  g := 0#64
  h := 0#64
  i := 0#64
  j := 0#64
  k := 0#64
  x := 0#64
  y := 0#64
  sp := 0#64
  bp := 0#64

/-- Every protected register 0 (10_state.md R44): privileged mode, translation off, hardware interrupts masked. -/
def PRegs.zero : PRegs where
  eflags := 0#64
  usp := 0#64
  psp := 0#64
  ijt := 0#64
  rpt := 0#64
  p5 := 0#64
  p6 := 0#64
  p7 := 0#64
  p8 := 0#64
  p9 := 0#64
  p10 := 0#64
  p11 := 0#64
  p12 := 0#64
  p13 := 0#64
  p14 := 0#64
  p15 := 0#64

/-- The state after reset on a given memory array and initial IP (70_reset_and_hazards.md R260, 10_state.md R44). The reset values of
the latches are D21's. -/
def State.resetWith (mem : Memory) (ip : Word) : State where
  x := Regs.zero
  ip := ip
  p := PRegs.zero
  mem := mem
  handlingInterrupt := false
  intSet := false
  intCode := 0#8
  halted := false
  lastInt := { code := 0#8, info := 0#64 }
  freeIndex := 0

/-- The machine right after reset with nothing loaded: a zero-filled array of `Config.resetMemSize` bytes and IP at
`Config.resetIP` (logs 1, 2, 3; the array's size and contents are DESIGN CHOICES, unsafe). -/
def State.reset : State :=
  State.resetWith { size := Config.resetMemSize, cells := [] } Config.resetIP

end Sys2Proof.Machine
end

