-- ==== Sys2Proof/Machine/Flags.lean ====
section
/-! DEFINITION. The bits of EFLAGS (10_state.md R28) and the flag computation of the ALU (44_alu.md R171). -/

namespace Sys2Proof.Machine

/-- EFLAGS bit 0 (10_state.md R28). -/
def carryMask : Word := 0x1#64

/-- EFLAGS bit 1 (10_state.md R28). -/
def overflowMask : Word := 0x2#64

/-- EFLAGS bit 2 (10_state.md R28). -/
def zeroMask : Word := 0x4#64

/-- EFLAGS bit 3 (10_state.md R28). -/
def negativeMask : Word := 0x8#64

/-- EFLAGS bit 61, INTERRUPT_ENABLE (10_state.md R28). -/
def interruptEnableMask : Word := 0x2000000000000000#64

/-- EFLAGS bit 62, PAGING_ENABLE (10_state.md R28). -/
def pagingEnableMask : Word := 0x4000000000000000#64

/-- EFLAGS bit 63, PROTECTED_ENABLE (10_state.md R28). -/
def protectedEnableMask : Word := 0x8000000000000000#64

/-- `C` (00_scope.md R8, 10_state.md R28). -/
def State.flagC (s : State) : Bool := s.p.eflags.getLsbD 0

/-- `V` (00_scope.md R8, 10_state.md R28). -/
def State.flagV (s : State) : Bool := s.p.eflags.getLsbD 1

/-- `ZF` (00_scope.md R8, 10_state.md R28). -/
def State.flagZ (s : State) : Bool := s.p.eflags.getLsbD 2

/-- `N` (00_scope.md R8, 10_state.md R28). -/
def State.flagN (s : State) : Bool := s.p.eflags.getLsbD 3

/-- `IE`: hardware interrupts are accepted (10_state.md R28). -/
def State.flagIE (s : State) : Bool := s.p.eflags.getLsbD 61

/-- `PG`: address translation is active (10_state.md R28). -/
def State.flagPG (s : State) : Bool := s.p.eflags.getLsbD 62

/-- `PE`: user mode; clear in privileged mode (10_state.md R28, R36). -/
def State.flagPE (s : State) : Bool := s.p.eflags.getLsbD 63

/-- CARRY of ADD: "CARRY if `result < o1`", the unsigned wrap (44_alu.md R171, R177). -/
def addCarry (o1 result : Word) : Bool := decide (result.toNat < o1.toNat)

/-- OVERFLOW of ADD: the operands' sign bits agree and the result's differs (44_alu.md R171, R177). -/
def addOverflow (o1 o2 result : Word) : Bool := o1.msb == o2.msb && result.msb != o1.msb

/-- CARRY of SUB: the borrow, `o2 > o1` (44_alu.md R171, R178). -/
def subBorrow (o1 o2 : Word) : Bool := decide (o2.toNat > o1.toNat)

/-- OVERFLOW of SUB: the operands' sign bits differ and the result's differs from `o1`'s (44_alu.md R171, R178, D12). -/
def subOverflow (o1 o2 result : Word) : Bool := o1.msb != o2.msb && result.msb != o1.msb

/-- EFLAGS after an ALU instruction (44_alu.md R171): ZERO and NEGATIVE are cleared and then set from the result; CARRY and OVERFLOW are
only ever set, when `carry` or `overflow` holds (sticky, D11); bits 4 to 63 are kept. -/
def aluFlags (f : Word) (carry overflow : Bool) (result : Word) : Word :=
  let f := f &&& ~~~(zeroMask ||| negativeMask)
  let f := if overflow then f ||| overflowMask else f
  let f := if carry then f ||| carryMask else f
  let f := if result = 0#64 then f ||| zeroMask else f
  if result.msb then f ||| negativeMask else f

end Sys2Proof.Machine
end

