-- ==== Sys2Proof/Machine/Memory.lean ====
section
/-! DEFINITION. The Memory Array as a list in one canonical form, one byte at a time and little-endian over several
(20_memory.md R60, R63). The bounds of an access are checked in `physRead` and `physWrite`, not here. -/

namespace Sys2Proof.Machine

/-- What a byte reads as when the list does not name it. DESIGN CHOICE, unsafe for claims about `State.reset` (log 2): INIT_MEM is a
parameter (00_scope.md R6, D23), and every image is a `Memory`, see `Memory.ofImage`. -/
def Memory.unlisted : Byte := 0#8

/-- The byte a list of cells holds at an address. -/
def cellsRead : List Host.Cell → Nat → Byte
  | [], _ => Memory.unlisted
  | (k, c) :: rest, a =>
    if a < k then Memory.unlisted else if a = k then c else cellsRead rest a

/-- The list with one byte written, the canonical form kept: writing `Memory.unlisted` removes the entry. -/
def cellsWrite : List Host.Cell → Nat → Byte → List Host.Cell
  | [], a, b => if b = Memory.unlisted then [] else [(a, b)]
  | (k, c) :: rest, a, b =>
    if a < k then
      if b = Memory.unlisted then (k, c) :: rest else (a, b) :: (k, c) :: rest
    else if a = k then
      if b = Memory.unlisted then rest.dropWhile (fun cell => cell.1 ≤ a) else (a, b) :: rest
    else (k, c) :: cellsWrite rest a b

/-- `mem[a]` (20_memory.md R60). -/
def Memory.read (m : Memory) (a : Nat) : Byte := cellsRead m.cells a

/-- `mem[a] <- b` (20_memory.md R60). -/
def Memory.write (m : Memory) (a : Nat) (b : Byte) : Memory :=
  { m with cells := cellsWrite m.cells a b }

/-- The canonical form of a list of cells: addresses strictly rising from `low`, below `size`, no entry equal to
`Memory.unlisted`. -/
def cellsWf (size : Nat) : Nat → List Host.Cell → Bool
  | _, [] => true
  | low, (k, c) :: rest =>
    decide (low ≤ k) && decide (k < size) && decide (c ≠ Memory.unlisted) && cellsWf size (k + 1) rest

/-- The Memory Array is as the spec allows: `1 <= MEM_SIZE <= 2^32` (00_scope.md R6) and its list is canonical. -/
def Memory.wf (m : Memory) : Bool :=
  decide (1 ≤ m.size) && decide (m.size ≤ Config.maxMemSize) && cellsWf m.size 0 m.cells

/-- The `n` bytes from address `a` on, assembled little-endian and zero-extended into a 64-bit accumulator (20_memory.md R63,
R64). -/
def Memory.readLE (m : Memory) (a : Nat) : Nat → Word
  | 0 => 0#64
  | n + 1 => (m.read a).setWidth 64 ||| (m.readLE (a + 1) n <<< 8)

/-- Store the low `8n` bits of `v` little-endian from address `a` on (20_memory.md R63, R64). -/
def Memory.writeLE (m : Memory) (a : Nat) (v : Word) : Nat → Memory
  | 0 => m
  | n + 1 => (m.write a (v.setWidth 8)).writeLE (a + 1) (v >>> 8) n

/-- The cells of a flat image whose first byte stands at address `a`. -/
def cellsOfImage : Nat → List Byte → List Host.Cell
  | _, [] => []
  | a, b :: rest =>
    if b = Memory.unlisted then cellsOfImage (a + 1) rest else (a, b) :: cellsOfImage (a + 1) rest

/-- The Memory Array that an image makes: byte `k` of the image is `mem[k]`, and the array's size is the image's size
(70_reset_and_hazards.md R261). -/
def Memory.ofImage (image : List Byte) : Memory where
  size := image.length
  cells := cellsOfImage 0 image

/-- The Memory Array of the given size, zero but for a list of writes, those at or beyond the size left out. -/
def Memory.ofWrites (size : Nat) (writes : List Host.Cell) : Memory :=
  writes.foldl (fun m cell => if cell.1 < size then m.write cell.1 cell.2 else m) { size := size, cells := [] }

end Sys2Proof.Machine
end

