-- ==== Sys2Proof/Machine/Operands.lean ====
section
/-! DEFINITION. The registers as instructions name them, and the operand forms: `x[i]`, `p[i]`, the sign-extended offset, `o2`,
and the 32-bit address made from a 64-bit value (00_scope.md R7, R8). -/

namespace Sys2Proof.Machine

/-- `x[i]`: the value of a general register; `Z` reads 0 (10_state.md R21). -/
def Regs.get (r : Regs) : Reg → Word
  | .a => r.a
  | .b => r.b
  | .c => r.c
  | .d => r.d
  | .e => r.e
  | .f => r.f
  | .g => r.g
  | .h => r.h
  | .i => r.i
  | .j => r.j
  | .k => r.k
  | .x => r.x
  | .y => r.y
  | .sp => r.sp
  | .bp => r.bp
  | .z => 0#64

/-- `x[i] <- v`: a write to `Z` is discarded (10_state.md R21). -/
def Regs.set (r : Regs) (n : Reg) (v : Word) : Regs :=
  match n with
  | .a => { r with a := v }
  | .b => { r with b := v }
  | .c => { r with c := v }
  | .d => { r with d := v }
  | .e => { r with e := v }
  | .f => { r with f := v }
  | .g => { r with g := v }
  | .h => { r with h := v }
  | .i => { r with i := v }
  | .j => { r with j := v }
  | .k => { r with k := v }
  | .x => { r with x := v }
  | .y => { r with y := v }
  | .sp => { r with sp := v }
  | .bp => { r with bp := v }
  | .z => r

/-- `p[i]`: the value of a protected register (10_state.md R26). -/
def PRegs.get (r : PRegs) : PReg → Word
  | .eflags => r.eflags
  | .usp => r.usp
  | .psp => r.psp
  | .ijt => r.ijt
  | .rpt => r.rpt
  | .p5 => r.p5
  | .p6 => r.p6
  | .p7 => r.p7
  | .p8 => r.p8
  | .p9 => r.p9
  | .p10 => r.p10
  | .p11 => r.p11
  | .p12 => r.p12
  | .p13 => r.p13
  | .p14 => r.p14
  | .p15 => r.p15

/-- `p[i] <- v`: all 64 bits are stored, for every index (10_state.md R27, R35). -/
def PRegs.set (r : PRegs) (n : PReg) (v : Word) : PRegs :=
  match n with
  | .eflags => { r with eflags := v }
  | .usp => { r with usp := v }
  | .psp => { r with psp := v }
  | .ijt => { r with ijt := v }
  | .rpt => { r with rpt := v }
  | .p5 => { r with p5 := v }
  | .p6 => { r with p6 := v }
  | .p7 => { r with p7 := v }
  | .p8 => { r with p8 := v }
  | .p9 => { r with p9 := v }
  | .p10 => { r with p10 := v }
  | .p11 => { r with p11 := v }
  | .p12 => { r with p12 := v }
  | .p13 => { r with p13 := v }
  | .p14 => { r with p14 := v }
  | .p15 => { r with p15 := v }

/-- The registers given by a function of their names. -/
def Regs.ofFn (v : Reg → Word) : Regs where
  a := v .a
  b := v .b
  c := v .c
  d := v .d
  e := v .e
  f := v .f
  g := v .g
  h := v .h
  i := v .i
  j := v .j
  k := v .k
  x := v .x
  y := v .y
  sp := v .sp
  bp := v .bp

/-- The protected registers given by a function of their names. -/
def PRegs.ofFn (v : PReg → Word) : PRegs where
  eflags := v .eflags
  usp := v .usp
  psp := v .psp
  ijt := v .ijt
  rpt := v .rpt
  p5 := v .p5
  p6 := v .p6
  p7 := v .p7
  p8 := v .p8
  p9 := v .p9
  p10 := v .p10
  p11 := v .p11
  p12 := v .p12
  p13 := v .p13
  p14 := v .p14
  p15 := v .p15

/-- `x[i]` of a state (00_scope.md R8). -/
def State.reg (s : State) (n : Reg) : Word := s.x.get n

/-- The state after `x[i] <- v` (00_scope.md R8). -/
def State.setReg (s : State) (n : Reg) (v : Word) : State := { s with x := s.x.set n v }

/-- `p[i]` of a state (00_scope.md R8). -/
def State.preg (s : State) (n : PReg) : Word := s.p.get n

/-- The state after `p[i] <- v` (00_scope.md R8). -/
def State.setPReg (s : State) (n : PReg) (v : Word) : State := { s with p := s.p.set n v }

/-- `offset`: the 16-bit field sign-extended to 64 bits (30_encoding.md R104). -/
def sextImm (off : Imm) : Word := off.signExtend 64

/-- The operand form `x[r] + offset`, the 64-bit wrapped sum: `o2` (00_scope.md R8, 30_encoding.md R104), which is also the
effective address of a load or store (41_load_store.md R130) and the target of a branch (43_branch.md R160). -/
def State.regPlus (s : State) (r : Reg) (off : Imm) : Word := s.reg r + sextImm off

/-- `LA(v)`: the 32-bit address made from a 64-bit value, its low 32 bits (20_memory.md R62, D1). -/
def addrOf (v : Word) : Addr := v.setWidth 32

/-- `sext_N(v)` of the low `n` bits of `v` (00_scope.md R7). -/
def sextFrom (n : Nat) (v : Word) : Word := (v.setWidth n).signExtend 64

end Sys2Proof.Machine
end

