-- ==== Sys2Proof/Machine/Ops.lean ====
section
/-! DEFINITION. The shared operations of a tick: physical accesses and the address translator (20_memory.md), the fetch, the
commit of IP, the dropped tick of a bounds error, interrupt entry and return, the double fault (60_exceptions.md), the frame
`runTick` that every instruction's meaning stands in (30_encoding.md R113), and the host's `inject` (60_exceptions.md R226). -/

namespace Sys2Proof.Machine

/-! ### What may end an operation -/

/-- The outcome of an operation inside a tick: a value, a raised interrupt, or a bounds error (00_scope.md R8,
60_exceptions.md R220). -/
inductive Access (α : Type) where
  /-- The operation completes. -/
  | ok (a : α)
  /-- The operation raises an interrupt (00_scope.md R8, `raise`). -/
  | raise (i : Interrupt)
  /-- The operation ends in `BoundsError` (20_memory.md R65). -/
  | bounds
  deriving DecidableEq, Repr

/-- Go on with a completed operation; an interrupt or a bounds error ends the whole. -/
def Access.andThen {α β : Type} (m : Access α) (f : α → Access β) : Access β :=
  match m with
  | .ok a => f a
  | .raise i => .raise i
  | .bounds => .bounds

/-! ### The interrupt codes of the core (60_exceptions.md R223) -/

/-- PAGE_FAULT (60_exceptions.md R223). -/
def pageFaultCode : BitVec 8 := 0x00#8

/-- INSTRUCTION_FAULT (60_exceptions.md R223). -/
def instructionFaultCode : BitVec 8 := 0x01#8

/-- ALU_FAULT (60_exceptions.md R223). -/
def aluFaultCode : BitVec 8 := 0x02#8

/-- INSTRUCTION_FAULT of an unknown opcode: `info = 0` (30_encoding.md R106). -/
def unknownOpcodeFault : Interrupt := { code := instructionFaultCode, info := 0#64 }

/-- INSTRUCTION_FAULT of a privileged instruction in user mode and of a bad INT code: `info = 3` (45_system.md R200, R201). -/
def privilegeFault : Interrupt := { code := instructionFaultCode, info := 3#64 }

/-- ALU_FAULT of a zero divisor: `info = 0` (44_alu.md R181, D18). -/
def divideFault : Interrupt := { code := aluFaultCode, info := 0#64 }

/-- The code is of the fault class, `0x00..0x1F` (60_exceptions.md R221). -/
def isFaultCode (code : BitVec 8) : Bool := decide (code.toNat ≤ 0x1F)

/-! ### Physical accesses (20_memory.md R64) -/

/-- `PhysRead(pa, n)`, zero-extended to 64 bits. The bound is on the integer sum: no wrap at 2^32 (R64, D31). -/
def physRead (s : State) (pa : Addr) (n : Nat) : Access Word :=
  if s.mem.size < pa.toNat + n then .bounds else .ok (s.mem.readLE pa.toNat n)

/-- `PhysWrite(pa, n, v)`: bounds are checked before any byte is written (R64). -/
def physWrite (s : State) (pa : Addr) (n : Nat) (v : Word) : Access State :=
  if s.mem.size < pa.toNat + n then .bounds else .ok { s with mem := s.mem.writeLE pa.toNat v n }

/-! ### The address translator (20_memory.md R70 to R79) -/

/-- Bits 31..22 of a logical address (R72). -/
def rootIndex (la : Addr) : Addr := (la >>> 22) &&& 0x3FF#32

/-- Bits 21..12 of a logical address (R72). -/
def pageIndex (la : Addr) : Addr := (la >>> 12) &&& 0x3FF#32

/-- Bits 11..0 of a logical address (R72). -/
def pageOffset (la : Addr) : Addr := la &&& 0xFFF#32

/-- OCCUPIED, bit 0 of an entry (R73). -/
def entryOccupied (e : Entry) : Bool := e.getLsbD 0

/-- PROTECTED, bit 1 of an entry (R73). -/
def entryProtected (e : Entry) : Bool := e.getLsbD 1

/-- WRITABLE, bit 3 of an entry (R73). -/
def entryWritable (e : Entry) : Bool := e.getLsbD 3

/-- EXECUTABLE, bit 4 of an entry (R73). -/
def entryExecutable (e : Entry) : Bool := e.getLsbD 4

/-- FRAME, the 4 KiB aligned base an entry names (R73). -/
def entryFrame (e : Entry) : Addr := e &&& 0xFFFFF000#32

/-- The entry with ACCESSED set (R73, R77). -/
def markAccessed (e : Entry) : Entry := e ||| 0x20#32

/-- The entry with MODIFIED set when the access stores (R73, R77). -/
def markModified (e : Entry) (write : Bool) : Entry := if write then e ||| 0x04#32 else e

/-- The `info` of a PAGE_FAULT: `(failing_mask << 32) | address` (R76). -/
def pageFaultInfo (mask : Word) (la : Addr) : Word := (mask <<< 32) ||| la.setWidth 64

/-- PAGE_FAULT for the failing mask bit (R75, R76). -/
def pageFault (mask : Word) (la : Addr) : Interrupt :=
  { code := pageFaultCode, info := pageFaultInfo mask la }

/-- The failing mask bit of an entry check, the first in the order of R75, or none when the entry passes. -/
def entryFailure (user : Bool) (e : Entry) (write jump : Bool) : Option Word :=
  if !entryOccupied e then some 0x01#64
  else if user && entryProtected e then some 0x02#64
  else if user && write && !entryWritable e then some 0x08#64
  else if user && jump && !entryExecutable e then some 0x10#64
  else none

/-- `Check(e, la, write, jump)` with the current PE (R75). -/
def checkEntry (s : State) (e : Entry) (la : Addr) (write jump : Bool) : Access Unit :=
  match entryFailure s.flagPE e write jump with
  | some mask => .raise (pageFault mask la)
  | none => .ok ()

/-- The physical address of the root entry: a BYTE offset from RPT (R74, R62). -/
def rootEntryAddr (s : State) (la : Addr) : Addr := addrOf (s.p.rpt + (rootIndex la).setWidth 64)

/-- The physical address of the page entry: a BYTE offset from the table the root entry names (R74). -/
def pageEntryAddr (root : Entry) (la : Addr) : Addr := entryFrame root + pageIndex la

/-- Read a page-table entry, physically (R78). -/
def readEntry (s : State) (pa : Addr) : Access Entry :=
  (physRead s pa 4).andThen fun v => .ok (v.setWidth 32)

/-- Write a page-table entry back, physically (R77, R78). -/
def writeEntry (s : State) (pa : Addr) (e : Entry) : Access State := physWrite s pa 4 (e.setWidth 64)

/-- The walk with PG = 1 (R74): both entries are read and checked before either is written back, the root entry first
(R77, D5). -/
def walk (s : State) (la : Addr) (write jump : Bool) : Access (Addr × State) :=
  (readEntry s (rootEntryAddr s la)).andThen fun root =>
  (checkEntry s root la write jump).andThen fun _ =>
  (readEntry s (pageEntryAddr root la)).andThen fun page =>
  (checkEntry s page la write jump).andThen fun _ =>
  (writeEntry s (rootEntryAddr s la) (markAccessed root)).andThen fun s1 =>
  (writeEntry s1 (pageEntryAddr root la) (markModified (markAccessed page) write)).andThen fun s2 =>
  .ok (entryFrame page + pageOffset la, s2)

/-- `Resolve(la, write, jump)` (R70): the physical address, and the state with the walk's write-backs. With PG = 0 it is the identity
map, with no check and no memory access, in either mode (R71). -/
def resolve (s : State) (la : Addr) (write jump : Bool) : Access (Addr × State) :=
  if s.flagPG then walk s la write jump else .ok (la, s)

/-! ### Logical accesses (20_memory.md R79, R80): one translation, then consecutive physical bytes -/

/-- `MemRead(addr, n)` (R80), and the state with the walk's write-backs. -/
def memRead (s : State) (addr : Word) (n : Nat) : Access (Word × State) :=
  (resolve s (addrOf addr) false false).andThen fun r =>
  (physRead r.2 r.1 n).andThen fun v => .ok (v, r.2)

/-- `MemWrite(addr, n, v)` (R80): the walk and its write-backs come before the data bytes. -/
def memWrite (s : State) (addr : Word) (n : Nat) (v : Word) : Access State :=
  (resolve s (addrOf addr) true false).andThen fun r => physWrite r.2 r.1 n v

/-- `Fetch()` (R80, 30_encoding.md R114): the instruction word at IP, and the state with the walk's write-backs. -/
def fetch (s : State) : Access (InstrWord × State) :=
  (resolve s (addrOf s.ip) false true).andThen fun r =>
  (physRead r.2 r.1 4).andThen fun v => .ok (v.setWidth 32, r.2)

/-! ### The end of a tick -/

/-- Commit of IP (30_encoding.md R116): next-IP if one was set, else IP + 4 with 64-bit wrap (10_state.md R25, D33). Clearing `Z`
(R117) changes nothing, since `Z` holds no storage. -/
def commit (s : State) (next : Option Word) : State :=
  { s with ip := next.getD (s.ip + 4#64) }

/-- The tick of a bounds error: the state at the start of the tick but for IP + 4 (20_memory.md R65, D4). -/
def dropTick (s : State) : State := commit s none

/-- Double fault (60_exceptions.md R240): `halted` is set and `lastInt` is the second interrupt; every other piece of state is a free
value from then on (D22, U4; log 5). The array's size is fixed at construction and stays. -/
def doubleFault (s : State) (i : Interrupt) : State where
  x := Regs.ofFn (Config.haltReg s.freeIndex)
  ip := Config.haltIP s.freeIndex
  p := PRegs.ofFn (Config.haltPReg s.freeIndex)
  mem := Memory.ofWrites s.mem.size (Config.haltWrites s.freeIndex)
  handlingInterrupt := Config.haltHandling s.freeIndex
  intSet := Config.haltIntSet s.freeIndex
  intCode := Config.haltIntCode s.freeIndex
  halted := true
  lastInt := i
  freeIndex := s.freeIndex + 1

/-! ### Interrupt entry (60_exceptions.md R230 to R235) -/

/-- The IP that entry saves: IP for a fault, IP + 4 for a hardware or software interrupt (60_exceptions.md R221). -/
def savedIP (s : State) (code : BitVec 8) : Word :=
  if isFaultCode code then s.ip else s.ip + 4#64

/-- EFLAGS in the handler: PE and IE cleared, PG and the flags kept (60_exceptions.md R231 step 4). -/
def handlerFlags (f : Word) : Word := f &&& ~~~(protectedEnableMask ||| interruptEnableMask)

/-- The logical address of a code's vector, `IJT + 8 * code` (60_exceptions.md R231 step 7, R235). -/
def vectorAddr (s : State) (code : BitVec 8) : Word := s.p.ijt + 8#64 * code.setWidth 64

/-- Steps 2 to 5 of entry (60_exceptions.md R231): the latch, the cleared mode bits, USP <- SP, and SP at the frame's lower end. -/
def enterRegisters (s : State) : State :=
  { s with
    handlingInterrupt := true
    p := { s.p with eflags := handlerFlags s.p.eflags, usp := s.x.sp }
    x := { s.x with sp := s.p.psp - 16#64 } }

/-- Steps 2 to 7 of entry (60_exceptions.md R231), when no interrupt is being handled. The frame is pushed physically, saved IP above
saved EFLAGS (R232); the vector is a data read through the translator, made with PE = 0, and is zero-extended (D7). -/
def enterHandler (s : State) (code : BitVec 8) : Access State :=
  (physWrite (enterRegisters s) (addrOf (s.p.psp - 8#64)) 8 (savedIP s code)).andThen fun s1 =>
  (physWrite s1 (addrOf (s.p.psp - 16#64)) 8 s.p.eflags).andThen fun s2 =>
  (memRead s2 (vectorAddr s code) 4).andThen fun r =>
  .ok (commit r.2 (some r.1))

/-- TAKING AN INTERRUPT: `Enter(i)` and what becomes of its failures (30_encoding.md R113, 60_exceptions.md R231, R234). `start` is the
state at the start of the tick; `base` is what entry starts from, `start` itself but for a cleared `intSet` (R229, D3). An interrupt in a
handler, or one raised by entry's own vector read, is a double fault (R240); a bounds error undoes the whole tick (R65). -/
def takeInterruptFrom (start base : State) (i : Interrupt) : State :=
  if base.handlingInterrupt then doubleFault base i
  else
    match enterHandler { base with lastInt := i } i.code with
    | .ok s => s
    | .raise j => doubleFault base j
    | .bounds => dropTick start

/-- Taking an interrupt that the tick's own instruction raised: no effect of the instruction is kept (60_exceptions.md R229). -/
def takeInterrupt (s : State) (i : Interrupt) : State := takeInterruptFrom s s i

/-! ### Return from interrupt (45_system.md R203, 60_exceptions.md R236) -/

/-- EFLAGS after IRET: the popped value with PE and IE forced (45_system.md R203). -/
def returnFlags (f : Word) : Word := f ||| protectedEnableMask ||| interruptEnableMask

/-- The return: pop EFLAGS and IP physically, swap the stacks, force PE and IE, clear `handlingInterrupt` (45_system.md R203, D8). It
answers the state and the next-IP. -/
def returnFromInterrupt (s : State) : Access (State × Option Word) :=
  (physRead s (addrOf s.x.sp) 8).andThen fun flags =>
  (physRead s (addrOf (s.x.sp + 8#64)) 8).andThen fun ip =>
  .ok ({ s with
          handlingInterrupt := false
          p := { s.p with psp := s.x.sp + 16#64, eflags := returnFlags flags }
          x := { s.x with sp := s.p.usp } }, some ip)

/-! ### Hardware interrupts (60_exceptions.md R226, R227) -/

/-- A pending hardware interrupt is accepted at the start of this tick (60_exceptions.md R227). -/
def acceptsInterrupt (s : State) : Bool := s.intSet && s.flagIE && !s.handlingInterrupt

/-- The tick that services the pending hardware interrupt: `intSet` is cleared and entry is performed instead of an instruction
(60_exceptions.md R227, D19). A bounds error leaves it pending (R234). -/
def serviceInterrupt (s : State) : State :=
  takeInterruptFrom s { s with intSet := false } { code := s.intCode, info := 0#64 }

/-- The host contract on an injected code: `0x20..0x9F` (60_exceptions.md R226, D20). -/
def injectable (code : BitVec 8) : Bool := decide (0x20 ≤ code.toNat) && decide (code.toNat ≤ 0x9F)

/-- `inject(code)`, the host's move between ticks (00_scope.md R11, 60_exceptions.md R226). Outside the contract it is refused (U5;
log 6). -/
def inject (code : BitVec 8) (s : State) : Host.Outcome State Fault Refusal :=
  if injectable code then .next { s with intSet := true, intCode := code }
  else .refused (.injectCodeOutOfContract code)

/-- `reset(INIT_MEM, RESET_IP)`: the core constructed with an image and an initial IP (00_scope.md R11, 70_reset_and_hazards.md R260,
R261). -/
def State.construct (image : List Byte) (ip : Word) : State := State.resetWith (Memory.ofImage image) ip

/-! ### The frame of an instruction's tick (30_encoding.md R113) -/

/-- What an instruction does in a state that its own fetch left: the new state and next-IP, if it completes. -/
abbrev Body := State → Access (State × Option Word)

/-- The state after the tick that executes `body` in the state `s`: the fetch, with the write-backs of its walk, then the instruction.
A completed instruction commits IP; a raised interrupt is taken from `s` itself, so that nothing of the tick is kept (60_exceptions.md
R229); a bounds error drops the tick (20_memory.md R65). -/
def tickState (s : State) (body : Body) : State :=
  match (fetch s).andThen (fun f => body f.2) with
  | .ok r => commit r.1 r.2
  | .raise i => takeInterrupt s i
  | .bounds => dropTick s

/-- The tick of an instruction, as the host's outcome: always a next state. -/
def runTick (s : State) (body : Body) : Host.Outcome State Fault Refusal := .next (tickState s body)

/-! ### Storing an instruction where the next fetch reads it (for `State.withFetchWord`) -/

/-- The physical address the next fetch reads its first byte from; with a walk that fails, the untranslated address. -/
def fetchAddr (s : State) : Addr :=
  match resolve s (addrOf s.ip) false true with
  | .ok r => r.1
  | _ => addrOf s.ip

/-- The state with a 32-bit instruction word stored little-endian at the address the next fetch reads. -/
def storeFetchWord (s : State) (w : InstrWord) : State :=
  { s with mem := s.mem.writeLE (fetchAddr s).toNat (w.setWidth 64) 4 }

end Sys2Proof.Machine
end

