-- ==== Sys2Proof/Machine/Alu.lean ====
section
/-! DEFINITION. The ALU (44_alu.md): twelve two-operand instructions with one operand rule (R170) and one flag rule (R171). -/

namespace Sys2Proof.Machine

/-- `Finish` (44_alu.md R171): write the flags, then the result to `x[r0]`. -/
def finishAlu (s : State) (r0 : Reg) (carry overflow : Bool) (result : Word) : State :=
  (s.setPReg .eflags (aluFlags s.p.eflags carry overflow result)).setReg r0 result

/-- The shape of the ALU instructions that only compute (44_alu.md R170, R171): `op` of `o1 = x[r0]` and `o2 = x[r1] + offset`, with
the CARRY and OVERFLOW conditions of the two operands and the result. -/
def aluBody (op : Word → Word → Word) (carry overflow : Word → Word → Word → Bool) (r0 r1 : Reg) (off : Imm) : Body := fun t =>
  let o1 := t.reg r0
  let o2 := t.regPlus r1 off
  let result := op o1 o2
  .ok (finishAlu t r0 (carry o1 o2 result) (overflow o1 o2 result) result, none)

/-- The CARRY and OVERFLOW condition of every operation but ADD and SUB: never set by it (44_alu.md R171). -/
def noFlag (_ _ _ : Word) : Bool := false

/-- A shift amount: "shift amount taken mod 64" (44_alu.md R175; R176 and R183 by D13). -/
def shiftAmount (o2 : Word) : Nat := (o2 &&& 63#64).toNat

/-- The low 64 bits of the unsigned product (44_alu.md R179). -/
def mulLow (o1 o2 : Word) : Word := BitVec.ofNat 64 (o1.toNat * o2.toNat)

/-- The low 64 bits of the signed product (44_alu.md R180). -/
def smulLow (o1 o2 : Word) : Word := BitVec.ofInt 64 (o1.toInt * o2.toInt)

/-- The unsigned quotient, rounded down (44_alu.md R181). -/
def divQuotient (o1 o2 : Word) : Word := BitVec.ofNat 64 (o1.toNat / o2.toNat)

/-- The unsigned remainder (44_alu.md R181). -/
def divRemainder (o1 o2 : Word) : Word := BitVec.ofNat 64 (o1.toNat % o2.toNat)

/-- The signed quotient, rounded toward zero (44_alu.md R182, D14). -/
def sdivQuotient (o1 o2 : Word) : Word := BitVec.ofInt 64 (o1.toInt.tdiv o2.toInt)

/-- The signed remainder `o1 - q * o2` of the quotient rounded toward zero (44_alu.md R182, D14). -/
def sdivRemainder (o1 o2 : Word) : Word :=
  BitVec.ofInt 64 (o1.toInt - o1.toInt.tdiv o2.toInt * o2.toInt)

/-- The operands whose signed quotient 2^63 has no 64-bit value: -2^63 and -1 (44_alu.md R182). -/
def sdivOverflows (o1 o2 : Word) : Bool := decide (o1.toInt = -9223372036854775808) && decide (o2.toInt = -1)

/-- The end of DIV and SDIV (44_alu.md R181, D16): the remainder to `x[r1]` first, then `Finish` with the quotient. -/
def finishDivide (s : State) (r0 r1 : Reg) (quotient remainder : Word) : State :=
  finishAlu (s.setReg r1 remainder) r0 false false quotient

/-- What DIV does (44_alu.md R181). A zero divisor raises ALU_FAULT and nothing is written. -/
def divBody (r0 r1 : Reg) (off : Imm) : Body := fun t =>
  let o1 := t.reg r0
  let o2 := t.regPlus r1 off
  if o2 = 0#64 then .raise divideFault
  else .ok (finishDivide t r0 r1 (divQuotient o1 o2) (divRemainder o1 o2), none)

/-- What SDIV does (44_alu.md R182): rounded toward zero. -2^63 by -1 does what the parameter SDIV_OVERFLOW says (D15, U1; log 4). -/
def sdivBody (r0 r1 : Reg) (off : Imm) : Body := fun t =>
  let o1 := t.reg r0
  let o2 := t.regPlus r1 off
  if o2 = 0#64 then .raise divideFault
  else if sdivOverflows o1 o2 then
    match Config.sdivOverflow with
    | .pair q r => .ok (finishDivide t r0 r1 q r, none)
    | .aluFault => .raise divideFault
  else .ok (finishDivide t r0 r1 (sdivQuotient o1 o2) (sdivRemainder o1 o2), none)

/-- AND (44_alu.md R172): bitwise and. -/
def execAnd (r0 r1 : Reg) (off : Imm) (s : State) : Host.Outcome State Fault Refusal :=
  runTick s (aluBody (fun o1 o2 => o1 &&& o2) noFlag noFlag r0 r1 off)

/-- OR (44_alu.md R173): bitwise or. -/
def execOr (r0 r1 : Reg) (off : Imm) (s : State) : Host.Outcome State Fault Refusal :=
  runTick s (aluBody (fun o1 o2 => o1 ||| o2) noFlag noFlag r0 r1 off)

/-- XOR (44_alu.md R174): bitwise exclusive or. -/
def execXor (r0 r1 : Reg) (off : Imm) (s : State) : Host.Outcome State Fault Refusal :=
  runTick s (aluBody (fun o1 o2 => o1 ^^^ o2) noFlag noFlag r0 r1 off)

/-- SHL (44_alu.md R175): shift left. -/
def execShl (r0 r1 : Reg) (off : Imm) (s : State) : Host.Outcome State Fault Refusal :=
  runTick s (aluBody (fun o1 o2 => o1 <<< shiftAmount o2) noFlag noFlag r0 r1 off)

/-- SHR (44_alu.md R176): logical shift right. -/
def execShr (r0 r1 : Reg) (off : Imm) (s : State) : Host.Outcome State Fault Refusal :=
  runTick s (aluBody (fun o1 o2 => o1 >>> shiftAmount o2) noFlag noFlag r0 r1 off)

/-- ADD (44_alu.md R177): wrapping sum, sticky CARRY and OVERFLOW. -/
def execAdd (r0 r1 : Reg) (off : Imm) (s : State) : Host.Outcome State Fault Refusal :=
  runTick s (aluBody (fun o1 o2 => o1 + o2) (fun o1 _ result => addCarry o1 result) addOverflow r0 r1 off)

/-- SUB (44_alu.md R178): wrapping difference, sticky CARRY (borrow) and OVERFLOW. -/
def execSub (r0 r1 : Reg) (off : Imm) (s : State) : Host.Outcome State Fault Refusal :=
  runTick s (aluBody (fun o1 o2 => o1 - o2) (fun o1 o2 _ => subBorrow o1 o2) subOverflow r0 r1 off)

/-- MUL (44_alu.md R179): multiply, low 64 bits. -/
def execMul (r0 r1 : Reg) (off : Imm) (s : State) : Host.Outcome State Fault Refusal :=
  runTick s (aluBody mulLow noFlag noFlag r0 r1 off)

/-- SMUL (44_alu.md R180): signed multiply, low 64 bits. -/
def execSmul (r0 r1 : Reg) (off : Imm) (s : State) : Host.Outcome State Fault Refusal :=
  runTick s (aluBody smulLow noFlag noFlag r0 r1 off)

/-- DIV (44_alu.md R181): unsigned divide with remainder. -/
def execDiv (r0 r1 : Reg) (off : Imm) (s : State) : Host.Outcome State Fault Refusal :=
  runTick s (divBody r0 r1 off)

/-- SDIV (44_alu.md R182): signed divide with remainder. -/
def execSdiv (r0 r1 : Reg) (off : Imm) (s : State) : Host.Outcome State Fault Refusal :=
  runTick s (sdivBody r0 r1 off)

/-- SSHR (44_alu.md R183): arithmetic shift right. -/
def execSshr (r0 r1 : Reg) (off : Imm) (s : State) : Host.Outcome State Fault Refusal :=
  runTick s (aluBody (fun o1 o2 => o1.sshiftRight (shiftAmount o2)) noFlag noFlag r0 r1 off)

end Sys2Proof.Machine
end

