-- ==== Sys2Proof/Machine/Branch.lean ====
section
/-! DEFINITION. The branch unit (43_branch.md). The target is the absolute `x[r1] + offset` (R160); a branch writes no flag and no
general register. -/

namespace Sys2Proof.Machine

/-- The shape of every branch (43_branch.md R160): next-IP is `x[r1] + offset` when the condition holds. -/
def branchBody (taken : State → Bool) (r1 : Reg) (off : Imm) : Body := fun t =>
  .ok (t, if taken t then some (t.regPlus r1 off) else none)

/-- JMP (43_branch.md R161): always taken. -/
def execJmp (r1 : Reg) (off : Imm) (s : State) : Host.Outcome State Fault Refusal :=
  runTick s (branchBody (fun _ => true) r1 off)

/-- JLT (43_branch.md R162): taken when NEGATIVE is set. -/
def execJlt (r1 : Reg) (off : Imm) (s : State) : Host.Outcome State Fault Refusal :=
  runTick s (branchBody (fun t => t.flagN) r1 off)

/-- JGT (43_branch.md R163): taken when neither ZERO nor NEGATIVE is set. -/
def execJgt (r1 : Reg) (off : Imm) (s : State) : Host.Outcome State Fault Refusal :=
  runTick s (branchBody (fun t => !t.flagZ && !t.flagN) r1 off)

/-- JZR (43_branch.md R164): taken when ZERO is set. -/
def execJzr (r1 : Reg) (off : Imm) (s : State) : Host.Outcome State Fault Refusal :=
  runTick s (branchBody (fun t => t.flagZ) r1 off)

/-- JIF (43_branch.md R165): taken when `x[r0]` is not zero. -/
def execJif (r0 r1 : Reg) (off : Imm) (s : State) : Host.Outcome State Fault Refusal :=
  runTick s (branchBody (fun t => decide (t.reg r0 ≠ 0#64)) r1 off)

end Sys2Proof.Machine
end

