-- ==== Sys2Proof/Machine/LoadStore.lean ====
section
/-! DEFINITION. The load unit and the store unit (41_load_store.md). The one addressing mode is `x[r1] + offset` (R130); the
translation comes before the data access (20_memory.md R80). -/

namespace Sys2Proof.Machine

/-- The shape of every load (41_load_store.md R130): read `n` bytes at `x[r1] + offset` and write `extend` of them to `x[r0]`. -/
def loadBody (n : Nat) (extend : Word → Word) (r0 r1 : Reg) (off : Imm) : Body := fun t =>
  (memRead t (t.regPlus r1 off) n).andThen fun m => .ok (m.2.setReg r0 (extend m.1), none)

/-- The shape of every store (41_load_store.md R130): write the low `n` bytes of `x[r0]` at `x[r1] + offset`. -/
def storeBody (n : Nat) (r0 r1 : Reg) (off : Imm) : Body := fun t =>
  (memWrite t (t.regPlus r1 off) n (t.reg r0)).andThen fun m => .ok (m, none)

/-- LB (41_load_store.md R131): load one byte, sign-extended. -/
def execLb (r0 r1 : Reg) (off : Imm) (s : State) : Host.Outcome State Fault Refusal :=
  runTick s (loadBody 1 (sextFrom 8) r0 r1 off)

/-- LBU (41_load_store.md R132): load one byte, zero-extended. -/
def execLbu (r0 r1 : Reg) (off : Imm) (s : State) : Host.Outcome State Fault Refusal :=
  runTick s (loadBody 1 id r0 r1 off)

/-- LH (41_load_store.md R133): load two bytes, sign-extended. -/
def execLh (r0 r1 : Reg) (off : Imm) (s : State) : Host.Outcome State Fault Refusal :=
  runTick s (loadBody 2 (sextFrom 16) r0 r1 off)

/-- LHU (41_load_store.md R134): load two bytes, zero-extended. -/
def execLhu (r0 r1 : Reg) (off : Imm) (s : State) : Host.Outcome State Fault Refusal :=
  runTick s (loadBody 2 id r0 r1 off)

/-- LW (41_load_store.md R135): load four bytes, sign-extended. -/
def execLw (r0 r1 : Reg) (off : Imm) (s : State) : Host.Outcome State Fault Refusal :=
  runTick s (loadBody 4 (sextFrom 32) r0 r1 off)

/-- LWU (41_load_store.md R136): load four bytes, zero-extended. -/
def execLwu (r0 r1 : Reg) (off : Imm) (s : State) : Host.Outcome State Fault Refusal :=
  runTick s (loadBody 4 id r0 r1 off)

/-- LD (41_load_store.md R137): load eight bytes. -/
def execLd (r0 r1 : Reg) (off : Imm) (s : State) : Host.Outcome State Fault Refusal :=
  runTick s (loadBody 8 id r0 r1 off)

/-- SB (41_load_store.md R138): store one byte. -/
def execSb (r0 r1 : Reg) (off : Imm) (s : State) : Host.Outcome State Fault Refusal :=
  runTick s (storeBody 1 r0 r1 off)

/-- SH (41_load_store.md R139): store two bytes. -/
def execSh (r0 r1 : Reg) (off : Imm) (s : State) : Host.Outcome State Fault Refusal :=
  runTick s (storeBody 2 r0 r1 off)

/-- SW (41_load_store.md R140): store four bytes. -/
def execSw (r0 r1 : Reg) (off : Imm) (s : State) : Host.Outcome State Fault Refusal :=
  runTick s (storeBody 4 r0 r1 off)

/-- SD (41_load_store.md R141): store eight bytes. -/
def execSd (r0 r1 : Reg) (off : Imm) (s : State) : Host.Outcome State Fault Refusal :=
  runTick s (storeBody 8 r0 r1 off)

end Sys2Proof.Machine
end

