-- ==== Sys2Proof/Machine/Move.lean ====
section
/-! DEFINITION. The register moves of the miscellaneous unit: MOV and GEF (40_move.md). -/

namespace Sys2Proof.Machine

/-- What MOV does (40_move.md R120). -/
def movBody (r0 r1 : Reg) (off : Imm) : Body := fun t => .ok (t.setReg r0 (t.regPlus r1 off), none)

/-- What GEF does (40_move.md R121). -/
def gefBody (r0 : Reg) : Body := fun t => .ok (t.setReg r0 t.p.eflags, none)

/-- MOV (40_move.md R120): `x[r0] <- x[r1] + offset`. -/
def execMov (r0 r1 : Reg) (off : Imm) (s : State) : Host.Outcome State Fault Refusal :=
  runTick s (movBody r0 r1 off)

/-- GEF (40_move.md R121): `x[r0] <- EFLAGS`, all 64 bits, in either mode. -/
def execGef (r0 : Reg) (s : State) : Host.Outcome State Fault Refusal :=
  runTick s (gefBody r0)

end Sys2Proof.Machine
end

