-- ==== Sys2Proof/Machine/Stack.lean ====
section
/-! DEFINITION. The stack unit: PUSH and POP (42_stack.md). A full descending stack of 8-byte slots at the logical address SP (R150). -/

namespace Sys2Proof.Machine

/-- What PUSH does (42_stack.md R151): `SP <- SP - 8`, then the store of `x[r0] + offset`, `x[r0]` read after the decrement (D10). -/
def pushBody (r0 : Reg) (off : Imm) : Body := fun t =>
  let t := t.setReg .sp (t.reg .sp - 8#64)
  (memWrite t (t.reg .sp) 8 (t.regPlus r0 off)).andThen fun m => .ok (m, none)

/-- What POP does (42_stack.md R152): `x[r0] <-` the slot at SP, then `SP <- SP + 8`, SP read after the write of `x[r0]` (D10). -/
def popBody (r0 : Reg) : Body := fun t =>
  (memRead t (t.reg .sp) 8).andThen fun m =>
    let t := m.2.setReg r0 m.1
    .ok (t.setReg .sp (t.reg .sp + 8#64), none)

/-- PUSH (42_stack.md R151). -/
def execPush (r0 : Reg) (off : Imm) (s : State) : Host.Outcome State Fault Refusal :=
  runTick s (pushBody r0 off)

/-- POP (42_stack.md R152). -/
def execPop (r0 : Reg) (s : State) : Host.Outcome State Fault Refusal :=
  runTick s (popBody r0)

end Sys2Proof.Machine
end

