-- ==== Sys2Proof/Machine/System.lean ====
section
/-! DEFINITION. The system instructions: INT, PMOV and IRET (45_system.md). -/

namespace Sys2Proof.Machine

/-- INT's range test, on the whole 64-bit code: `0xA0..0xFF` (45_system.md R200, D17). -/
def isSoftwareCode (code : Word) : Bool := decide (0xA0 ≤ code.toNat) && decide (code.toNat ≤ 0xFF)

/-- What INT does (45_system.md R200): raise the software interrupt `x[r1] + offset`, or INSTRUCTION_FAULT with info 3 outside the
range. -/
def intBody (r1 : Reg) (off : Imm) : Body := fun t =>
  let code := t.regPlus r1 off
  if isSoftwareCode code then .raise { code := code.setWidth 8, info := 0#64 }
  else .raise privilegeFault

/-- What PMOV does (45_system.md R201, R202): `p[r0] <- x[r1] + offset`; in user mode INSTRUCTION_FAULT with info 3. -/
def pmovBody (r0 : PReg) (r1 : Reg) (off : Imm) : Body := fun t =>
  if t.flagPE then .raise privilegeFault
  else .ok (t.setPReg r0 (t.regPlus r1 off), none)

/-- What IRET does (45_system.md R201, R203): the return; in user mode INSTRUCTION_FAULT with info 3. -/
def iretBody : Body := fun t =>
  if t.flagPE then .raise privilegeFault
  else returnFromInterrupt t

/-- INT (45_system.md R200). -/
def execInt (r1 : Reg) (off : Imm) (s : State) : Host.Outcome State Fault Refusal :=
  runTick s (intBody r1 off)

/-- PMOV (45_system.md R202). -/
def execPmov (r0 : PReg) (r1 : Reg) (off : Imm) (s : State) : Host.Outcome State Fault Refusal :=
  runTick s (pmovBody r0 r1 off)

/-- IRET (45_system.md R203). -/
def execIret (s : State) : Host.Outcome State Fault Refusal :=
  runTick s iretBody

end Sys2Proof.Machine
end

