-- ==== Sys2Proof/Machine/Dispatch.lean ====
section
/-! DEFINITION. The dispatch of 30_encoding.md R115: one arm per instruction, in opcode order. `exec i s` is the tick in
which the core, in state `s`, executes `i`: see `runTick`. -/

namespace Sys2Proof.Machine

/-- The tick that executes `i` in the state `s`. -/
def exec (i : Instr) (s : State) : Host.Outcome State Fault Refusal :=
  match i with
  | .mov r0 r1 off => Sys2Proof.Machine.execMov r0 r1 off s
  | .gef r0 => Sys2Proof.Machine.execGef r0 s
  | .lb r0 r1 off => Sys2Proof.Machine.execLb r0 r1 off s
  | .lbu r0 r1 off => Sys2Proof.Machine.execLbu r0 r1 off s
  | .lh r0 r1 off => Sys2Proof.Machine.execLh r0 r1 off s
  | .lhu r0 r1 off => Sys2Proof.Machine.execLhu r0 r1 off s
  | .lw r0 r1 off => Sys2Proof.Machine.execLw r0 r1 off s
  | .lwu r0 r1 off => Sys2Proof.Machine.execLwu r0 r1 off s
  | .ld r0 r1 off => Sys2Proof.Machine.execLd r0 r1 off s
  | .sb r0 r1 off => Sys2Proof.Machine.execSb r0 r1 off s
  | .sh r0 r1 off => Sys2Proof.Machine.execSh r0 r1 off s
  | .sw r0 r1 off => Sys2Proof.Machine.execSw r0 r1 off s
  | .sd r0 r1 off => Sys2Proof.Machine.execSd r0 r1 off s
  | .push r0 off => Sys2Proof.Machine.execPush r0 off s
  | .pop r0 => Sys2Proof.Machine.execPop r0 s
  | .jmp r1 off => Sys2Proof.Machine.execJmp r1 off s
  | .jlt r1 off => Sys2Proof.Machine.execJlt r1 off s
  | .jgt r1 off => Sys2Proof.Machine.execJgt r1 off s
  | .jzr r1 off => Sys2Proof.Machine.execJzr r1 off s
  | .jif r0 r1 off => Sys2Proof.Machine.execJif r0 r1 off s
  | .and r0 r1 off => Sys2Proof.Machine.execAnd r0 r1 off s
  | .or r0 r1 off => Sys2Proof.Machine.execOr r0 r1 off s
  | .xor r0 r1 off => Sys2Proof.Machine.execXor r0 r1 off s
  | .shl r0 r1 off => Sys2Proof.Machine.execShl r0 r1 off s
  | .shr r0 r1 off => Sys2Proof.Machine.execShr r0 r1 off s
  | .add r0 r1 off => Sys2Proof.Machine.execAdd r0 r1 off s
  | .sub r0 r1 off => Sys2Proof.Machine.execSub r0 r1 off s
  | .mul r0 r1 off => Sys2Proof.Machine.execMul r0 r1 off s
  | .smul r0 r1 off => Sys2Proof.Machine.execSmul r0 r1 off s
  | .div r0 r1 off => Sys2Proof.Machine.execDiv r0 r1 off s
  | .sdiv r0 r1 off => Sys2Proof.Machine.execSdiv r0 r1 off s
  | .sshr r0 r1 off => Sys2Proof.Machine.execSshr r0 r1 off s
  | .int r1 off => Sys2Proof.Machine.execInt r1 off s
  | .pmov r0 r1 off => Sys2Proof.Machine.execPmov r0 r1 off s
  | .iret => Sys2Proof.Machine.execIret s

end Sys2Proof.Machine
end

