-- ==== Sys2Proof/Machine/Step.lean ====
section
/-! DEFINITION. The tick (30_encoding.md R113): the order of its events is 60_exceptions.md R228. -/

namespace Sys2Proof.Machine

/-- One tick. A halted core does nothing (60_exceptions.md R240); an accepted hardware interrupt replaces the instruction (R227); else
the word at IP is fetched and the instruction it decodes to is executed. `exec` is the whole tick of that instruction, its own fetch's
write-backs included, so nothing is added around it. A fetch that faults, or a word that selects no instruction (30_encoding.md R106), is
taken from the state at the start of the tick. -/
def step (s : State) : Host.Outcome State Fault Refusal :=
  if s.halted then .next s
  else if acceptsInterrupt s then .next (serviceInterrupt s)
  else
    match fetch s with
    | .ok f =>
      match decode f.1 with
      | .instr i => exec i s
      | .rejected _ => .next (takeInterrupt s unknownOpcodeFault)
    | .raise i => .next (takeInterrupt s i)
    | .bounds => .next (dropTick s)

/-- The state with the instruction of an opcode-table word stored where the next step fetches: the low `nbits` bits of `w`, little-endian
(30_encoding.md R102), at the physical address IP translates to (log 7). -/
def State.withFetchWord (s : State) (nbits w : Nat) : State :=
  storeFetchWord s (BitVec.ofNat 32 (w % 2 ^ nbits))

end Sys2Proof.Machine
end

