-- ==== Sys2Proof/Safety.lean ====
section
/-! DEFINITION. The terms claims about runs are stated in: the modes, the core's running condition, the invariant that every tick
keeps, and what a safe run is. -/

namespace Sys2Proof.Machine

/-- The core has not double-faulted (60_exceptions.md R240). -/
def State.running (s : State) : Prop := s.halted = false

/-- User mode: PROTECTED_ENABLE is set (10_state.md R36). -/
def State.userMode (s : State) : Prop := s.flagPE = true

/-- Privileged mode: PROTECTED_ENABLE is clear (10_state.md R36). -/
def State.privileged (s : State) : Prop := s.flagPE = false

/-- The codes that some event can raise: the three defined faults and the hardware and software classes (60_exceptions.md R223,
R224). Fault codes 0x03 to 0x1F "never occur". -/
def raisableCode (code : BitVec 8) : Bool := decide (code.toNat ≤ 2) || decide (0x20 ≤ code.toNat)

/-- The invariant of every tick: the Memory Array is canonical and of a size the ISA admits (00_scope.md R6); the last interrupt has a
code that some event can raise (60_exceptions.md R224); and while the core runs, a pending hardware interrupt has a code of the host's
contract (60_exceptions.md R226; D20). -/
def State.inv (s : State) : Prop :=
  s.mem.wf = true ∧ raisableCode s.lastInt.code = true ∧
    (s.halted = false → s.intSet = true → injectable s.intCode = true)

/-- The tick of `s` executes the instruction `i`: the core runs, no hardware interrupt is accepted, and the word at IP is fetched and
decodes to `i` (30_encoding.md R113). -/
def State.executes (s : State) (i : Instr) : Prop :=
  s.halted = false ∧ acceptsInterrupt s = false ∧ ∃ w t, fetch s = .ok (w, t) ∧ decode w = .instr i

/-- A safe run of `n` ticks: it ends in a next state and that state has not double-faulted. -/
def safeRun (n : Nat) (s : State) : Prop := ∃ t, Sys2Proof.core.run n s = .next t ∧ t.halted = false

/-! ### The terms of per-instruction claims -/

/-- The tick that starts in `s` fetches its instruction word, and its fetch leaves `t` (30_encoding.md R114). With PG = 0, `t` is `s`. -/
def fetches (s t : State) : Prop := ∃ w, fetch s = .ok (w, t)

/-- What a register holds after a value is written to it: the value, or 0 in `Z` (10_state.md R21). -/
def written (r : Reg) (v : Word) : Word := if r = .z then 0#64 else v

/-- No byte of memory. -/
def nowhere : Nat → Prop := fun _ => False

/-- The `n` bytes from a physical address on. -/
def storedAt (pa : Addr) (n : Nat) : Nat → Prop := fun a => pa.toNat ≤ a ∧ a < pa.toNat + n

/-- `u` keeps everything of `t` but the listed registers, the bytes `stored` says, IP and the `handlingInterrupt` latch. -/
def keepsRest (t u : State) (regs : List Reg) (pregs : List PReg) (stored : Nat → Prop) : Prop :=
  (∀ r, r ∉ regs → u.reg r = t.reg r) ∧ (∀ r, r ∉ pregs → u.preg r = t.preg r) ∧ u.mem.size = t.mem.size ∧
    (∀ a, ¬stored a → u.mem.read a = t.mem.read a) ∧ u.intSet = t.intSet ∧ u.intCode = t.intCode ∧ u.halted = t.halted ∧
    u.lastInt = t.lastInt ∧ u.freeIndex = t.freeIndex

/-- The frame of an instruction: `u` keeps everything of `t` but the listed registers, the bytes `stored` says, and IP. -/
def onlyChanges (t u : State) (regs : List Reg) (pregs : List PReg) (stored : Nat → Prop) : Prop :=
  keepsRest t u regs pregs stored ∧ u.handlingInterrupt = t.handlingInterrupt

/-- How EFLAGS goes from `f` to `g` in an ALU instruction (44_alu.md R171): CARRY and OVERFLOW are set when `carry` and `overflow` hold and
otherwise keep their value, ZERO and NEGATIVE say what the result is, and bits 4 to 63 are kept. -/
def aluFlagsFrom (f g : Word) (carry overflow : Prop) (result : Word) : Prop :=
  (g.getLsbD 0 = true ↔ f.getLsbD 0 = true ∨ carry) ∧ (g.getLsbD 1 = true ↔ f.getLsbD 1 = true ∨ overflow) ∧
    (g.getLsbD 2 = true ↔ result = 0#64) ∧ (g.getLsbD 3 = true ↔ result.msb = true) ∧
    ∀ k, 4 ≤ k → g.getLsbD k = f.getLsbD k

/-- The ALU instruction `op` completes in `s` with `result` in `x[r0]` and the flags of it (44_alu.md R170, R171); `t` is what its fetch
left. -/
def aluCompletes (op : Instr) (s t : State) (r0 : Reg) (carry overflow : Prop) (result : Word) : Prop :=
  ∃ u, exec op s = .next u ∧ u.reg r0 = written r0 result ∧
    aluFlagsFrom s.p.eflags u.p.eflags carry overflow result ∧ u.ip = s.ip + 4#64 ∧ onlyChanges t u [r0] [.eflags] nowhere

/-- The four bytes of memory at a physical address, lowest address least significant (20_memory.md R63). -/
def fourBytes (m : Memory) (a : Nat) : BitVec 32 := m.read (a + 3) ++ m.read (a + 2) ++ m.read (a + 1) ++ m.read a

/-- The eight bytes of memory at a physical address, lowest address least significant (20_memory.md R63). -/
def eightBytes (m : Memory) (a : Nat) : Word := fourBytes m (a + 4) ++ fourBytes m a

/-- `mask` is the first failing mask bit of the entry check, in the order of 20_memory.md R75; `user` says PE = 1. -/
def firstFailure (user : Prop) (e : Entry) (write jump : Bool) (mask : Word) : Prop :=
  (e &&& 0x01#32 = 0#32 ∧ mask = 0x01#64) ∨
  (e &&& 0x01#32 ≠ 0#32 ∧ user ∧ e &&& 0x02#32 ≠ 0#32 ∧ mask = 0x02#64) ∨
  (e &&& 0x01#32 ≠ 0#32 ∧ user ∧ e &&& 0x02#32 = 0#32 ∧ (write = true ∧ e &&& 0x08#32 = 0#32) ∧ mask = 0x08#64) ∨
  (e &&& 0x01#32 ≠ 0#32 ∧ user ∧ e &&& 0x02#32 = 0#32 ∧ ¬(write = true ∧ e &&& 0x08#32 = 0#32) ∧
    (jump = true ∧ e &&& 0x10#32 = 0#32) ∧ mask = 0x10#64)

/-- The PAGE_FAULT of a failing mask bit: code 0 and `(failing_mask << 32) | address` (20_memory.md R76). -/
def pageFaultOf (mask : Word) (la : Addr) : Interrupt := { code := 0x00#8, info := (mask <<< 32) ||| la.setWidth 64 }

/-- The saved IP of an interrupt taken in `s`: IP for a fault code, IP + 4 for the others (60_exceptions.md R221). -/
def resumeIP (s : State) (code : BitVec 8) : Word := if code.toNat ≤ 0x1F then s.ip else s.ip + 4#64

/-- The state in which entry reads the vector: the frame pushed (`pushed` holds the memory), PE and IE cleared, the stacks swapped
(60_exceptions.md R231, steps 2 to 6). -/
def vectorReadState (s pushed : State) (j : Interrupt) : State :=
  { s with
    mem := pushed.mem
    handlingInterrupt := true
    lastInt := j
    p := { s.p with usp := s.x.sp, eflags := s.p.eflags &&& 0x5FFFFFFFFFFFFFFF#64 }
    x := { s.x with sp := s.p.psp - 16#64 } }

/-- Both frame pushes of entry are in bounds, and `pushed` is what they leave (60_exceptions.md R231, step 6). -/
def pushesFrame (s pushed : State) (code : BitVec 8) : Prop :=
  ∃ half, physWrite s (addrOf (s.p.psp - 8#64)) 8 (resumeIP s code) = .ok half ∧
    physWrite half (addrOf (s.p.psp - 16#64)) 8 s.p.eflags = .ok pushed

/-- Entry into the handler of `j` from `s` succeeds and leaves `u` (60_exceptions.md R231): the frame is pushed, the vector is read
through the translator as data, and IP is the zero-extended vector. -/
def enters (s : State) (j : Interrupt) (u : State) : Prop :=
  ∃ pushed pa m, pushesFrame s pushed j.code ∧
    resolve (vectorReadState s pushed j) (addrOf (s.p.ijt + 8#64 * j.code.setWidth 64)) false false = .ok (pa, m) ∧
    pa.toNat + 4 ≤ s.mem.size ∧ u = { m with ip := (fourBytes m.mem pa.toNat).setWidth 64 }

/-- A reserved protected register, p[5] to p[15] (10_state.md R35). -/
def reservedPReg (r : PReg) : Prop := r ∉ [PReg.eflags, .usp, .psp, .ijt, .rpt]

end Sys2Proof.Machine
end

