-- ==== Sys2Proof/Certificates/Slice0/Obligations.lean ====
section
/-! DEFINITION. The statements for the provers. `s` is the state at the start of a tick, `t` the state its own fetch left (`fetches s t`; with
PG = 0 it is `s`), `u` the state after the tick. Where a clause rests on a decision of the spec (92_eei_decisions.md, D1 to D33), the docstring
names it. -/

open Sys2Proof Sys2Proof.Machine

/-! ### Encoding -/

/-- Decoding the word of any instruction gives the instruction back (30_encoding.md section 3). -/
def Obligations.DecodeEncodeRoundTrip : Prop := ∀ op : Instr, decode (encode op) = .instr op

/-- R118: the encoding function `op << 24 | r0 << 20 | r1 << 16 | (off & 0xFFFF)`, and its round trip on the domain the rule names. -/
def Obligations.FieldEncodingRoundTrip : Prop :=
  ∀ f : RawFields, f.op < 256 → f.r0 < 16 → f.r1 < 16 → -32768 ≤ f.off → f.off ≤ 32767 →
    (f.encode).toNat = f.op * 2 ^ 24 + f.r0 * 2 ^ 20 + f.r1 * 2 ^ 16 + (f.off % 65536).toNat ∧ RawFields.ofWord f.encode = f

/-- The opcode map: each of the 35 opcodes selects its instruction whatever the other fields hold, the fields it does not use are ignored (D24),
and every other opcode, the ones with a reserved high bit among them, selects none. -/
def Obligations.DecodeFollowsOpcodeMap : Prop :=
  ∀ (a b : BitVec 4) (off : Imm),
    decode (0#8 ++ a ++ b ++ off) = .instr (.mov (Reg.ofIndex a) (Reg.ofIndex b) off) ∧
    decode (1#8 ++ a ++ b ++ off) = .instr (.gef (Reg.ofIndex a)) ∧
    decode (2#8 ++ a ++ b ++ off) = .instr (.lb (Reg.ofIndex a) (Reg.ofIndex b) off) ∧
    decode (3#8 ++ a ++ b ++ off) = .instr (.lbu (Reg.ofIndex a) (Reg.ofIndex b) off) ∧
    decode (4#8 ++ a ++ b ++ off) = .instr (.lh (Reg.ofIndex a) (Reg.ofIndex b) off) ∧
    decode (5#8 ++ a ++ b ++ off) = .instr (.lhu (Reg.ofIndex a) (Reg.ofIndex b) off) ∧
    decode (6#8 ++ a ++ b ++ off) = .instr (.lw (Reg.ofIndex a) (Reg.ofIndex b) off) ∧
    decode (7#8 ++ a ++ b ++ off) = .instr (.lwu (Reg.ofIndex a) (Reg.ofIndex b) off) ∧
    decode (8#8 ++ a ++ b ++ off) = .instr (.ld (Reg.ofIndex a) (Reg.ofIndex b) off) ∧
    decode (9#8 ++ a ++ b ++ off) = .instr (.sb (Reg.ofIndex a) (Reg.ofIndex b) off) ∧
    decode (10#8 ++ a ++ b ++ off) = .instr (.sh (Reg.ofIndex a) (Reg.ofIndex b) off) ∧
    decode (11#8 ++ a ++ b ++ off) = .instr (.sw (Reg.ofIndex a) (Reg.ofIndex b) off) ∧
    decode (12#8 ++ a ++ b ++ off) = .instr (.sd (Reg.ofIndex a) (Reg.ofIndex b) off) ∧
    decode (13#8 ++ a ++ b ++ off) = .instr (.push (Reg.ofIndex a) off) ∧
    decode (14#8 ++ a ++ b ++ off) = .instr (.pop (Reg.ofIndex a)) ∧
    decode (15#8 ++ a ++ b ++ off) = .instr (.jmp (Reg.ofIndex b) off) ∧
    decode (16#8 ++ a ++ b ++ off) = .instr (.jlt (Reg.ofIndex b) off) ∧
    decode (17#8 ++ a ++ b ++ off) = .instr (.jgt (Reg.ofIndex b) off) ∧
    decode (18#8 ++ a ++ b ++ off) = .instr (.jzr (Reg.ofIndex b) off) ∧
    decode (19#8 ++ a ++ b ++ off) = .instr (.jif (Reg.ofIndex a) (Reg.ofIndex b) off) ∧
    decode (20#8 ++ a ++ b ++ off) = .instr (.and (Reg.ofIndex a) (Reg.ofIndex b) off) ∧
    decode (21#8 ++ a ++ b ++ off) = .instr (.or (Reg.ofIndex a) (Reg.ofIndex b) off) ∧
    decode (22#8 ++ a ++ b ++ off) = .instr (.xor (Reg.ofIndex a) (Reg.ofIndex b) off) ∧
    decode (23#8 ++ a ++ b ++ off) = .instr (.shl (Reg.ofIndex a) (Reg.ofIndex b) off) ∧
    decode (24#8 ++ a ++ b ++ off) = .instr (.shr (Reg.ofIndex a) (Reg.ofIndex b) off) ∧
    decode (25#8 ++ a ++ b ++ off) = .instr (.add (Reg.ofIndex a) (Reg.ofIndex b) off) ∧
    decode (26#8 ++ a ++ b ++ off) = .instr (.sub (Reg.ofIndex a) (Reg.ofIndex b) off) ∧
    decode (27#8 ++ a ++ b ++ off) = .instr (.mul (Reg.ofIndex a) (Reg.ofIndex b) off) ∧
    decode (28#8 ++ a ++ b ++ off) = .instr (.smul (Reg.ofIndex a) (Reg.ofIndex b) off) ∧
    decode (29#8 ++ a ++ b ++ off) = .instr (.div (Reg.ofIndex a) (Reg.ofIndex b) off) ∧
    decode (30#8 ++ a ++ b ++ off) = .instr (.sdiv (Reg.ofIndex a) (Reg.ofIndex b) off) ∧
    decode (31#8 ++ a ++ b ++ off) = .instr (.sshr (Reg.ofIndex a) (Reg.ofIndex b) off) ∧
    decode (32#8 ++ a ++ b ++ off) = .instr (.int (Reg.ofIndex b) off) ∧
    decode (33#8 ++ a ++ b ++ off) = .instr (.pmov (PReg.ofIndex a) (Reg.ofIndex b) off) ∧
    decode (34#8 ++ a ++ b ++ off) = .instr .iret ∧
    ∀ op : BitVec 8, 35 ≤ op.toNat → decode (op ++ a ++ b ++ off) = .rejected (.unknownOpcode op)

/-- The other direction: the word of what a word decodes to has the word's opcode and its used fields (`r0` of GEF, PUSH and POP, `r1` of the flag
branches, JMP and INT, the offset of PUSH, JMP, the flag branches and INT); for the opcodes that use all their fields it is the word itself. -/
def Obligations.EncodeOfDecodedWord : Prop :=
  ∀ (w : InstrWord) (op : Instr), decode w = .instr op →
    (encode op).extractLsb' 24 8 = w.extractLsb' 24 8 ∧
    (∀ n : Nat, (w.extractLsb' 24 8).toNat = n →
      ((n = 0 ∨ (2 ≤ n ∧ n ≤ 12) ∨ (19 ≤ n ∧ n ≤ 31) ∨ n = 33) → encode op = w) ∧
      (n = 1 ∨ n = 13 ∨ n = 14 → (encode op).extractLsb' 20 4 = w.extractLsb' 20 4) ∧
      ((15 ≤ n ∧ n ≤ 18) ∨ n = 32 → (encode op).extractLsb' 16 4 = w.extractLsb' 16 4) ∧
      (n = 13 ∨ (15 ≤ n ∧ n ≤ 18) ∨ n = 32 → (encode op).extractLsb' 0 16 = w.extractLsb' 0 16))

/-- Instructions lie little-endian in memory: the bytes of an instruction decode to it and leave the bytes after them, and with translation off the
fetched word has the byte at LA(IP) lowest (D1 for LA). -/
def Obligations.InstructionBytesAreLittleEndian : Prop :=
  (∀ (op : Instr) (rest : List Byte), decodeBytes (encodeBytes op ++ rest) = (.instr op, rest)) ∧
  (∀ w : InstrWord, bytesOfWord w =
    [w.extractLsb' 0 8, w.extractLsb' 8 8, w.extractLsb' 16 8, w.extractLsb' 24 8]) ∧
  (∀ s : State, s.flagPG = false → (addrOf s.ip).toNat + 4 ≤ s.mem.size →
    fetch s = .ok (fourBytes s.mem (addrOf s.ip).toNat, s))

/-- A few words written out from the spec's encodings decode to the instructions they stand for (95_test_vectors.md, S1 to S4 and part 2). -/
def Obligations.DecodesWordsFromTheSpec : Prop :=
  decode 0x000F002A#32 = .instr (.mov .a .z 0x002A#16) ∧
  decode 0x0C0F0100#32 = .instr (.sd .a .z 0x0100#16) ∧
  decode 0x0D200001#32 = .instr (.push .c 0x0001#16) ∧
  decode 0x131F0008#32 = .instr (.jif .b .z 0x0008#16) ∧
  decode 0x191FFFFF#32 = .instr (.add .b .z 0xFFFF#16) ∧
  decode 0x21208000#32 = .instr (.pmov .psp .a 0x8000#16) ∧
  decode 0x22000000#32 = .instr .iret ∧
  decode 0x23000000#32 = .rejected (.unknownOpcode 0x23#8)

/-! ### The tick -/

/-- When the core runs, no hardware interrupt is accepted and the word at IP decodes to an instruction, the tick is that instruction's. -/
def Obligations.StepRunsDecodedInstruction : Prop :=
  ∀ (s : State) (op : Instr), s.executes op → step s = exec op s

/-- The order of a tick's events (60_exceptions.md section 4, D32): halted (D22), hardware interrupt (D19), fetch (a bounds error by D4, a fault
by D3), unknown opcode. -/
def Obligations.StepTakesTheFirstEvent : Prop :=
  ∀ s : State,
    (s.halted = true → step s = .next s) ∧
    (s.halted = false → s.intSet = true → s.flagIE = true → s.handlingInterrupt = false →
      step s = .next (serviceInterrupt s)) ∧
    (s.halted = false → (s.intSet = false ∨ s.flagIE = false ∨ s.handlingInterrupt = true) →
      (∀ j, fetch s = .raise j → step s = .next (takeInterrupt s j)) ∧
      (fetch s = .bounds → step s = .next { s with ip := s.ip + 4#64 }) ∧
      (∀ w t, fetch s = .ok (w, t) → 35 ≤ (w.extractLsb' 24 8).toNat →
        step s = .next (takeInterrupt s { code := 0x01#8, info := 0#64 })))

/-- Every tick of the machine, and of every instruction, has a next state: nothing is refused and nothing faults. -/
def Obligations.EveryTickHasANextState : Prop :=
  (∀ s : State, ∃ u, step s = .next u) ∧ (∀ (op : Instr) (s : State), ∃ u, exec op s = .next u)

/-- The fetch is four bytes at the translation of LA(IP) as a jump (D1): it raises exactly what that translation raises, leaves the array when the
translation or one of the four bytes does, and otherwise gives the bytes, lowest address least significant. A fetch that fails ends the tick of any
instruction, and nothing of the instruction happens (D3, D4). -/
def Obligations.FetchFailureEndsTheTick : Prop :=
  ∀ s : State,
    let translated := resolve s (s.ip.setWidth 32) false true
    (∀ j, fetch s = .raise j ↔ translated = .raise j) ∧
    (fetch s = .bounds ↔ translated = .bounds ∨ ∃ pa t, translated = .ok (pa, t) ∧ s.mem.size < pa.toNat + 4) ∧
    (∀ pa t, translated = .ok (pa, t) → pa.toNat + 4 ≤ s.mem.size → fetch s = .ok (fourBytes t.mem pa.toNat, t)) ∧
    ∀ op : Instr,
      (∀ j, fetch s = .raise j → exec op s = .next (takeInterrupt s j)) ∧
      (fetch s = .bounds → exec op s = .next { s with ip := s.ip + 4#64 })

/-! ### Registers and memory -/

/-- Both register files read what was last written, register by register; `Z` reads 0 and discards writes. -/
def Obligations.RegisterReadAfterWrite : Prop :=
  (∀ (s : State) (r q : Reg) (v : Word),
    (s.setReg r v).reg q = if q = .z then 0#64 else if q = r then v else s.reg q) ∧
  (∀ (s : State) (v : Word), s.setReg .z v = s) ∧
  (∀ (s : State) (r q : PReg) (v : Word), (s.setPReg r v).preg q = if q = r then v else s.preg q)

/-- A byte of the array reads what was last written to it, and every other byte as before. -/
def Obligations.ByteReadAfterWrite : Prop :=
  ∀ (m : Memory) (a b : Nat) (v : Byte), (m.write a v).read b = if b = a then v else m.read b

/-- Every access is little-endian, as R63 says, the bytes of a logical access all standing at the physical address its one translation gives,
whatever page they reach into (D2, with D1 for LA): byte 0 of a value at address A occupies `mem[A]`, byte k at `mem[A+k]`, for physical and logical reads and
writes (stack slots and interrupt vectors are read and written with these), the instruction fetch and page-table entries, and a byte read inside
an 8-byte store sees byte k of the value. -/
def Obligations.AccessesAreLittleEndian : Prop :=
  ∀ (s : State) (pa : Addr) (n : Nat), n = 1 ∨ n = 2 ∨ n = 4 ∨ n = 8 →
    (∀ v u, physWrite s pa n v = .ok u →
      (∀ k, k < n → u.mem.read (pa.toNat + k) = v.extractLsb' (8 * k) 8) ∧
      (∀ a, ¬storedAt pa n a → u.mem.read a = s.mem.read a)) ∧
    (∀ v, physRead s pa n = .ok v →
      (∀ k, k < n → v.extractLsb' (8 * k) 8 = s.mem.read (pa.toNat + k)) ∧ (∀ k, 8 * n ≤ k → v.getLsbD k = false)) ∧
    (∀ v u k, k < 8 → s.mem.size ≤ Config.maxMemSize → physWrite s pa 8 v = .ok u →
      physRead u (pa + BitVec.ofNat 32 k) 1 = .ok ((v.extractLsb' (8 * k) 8).setWidth 64)) ∧
    (∀ addr v m, resolve s (addrOf addr) false false = .ok (pa, m) → memRead s addr n = .ok (v, m) →
      ∀ k, k < n → v.extractLsb' (8 * k) 8 = m.mem.read (pa.toNat + k)) ∧
    (∀ addr v m u, resolve s (addrOf addr) true false = .ok (pa, m) → memWrite s addr n v = .ok u →
      ∀ k, k < n → u.mem.read (pa.toNat + k) = v.extractLsb' (8 * k) 8) ∧
    (∀ e, readEntry s pa = .ok e → e = fourBytes s.mem pa.toNat) ∧
    (∀ w t, resolve s (addrOf s.ip) false true = .ok (pa, t) → fetch s = .ok (w, t) → w = fourBytes t.mem pa.toNat)

/-- The bound of a physical access is on the integer sum `pa + n`, without wrap (D31), and a store out of bounds writes no byte. -/
def Obligations.PhysicalBounds : Prop :=
  ∀ (s : State) (pa : Addr) (n : Nat) (v : Word),
    (physRead s pa n = .bounds ↔ s.mem.size < pa.toNat + n) ∧
    (physWrite s pa n v = .bounds ↔ s.mem.size < pa.toNat + n) ∧
    (pa.toNat + n ≤ s.mem.size → ∃ w u, physRead s pa n = .ok w ∧ physWrite s pa n v = .ok u)

/-- For every width: a store followed by the unsigned read of the same place gives the value's low bytes, and sign extension of what was read
replicates its top bit. Stated with translation off (D1 for LA): with PG = 1 a store into the live page tables can move the second access. -/
def Obligations.StoreThenLoad : Prop :=
  ∀ (s u : State) (addr v : Word) (n : Nat), n = 1 ∨ n = 2 ∨ n = 4 ∨ n = 8 → s.flagPG = false →
    memWrite s addr n v = .ok u →
    ∃ r, memRead u addr n = .ok (r, u) ∧ r = v &&& BitVec.ofNat 64 (2 ^ (8 * n) - 1) ∧
      (n < 8 → ∀ k, k < 64 → (sextFrom (8 * n) r).getLsbD k = v.getLsbD (min k (8 * n - 1)))

/-! ### The address translator -/

/-- R71: with PAGING_ENABLE clear the translator is the identity, with no check and no memory access, in either mode; and in privileged mode a
walk checks OCCUPIED alone, so protection needs PG = 1 and PE = 1 together. -/
def Obligations.TranslationOffIsIdentity : Prop :=
  (∀ (s : State) (la : Addr) (write jump : Bool), s.flagPG = false → resolve s la write jump = .ok (la, s)) ∧
  (∀ (s : State) (e : Entry) (la : Addr) (write jump : Bool), s.flagPE = false →
    checkEntry s e la write jump =
      if e &&& 0x01#32 = 0#32 then .raise (pageFaultOf 0x01#64 la) else .ok ())

/-- R75: the four checks of an entry in their order, at the root entry first and then at the page entry, the first failing mask bit reported;
privileged mode checks OCCUPIED alone. -/
def Obligations.EntryChecksInOrder : Prop :=
  ∀ (s : State) (la : Addr) (write jump : Bool) (root : Entry), s.flagPG = true →
    readEntry s (rootEntryAddr s la) = .ok root →
    (∀ mask, firstFailure (s.flagPE = true) root write jump mask →
      resolve s la write jump = .raise (pageFaultOf mask la)) ∧
    ((∀ mask, ¬firstFailure (s.flagPE = true) root write jump mask) →
      ∀ page, readEntry s (pageEntryAddr root la) = .ok page →
        (∀ mask, firstFailure (s.flagPE = true) page write jump mask →
          resolve s la write jump = .raise (pageFaultOf mask la)) ∧
        ((∀ mask, ¬firstFailure (s.flagPE = true) page write jump mask) →
          ∃ pa u, resolve s la write jump = .ok (pa, u))) ∧
    (s.flagPE = false → ∀ (e : Entry) (mask : Word), firstFailure (s.flagPE = true) e write jump mask ↔
      e &&& 0x01#32 = 0#32 ∧ mask = 0x01#64)

/-- A successful walk: the physical address is the page's frame plus the offset, the entries stand at byte offsets, ACCESSED is set on both and
MODIFIED on the page entry of a store, the page entry's bytes winning where the two overlap (D1, D5, D6). -/
def Obligations.WalkTranslatesAndMarks : Prop :=
  ∀ (s : State) (la : Addr) (write jump : Bool) (root page : Entry) (ra pe : Addr), s.flagPG = true →
    ra = (s.preg .rpt).setWidth 32 + (la >>> 22 &&& 0x3FF#32) → readEntry s ra = .ok root →
    pe = (root &&& 0xFFFFF000#32) + (la >>> 12 &&& 0x3FF#32) → readEntry s pe = .ok page →
    (∀ mask, ¬firstFailure (s.flagPE = true) root write jump mask) →
    (∀ mask, ¬firstFailure (s.flagPE = true) page write jump mask) →
    ∃ u, resolve s la write jump = .ok ((page &&& 0xFFFFF000#32) + (la &&& 0xFFF#32), u) ∧ { s with mem := u.mem } = u ∧
      u.mem.size = s.mem.size ∧
      ∀ a, u.mem.read a =
        if pe.toNat ≤ a ∧ a < pe.toNat + 4 then
          (page ||| 0x20#32 ||| (if write then 0x04#32 else 0#32)).extractLsb' (8 * (a - pe.toNat)) 8
        else if ra.toNat ≤ a ∧ a < ra.toNat + 4 then (root ||| 0x20#32).extractLsb' (8 * (a - ra.toNat)) 8
        else s.mem.read a

/-- Where a walk leaves the array (20_memory.md section 3): a table entry is out of bounds when its integer end address is (D31), and a translation ends
in a bounds error exactly when PG = 1 and its root entry, or after a root entry that passes its check its page entry, is out of bounds (D1 for
the root entry's address, D6 for physical entries, D32 for the order). -/
def Obligations.WalkBoundsAreThoseOfItsEntries : Prop :=
  ∀ (s : State) (la : Addr) (write jump : Bool),
    let ra := (s.preg .rpt).setWidth 32 + (la >>> 22 &&& 0x3FF#32)
    (∀ pa, readEntry s pa = .bounds ↔ s.mem.size < pa.toNat + 4) ∧
    (resolve s la write jump = .bounds ↔ s.flagPG = true ∧
      (readEntry s ra = .bounds ∨
        ∃ root, readEntry s ra = .ok root ∧ (∀ mask, ¬firstFailure (s.flagPE = true) root write jump mask) ∧
          readEntry s ((root &&& 0xFFFFF000#32) + (la >>> 12 &&& 0x3FF#32)) = .bounds))

/-- A translation changes nothing but bytes of the two entries it walks, and nothing at all with PG = 0; a fetch changes what its translation
does. -/
def Obligations.TranslationTouchesOnlyItsEntries : Prop :=
  (∀ (s u : State) (la pa : Addr) (write jump : Bool), resolve s la write jump = .ok (pa, u) →
    { s with mem := u.mem } = u ∧ u.mem.size = s.mem.size ∧ (s.flagPG = false → u = s) ∧
    ∀ a, u.mem.read a ≠ s.mem.read a → s.flagPG = true ∧ ∃ root, readEntry s (rootEntryAddr s la) = .ok root ∧
      (storedAt (rootEntryAddr s la) 4 a ∨ storedAt (pageEntryAddr root la) 4 a)) ∧
  (∀ (s t : State) (w : InstrWord), fetch s = .ok (w, t) → ∃ pa, resolve s (addrOf s.ip) false true = .ok (pa, t))

/-! ### Moves -/

/-- R120: MOV writes `x[r1] + offset` to `x[r0]` in either mode, with no flag, and nothing else. -/
def Obligations.MovMovesRegisterPlusOffset : Prop :=
  ∀ (r0 r1 : Reg) (off : Imm),
    encode (.mov r0 r1 off) = 0x00#8 ++ r0.index ++ r1.index ++ off ∧
    ∀ s t : State, fetches s t →
      ∃ u, exec (.mov r0 r1 off) s = .next u ∧ u.reg r0 = written r0 (s.reg r1 + off.signExtend 64) ∧
        u.ip = s.ip + 4#64 ∧ onlyChanges t u [r0] [] nowhere

/-- GEF writes all 64 bits of EFLAGS to `x[r0]`, in user mode too (40_move.md, an inference the spec marks as its own), and nothing else. -/
def Obligations.GefReadsEflags : Prop :=
  ∀ (r0 : Reg) (s t : State), fetches s t →
    ∃ u, exec (.gef r0) s = .next u ∧ u.reg r0 = written r0 (s.preg .eflags) ∧ u.ip = s.ip + 4#64 ∧
      onlyChanges t u [r0] [] nowhere

/-! ### Loads and stores -/

/-- The seven loads: the bytes at the translated address (`m` is the state the data walk left), sign- or zero-extended, go to `x[r0]`; nothing
else changes (D1 and D2 for the address). -/
def Obligations.LoadsExtendTheBytesRead : Prop :=
  ∀ (r0 r1 : Reg) (off : Imm) (s t m : State) (pa : Addr), fetches s t →
    resolve t (addrOf (s.reg r1 + off.signExtend 64)) false false = .ok (pa, m) →
    let loads (op : Instr) (n : Nat) (v : Word) : Prop := pa.toNat + n ≤ s.mem.size →
      ∃ u, exec op s = .next u ∧ u.reg r0 = written r0 v ∧ u.ip = s.ip + 4#64 ∧ onlyChanges m u [r0] [] nowhere
    loads (.lb r0 r1 off) 1 ((m.mem.read pa.toNat).signExtend 64) ∧
    loads (.lbu r0 r1 off) 1 ((m.mem.read pa.toNat).setWidth 64) ∧
    loads (.lh r0 r1 off) 2 ((m.mem.read (pa.toNat + 1) ++ m.mem.read pa.toNat).signExtend 64) ∧
    loads (.lhu r0 r1 off) 2 ((m.mem.read (pa.toNat + 1) ++ m.mem.read pa.toNat).setWidth 64) ∧
    loads (.lw r0 r1 off) 4 ((fourBytes m.mem pa.toNat).signExtend 64) ∧
    loads (.lwu r0 r1 off) 4 ((fourBytes m.mem pa.toNat).setWidth 64) ∧
    loads (.ld r0 r1 off) 8 (eightBytes m.mem pa.toNat)

/-- The four stores: byte k of `x[r0]` goes to the k-th byte at the translated address (`m` is the state the data walk left), and nothing else
changes (D1 and D2 for the address). -/
def Obligations.StoresWriteTheLowBytes : Prop :=
  ∀ (r0 r1 : Reg) (off : Imm) (s t m : State) (pa : Addr), fetches s t →
    resolve t (addrOf (s.reg r1 + off.signExtend 64)) true false = .ok (pa, m) →
    let stores (op : Instr) (n : Nat) : Prop := pa.toNat + n ≤ s.mem.size →
      ∃ u, exec op s = .next u ∧ (∀ k, k < n → u.mem.read (pa.toNat + k) = (s.reg r0).extractLsb' (8 * k) 8) ∧
        u.ip = s.ip + 4#64 ∧ onlyChanges m u [] [] (storedAt pa n)
    stores (.sb r0 r1 off) 1 ∧ stores (.sh r0 r1 off) 2 ∧ stores (.sw r0 r1 off) 4 ∧ stores (.sd r0 r1 off) 8

/-- A load or store whose translation faults takes PAGE_FAULT from the state the tick started in, and one whose access leaves the array changes
nothing but IP (D3, D4, D31; D1, D2 for the address). -/
def Obligations.LoadStoreFailuresKeepNothing : Prop :=
  ∀ (r0 r1 : Reg) (off : Imm) (s t : State), fetches s t →
    let fails (op : Instr) (n : Nat) (write : Bool) : Prop :=
      (∀ j, resolve t (addrOf (s.reg r1 + off.signExtend 64)) write false = .raise j →
        exec op s = .next (takeInterrupt s j)) ∧
      (resolve t (addrOf (s.reg r1 + off.signExtend 64)) write false = .bounds →
        exec op s = .next { s with ip := s.ip + 4#64 }) ∧
      (∀ pa m, resolve t (addrOf (s.reg r1 + off.signExtend 64)) write false = .ok (pa, m) →
        s.mem.size < pa.toNat + n → exec op s = .next { s with ip := s.ip + 4#64 })
    fails (.lb r0 r1 off) 1 false ∧ fails (.lbu r0 r1 off) 1 false ∧ fails (.lh r0 r1 off) 2 false ∧
    fails (.lhu r0 r1 off) 2 false ∧ fails (.lw r0 r1 off) 4 false ∧ fails (.lwu r0 r1 off) 4 false ∧
    fails (.ld r0 r1 off) 8 false ∧ fails (.sb r0 r1 off) 1 true ∧ fails (.sh r0 r1 off) 2 true ∧
    fails (.sw r0 r1 off) 4 true ∧ fails (.sd r0 r1 off) 8 true

/-! ### The stack -/

/-- PUSH lowers SP by 8 and stores `x[r0] + offset` in the slot SP then points at; `PUSH SP` stores the decremented SP (D9, D10; D1, D2 for the
address). -/
def Obligations.PushStoresBelowTheStackPointer : Prop :=
  ∀ (r0 : Reg) (off : Imm) (s t m : State) (pa : Addr), fetches s t →
    resolve (t.setReg .sp (s.reg .sp - 8#64)) (addrOf (s.reg .sp - 8#64)) true false = .ok (pa, m) →
    pa.toNat + 8 ≤ s.mem.size →
    ∃ u, exec (.push r0 off) s = .next u ∧ u.reg .sp = s.reg .sp - 8#64 ∧
      (∀ k, k < 8 → u.mem.read (pa.toNat + k) =
        ((if r0 = .sp then s.reg .sp - 8#64 else s.reg r0) + off.signExtend 64).extractLsb' (8 * k) 8) ∧
      u.ip = s.ip + 4#64 ∧ onlyChanges m u [.sp] [] (storedAt pa 8)

/-- POP loads the slot at SP into `x[r0]` and raises SP by 8; `POP SP` ends with the loaded value plus 8 (D9, D10; D1, D2 for the address). -/
def Obligations.PopLoadsAndRaisesTheStackPointer : Prop :=
  ∀ (r0 : Reg) (s t m : State) (pa : Addr), fetches s t →
    resolve t (addrOf (s.reg .sp)) false false = .ok (pa, m) → pa.toNat + 8 ≤ s.mem.size →
    ∃ u, exec (.pop r0) s = .next u ∧
      (r0 ≠ .sp → u.reg r0 = written r0 (eightBytes m.mem pa.toNat) ∧ u.reg .sp = s.reg .sp + 8#64) ∧
      (r0 = .sp → u.reg .sp = eightBytes m.mem pa.toNat + 8#64) ∧
      u.ip = s.ip + 4#64 ∧ onlyChanges m u [r0, .sp] [] nowhere

/-- A PUSH or POP whose translation faults has not moved SP when the interrupt is taken, and one whose table walk or whose slot leaves the array
changes nothing but IP (D3, D4; D1, D2 for the address). -/
def Obligations.StackFailuresKeepNothing : Prop :=
  ∀ (r0 : Reg) (off : Imm) (s t : State), fetches s t →
    (∀ j, resolve (t.setReg .sp (s.reg .sp - 8#64)) (addrOf (s.reg .sp - 8#64)) true false = .raise j →
      exec (.push r0 off) s = .next (takeInterrupt s j)) ∧
    (resolve (t.setReg .sp (s.reg .sp - 8#64)) (addrOf (s.reg .sp - 8#64)) true false = .bounds →
      exec (.push r0 off) s = .next { s with ip := s.ip + 4#64 }) ∧
    (∀ pa m, resolve (t.setReg .sp (s.reg .sp - 8#64)) (addrOf (s.reg .sp - 8#64)) true false = .ok (pa, m) →
      s.mem.size < pa.toNat + 8 → exec (.push r0 off) s = .next { s with ip := s.ip + 4#64 }) ∧
    (∀ j, resolve t (addrOf (s.reg .sp)) false false = .raise j → exec (.pop r0) s = .next (takeInterrupt s j)) ∧
    (resolve t (addrOf (s.reg .sp)) false false = .bounds → exec (.pop r0) s = .next { s with ip := s.ip + 4#64 }) ∧
    (∀ pa m, resolve t (addrOf (s.reg .sp)) false false = .ok (pa, m) → s.mem.size < pa.toNat + 8 →
      exec (.pop r0) s = .next { s with ip := s.ip + 4#64 })

/-- The stack law: `PUSH x; POP y` gives y the value of x and leaves SP as it was. Stated with translation off and for operands other than SP and
a destination other than Z (42_stack.md; D1 for LA). -/
def Obligations.PushThenPop : Prop :=
  ∀ (r0 r1 : Reg) (s : State), s.flagPG = false → r0 ≠ .sp → r1 ≠ .sp → r1 ≠ .z →
    (addrOf s.ip).toNat + 4 ≤ s.mem.size → (addrOf (s.ip + 4#64)).toNat + 4 ≤ s.mem.size →
    (addrOf (s.reg .sp - 8#64)).toNat + 8 ≤ s.mem.size →
    ∃ u v, exec (.push r0 0#16) s = .next u ∧ exec (.pop r1) u = .next v ∧ v.reg r1 = s.reg r0 ∧ v.reg .sp = s.reg .sp

/-! ### Branches -/

/-- R161: JMP sets IP to the absolute `x[r1] + offset` and changes nothing else; its word's `r0` is ignored. -/
def Obligations.JmpGoesToItsTarget : Prop :=
  ∀ (r1 : Reg) (off : Imm),
    encode (.jmp r1 off) = 0x0F#8 ++ 0#4 ++ r1.index ++ off ∧
    (∀ r0 : BitVec 4, decode (0x0F#8 ++ r0 ++ r1.index ++ off) = .instr (.jmp r1 off)) ∧
    ∀ s t : State, fetches s t →
      ∃ u, exec (.jmp r1 off) s = .next u ∧ u.ip = s.reg r1 + off.signExtend 64 ∧ onlyChanges t u [] [] nowhere

/-- R162, R163, R164: JLT, JGT and JZR go to `x[r1] + offset` on NEGATIVE, on neither ZERO nor NEGATIVE, and on ZERO; otherwise IP advances by 4.
Nothing else changes. -/
def Obligations.ConditionalBranchesTestFlags : Prop :=
  ∀ (r1 : Reg) (off : Imm),
    encode (.jlt r1 off) = 0x10#8 ++ 0#4 ++ r1.index ++ off ∧
    encode (.jgt r1 off) = 0x11#8 ++ 0#4 ++ r1.index ++ off ∧
    encode (.jzr r1 off) = 0x12#8 ++ 0#4 ++ r1.index ++ off ∧
    ∀ s t : State, fetches s t →
      let branches (op : Instr) (taken : Prop) : Prop :=
        ∃ u, exec op s = .next u ∧ (taken → u.ip = s.reg r1 + off.signExtend 64) ∧ (¬taken → u.ip = s.ip + 4#64) ∧
          onlyChanges t u [] [] nowhere
      branches (.jlt r1 off) (s.flagN = true) ∧
      branches (.jgt r1 off) (s.flagZ = false ∧ s.flagN = false) ∧
      branches (.jzr r1 off) (s.flagZ = true)

/-- R165: JIF goes to `x[r1] + offset` when `x[r0]` is not zero, all 64 bits tested, so never for `Z`; otherwise IP advances by 4. -/
def Obligations.JifTestsItsRegister : Prop :=
  ∀ (r0 r1 : Reg) (off : Imm),
    encode (.jif r0 r1 off) = 0x13#8 ++ r0.index ++ r1.index ++ off ∧
    ∀ s t : State, fetches s t →
      ∃ u, exec (.jif r0 r1 off) s = .next u ∧ (s.reg r0 ≠ 0#64 → u.ip = s.reg r1 + off.signExtend 64) ∧
        (s.reg r0 = 0#64 → u.ip = s.ip + 4#64) ∧ (r0 = .z → u.ip = s.ip + 4#64) ∧ onlyChanges t u [] [] nowhere

/-! ### The ALU -/

/-- R172 to R175 and R179: AND, OR, XOR, SHL and MUL write their result to `x[r0]` and ZERO and NEGATIVE from it, keep CARRY, OVERFLOW and bits 4 to 63
of EFLAGS, and change nothing else. -/
def Obligations.LogicShiftLeftAndMultiply : Prop :=
  ∀ (r0 r1 : Reg) (off : Imm),
    encode (.and r0 r1 off) = 0x14#8 ++ r0.index ++ r1.index ++ off ∧
    encode (.or r0 r1 off) = 0x15#8 ++ r0.index ++ r1.index ++ off ∧
    encode (.xor r0 r1 off) = 0x16#8 ++ r0.index ++ r1.index ++ off ∧
    encode (.shl r0 r1 off) = 0x17#8 ++ r0.index ++ r1.index ++ off ∧
    encode (.mul r0 r1 off) = 0x1B#8 ++ r0.index ++ r1.index ++ off ∧
    ∀ s t : State, fetches s t →
      let o1 := s.reg r0
      let o2 := s.reg r1 + off.signExtend 64
      aluCompletes (.and r0 r1 off) s t r0 False False (o1 &&& o2) ∧
      aluCompletes (.or r0 r1 off) s t r0 False False (o1 ||| o2) ∧
      aluCompletes (.xor r0 r1 off) s t r0 False False (o1 ^^^ o2) ∧
      aluCompletes (.shl r0 r1 off) s t r0 False False (o1 <<< (o2.toNat % 64)) ∧
      aluCompletes (.mul r0 r1 off) s t r0 False False (BitVec.ofNat 64 (o1.toNat * o2.toNat))

/-- SHR and SSHR shift right by `o2` modulo 64 (D13), logically and arithmetically, with the flags of the other ALU instructions. -/
def Obligations.RightShifts : Prop :=
  ∀ (r0 r1 : Reg) (off : Imm) (s t : State), fetches s t →
    let o1 := s.reg r0
    let n := (s.reg r1 + off.signExtend 64).toNat % 64
    aluCompletes (.shr r0 r1 off) s t r0 False False (BitVec.ofNat 64 (o1.toNat / 2 ^ n)) ∧
    aluCompletes (.sshr r0 r1 off) s t r0 False False (BitVec.ofInt 64 (o1.toInt / 2 ^ n))

/-- SMUL writes the low 64 bits of the signed product, and so does exactly what MUL does (an inference the spec marks as its own, 44_alu.md). -/
def Obligations.SmulIsMul : Prop :=
  ∀ (r0 r1 : Reg) (off : Imm) (s t : State),
    exec (.smul r0 r1 off) s = exec (.mul r0 r1 off) s ∧
    (fetches s t → aluCompletes (.smul r0 r1 off) s t r0 False False
      (BitVec.ofInt 64 ((s.reg r0).toInt * (s.reg r1 + off.signExtend 64).toInt)))

/-- ADD and SUB wrap; CARRY is set when the unsigned sum reaches 2^64 or the unsigned difference is negative, OVERFLOW when the signed result is not
representable, and neither is ever cleared (D11, D12). -/
def Obligations.AddSubCarryAndOverflow : Prop :=
  ∀ (r0 r1 : Reg) (off : Imm) (s t : State), fetches s t →
    let o1 := s.reg r0
    let o2 := s.reg r1 + off.signExtend 64
    aluCompletes (.add r0 r1 off) s t r0 (2 ^ 64 ≤ o1.toNat + o2.toNat)
      (o1.toInt + o2.toInt < -2 ^ 63 ∨ 2 ^ 63 ≤ o1.toInt + o2.toInt) (o1 + o2) ∧
    aluCompletes (.sub r0 r1 off) s t r0 (o1.toNat < o2.toNat)
      (o1.toInt - o2.toInt < -2 ^ 63 ∨ 2 ^ 63 ≤ o1.toInt - o2.toInt) (o1 - o2)

/-- DIV with a divisor that is not zero: the remainder goes to `x[r1]`, then the quotient to `x[r0]` (so one register named twice ends with the quotient,
D16), the flags are the quotient's. -/
def Obligations.DivQuotientAndRemainder : Prop :=
  ∀ (r0 r1 : Reg) (off : Imm) (s t : State), fetches s t → s.reg r1 + off.signExtend 64 ≠ 0#64 →
    let o1 := s.reg r0
    let o2 := s.reg r1 + off.signExtend 64
    ∃ u q r, exec (.div r0 r1 off) s = .next u ∧ q.toNat = o1.toNat / o2.toNat ∧ r.toNat = o1.toNat % o2.toNat ∧
      u.reg r0 = written r0 q ∧ (r1 ≠ r0 → u.reg r1 = written r1 r) ∧
      aluFlagsFrom s.p.eflags u.p.eflags False False q ∧ u.ip = s.ip + 4#64 ∧ onlyChanges t u [r0, r1] [.eflags] nowhere

/-- SDIV, the divisor not zero and the operands not -2^63 and -1: the quotient rounded toward zero and the remainder with the dividend's sign (D14), written
as DIV writes them (D16). -/
def Obligations.SdivQuotientAndRemainder : Prop :=
  ∀ (r0 r1 : Reg) (off : Imm) (s t : State), fetches s t → s.reg r1 + off.signExtend 64 ≠ 0#64 →
    let o1 := s.reg r0
    let o2 := s.reg r1 + off.signExtend 64
    ¬(o1.toInt = -2 ^ 63 ∧ o2.toInt = -1) →
    ∃ (u : State) (q r : Word), exec (.sdiv r0 r1 off) s = .next u ∧ q.toInt = o1.toInt.tdiv o2.toInt ∧
      r.toInt = o1.toInt.tmod o2.toInt ∧ o1.toInt = q.toInt * o2.toInt + r.toInt ∧
      u.reg r0 = written r0 q ∧ (r1 ≠ r0 → u.reg r1 = written r1 r) ∧
      aluFlagsFrom s.p.eflags u.p.eflags False False q ∧ u.ip = s.ip + 4#64 ∧ onlyChanges t u [r0, r1] [.eflags] nowhere

/-- SDIV of -2^63 by -1 does what the open parameter SDIV_OVERFLOW says, whatever that is (D15): a quotient and a remainder written as any SDIV
writes them, or ALU_FAULT. -/
def Obligations.SdivOverflowIsTheParameter : Prop :=
  ∀ (r0 r1 : Reg) (off : Imm) (s t : State), fetches s t → (s.reg r0).toInt = -2 ^ 63 →
    (s.reg r1 + off.signExtend 64).toInt = -1 →
    match Config.sdivOverflow with
    | .pair q r =>
      ∃ u, exec (.sdiv r0 r1 off) s = .next u ∧ u.reg r0 = written r0 q ∧ (r1 ≠ r0 → u.reg r1 = written r1 r) ∧
        aluFlagsFrom s.p.eflags u.p.eflags False False q ∧ u.ip = s.ip + 4#64 ∧ onlyChanges t u [r0, r1] [.eflags] nowhere
    | .aluFault => exec (.sdiv r0 r1 off) s = .next (takeInterrupt s { code := 0x02#8, info := 0#64 })

/-- DIV and SDIV by zero raise ALU_FAULT with info 0 (D18), taken from the state the tick started in: no register and no flag is written (D3). -/
def Obligations.ZeroDivisorRaisesAluFault : Prop :=
  ∀ (r0 r1 : Reg) (off : Imm) (s t : State), fetches s t → s.reg r1 + off.signExtend 64 = 0#64 →
    exec (.div r0 r1 off) s = .next (takeInterrupt s { code := 0x02#8, info := 0#64 }) ∧
    exec (.sdiv r0 r1 off) s = .next (takeInterrupt s { code := 0x02#8, info := 0#64 })

/-! ### System instructions -/

/-- INT takes the software interrupt of the code `x[r1] + offset` when the whole 64-bit sum is in 0xA0..0xFF (D17, info 0 by D18), and
INSTRUCTION_FAULT with info 3 otherwise, from the state the tick started in (D3); where entry succeeds, the tick ends in the handler
(D1, D7). -/
def Obligations.IntEntersItsHandler : Prop :=
  ∀ (r1 : Reg) (off : Imm) (s t : State), fetches s t →
    let code := s.reg r1 + off.signExtend 64
    let takes (j : Interrupt) : Prop := exec (.int r1 off) s = .next (takeInterrupt s j) ∧
      ∀ u, s.handlingInterrupt = false → enters s j u → exec (.int r1 off) s = .next u
    (0xA0 ≤ code.toNat ∧ code.toNat ≤ 0xFF → takes { code := code.setWidth 8, info := 0#64 }) ∧
    (code.toNat < 0xA0 ∨ 0xFF < code.toNat → takes { code := 0x01#8, info := 3#64 })

/-- PMOV in privileged mode writes `x[r1] + offset`, all 64 bits, to any protected register, and nothing else. -/
def Obligations.PmovWritesAProtectedRegister : Prop :=
  ∀ (r0 : PReg) (r1 : Reg) (off : Imm) (s t : State), fetches s t → s.flagPE = false →
    ∃ u, exec (.pmov r0 r1 off) s = .next u ∧ u.preg r0 = s.reg r1 + off.signExtend 64 ∧ u.ip = s.ip + 4#64 ∧
      onlyChanges t u [] [r0] nowhere

/-- PMOV and IRET in user mode raise INSTRUCTION_FAULT with info 3, taken from the state the tick started in (D3): nothing is written or popped. -/
def Obligations.PrivilegedInstructionsFaultInUserMode : Prop :=
  ∀ (r0 : PReg) (r1 : Reg) (off : Imm) (s t : State), fetches s t → s.flagPE = true →
    exec (.pmov r0 r1 off) s = .next (takeInterrupt s { code := 0x01#8, info := 3#64 }) ∧
    exec .iret s = .next (takeInterrupt s { code := 0x01#8, info := 3#64 })

/-- IRET in privileged mode, both pops in bounds: EFLAGS and IP come from the physical frame at SP (D8), PE and IE are forced on, PSP gets SP + 16, SP gets
USP, `handlingInterrupt` is cleared whatever it was (D30), and nothing else changes. With a pop that leaves the array, nothing but IP
changes (D4). D1 for the slots' addresses. -/
def Obligations.IretRestoresTheFrame : Prop :=
  ∀ s t : State, fetches s t → s.flagPE = false →
    ((addrOf (s.reg .sp)).toNat + 8 ≤ s.mem.size → (addrOf (s.reg .sp + 8#64)).toNat + 8 ≤ s.mem.size →
      ∃ u, exec .iret s = .next u ∧ u.ip = eightBytes t.mem (addrOf (s.reg .sp + 8#64)).toNat ∧
        u.preg .eflags = eightBytes t.mem (addrOf (s.reg .sp)).toNat ||| 0xA000000000000000#64 ∧
        u.reg .sp = s.preg .usp ∧ u.preg .psp = s.reg .sp + 16#64 ∧ u.handlingInterrupt = false ∧
        keepsRest t u [.sp] [.eflags, .psp] nowhere) ∧
    (s.mem.size < (addrOf (s.reg .sp)).toNat + 8 ∨ s.mem.size < (addrOf (s.reg .sp + 8#64)).toNat + 8 →
      exec .iret s = .next { s with ip := s.ip + 4#64 })

/-! ### Interrupts -/

/-- Interrupt entry outside a handler: when the frame's pushes are in bounds and the vector is readable, taking the interrupt is the entry sequence; the
handler runs privileged with interrupts masked, on the privileged stack, and only SP, EFLAGS bits 61 and 63, USP, the latch, `lastInt` and memory have
changed (D3, D7; D1 for the addresses). -/
def Obligations.InterruptEntrySequence : Prop :=
  ∀ (s u : State) (j : Interrupt), s.handlingInterrupt = false → enters s j u →
    takeInterrupt s j = u ∧ u.handlingInterrupt = true ∧ u.lastInt = j ∧ u.reg .sp = s.preg .psp - 16#64 ∧
    u.preg .usp = s.reg .sp ∧ u.flagPE = false ∧ u.flagIE = false ∧
    (∀ k, k ≠ 61 → k ≠ 63 → (u.preg .eflags).getLsbD k = (s.preg .eflags).getLsbD k) ∧
    (∀ r, r ≠ .sp → u.reg r = s.reg r) ∧ (∀ r, r ≠ .usp → r ≠ .eflags → u.preg r = s.preg r) ∧
    u.intSet = s.intSet ∧ u.intCode = s.intCode ∧ u.halted = s.halted ∧ u.mem.size = s.mem.size

/-- The frame of entry with translation off: saved EFLAGS at PSP - 16, saved IP (IP for a fault, IP + 4 otherwise) at PSP - 8, both 8 bytes little-endian;
IP is the 4-byte vector at IJT + 8 * code, zero-extended (D7), and no other byte changes (D1 for the addresses). -/
def Obligations.InterruptFrameLayout : Prop :=
  ∀ (s : State) (j : Interrupt), s.handlingInterrupt = false → s.flagPG = false → s.mem.size ≤ Config.maxMemSize →
    let ipSlot := addrOf (s.preg .psp - 8#64)
    let flagSlot := addrOf (s.preg .psp - 16#64)
    let vector := addrOf (s.preg .ijt + 8#64 * j.code.setWidth 64)
    ipSlot.toNat + 8 ≤ s.mem.size → flagSlot.toNat + 8 ≤ s.mem.size → vector.toNat + 4 ≤ s.mem.size →
    let u := takeInterrupt s j
    (∀ k, k < 8 → u.mem.read (flagSlot.toNat + k) = (s.preg .eflags).extractLsb' (8 * k) 8) ∧
    (∀ k, k < 8 → u.mem.read (ipSlot.toNat + k) =
      (if j.code.toNat ≤ 0x1F then s.ip else s.ip + 4#64).extractLsb' (8 * k) 8) ∧
    (∀ a, ¬storedAt ipSlot 8 a → ¬storedAt flagSlot 8 a → u.mem.read a = s.mem.read a) ∧
    u.ip = (fourBytes u.mem vector.toNat).setWidth 64

/-- The failures of taking an interrupt: in a handler it is a double fault, which sets `halted` and leaves the second interrupt in `lastInt` (D22); a push
or vector read out of bounds undoes the whole tick but for IP + 4 (D4); a PAGE_FAULT of the vector read is a double fault with that interrupt (an inference the spec marks as its own; D22). D1 for the addresses. -/
def Obligations.InterruptEntryFailures : Prop :=
  ∀ (s : State) (j : Interrupt),
    (s.handlingInterrupt = true → (takeInterrupt s j).halted = true ∧ (takeInterrupt s j).lastInt = j) ∧
    (s.handlingInterrupt = false →
      (s.mem.size < (addrOf (s.preg .psp - 8#64)).toNat + 8 ∨ s.mem.size < (addrOf (s.preg .psp - 16#64)).toNat + 8 →
        takeInterrupt s j = { s with ip := s.ip + 4#64 }) ∧
      ∀ pushed, pushesFrame s pushed j.code →
        let vector := resolve (vectorReadState s pushed j) (addrOf (s.preg .ijt + 8#64 * j.code.setWidth 64)) false false
        (∀ k, vector = .raise k → (takeInterrupt s j).halted = true ∧ (takeInterrupt s j).lastInt = k) ∧
        (vector = .bounds → takeInterrupt s j = { s with ip := s.ip + 4#64 }) ∧
        (∀ pa m, vector = .ok (pa, m) → s.mem.size < pa.toNat + 4 → takeInterrupt s j = { s with ip := s.ip + 4#64 }))

/-- An accepted hardware interrupt replaces the tick's instruction: `intSet` is cleared and the handler of `intCode` is entered with info 0 and saved IP + 4
(D18, D19, D20). A bounds error of either push, of the vector's walk or of the vector itself changes nothing but IP + 4, so it stays pending (D4,
60_exceptions.md section 5); a PAGE_FAULT of the vector read, which only a clear OCCUPIED bit raises, halts the core with that PAGE_FAULT as `lastInt`
(an inference the spec marks as its own; D22). D1 for the addresses, D7 for the vector read. -/
def Obligations.HardwareInterruptIsServiced : Prop :=
  ∀ s : State, s.halted = false → s.intSet = true → s.flagIE = true → s.handlingInterrupt = false → injectable s.intCode = true →
    let base : State := { s with intSet := false }
    let j : Interrupt := { code := s.intCode, info := 0#64 }
    let va := addrOf (s.preg .ijt + 8#64 * s.intCode.setWidth 64)
    let dropped := step s = .next { s with ip := s.ip + 4#64 }
    (∀ u, enters base j u → step s = .next u ∧ u.intSet = false ∧ u.lastInt = j ∧ resumeIP s s.intCode = s.ip + 4#64) ∧
    (s.mem.size < (addrOf (s.preg .psp - 8#64)).toNat + 8 ∨ s.mem.size < (addrOf (s.preg .psp - 16#64)).toNat + 8 → dropped) ∧
    ∀ pushed, pushesFrame base pushed s.intCode →
      let vector := resolve (vectorReadState base pushed j) va false false
      (∀ k, vector = .raise k → k = pageFaultOf 0x01#64 va ∧ ∃ u, step s = .next u ∧ u.halted = true ∧ u.lastInt = k) ∧
      (vector = .bounds → dropped) ∧
      (∀ pa m, vector = .ok (pa, m) → s.mem.size < pa.toNat + 4 → dropped)

/-- A pending hardware interrupt that is not accepted stays pending with its code through any tick that does not double-fault. -/
def Obligations.MaskedInterruptStaysPending : Prop :=
  ∀ s u : State, (s.intSet = false ∨ s.flagIE = false ∨ s.handlingInterrupt = true) → step s = .next u →
    u.halted = false → u.intSet = s.intSet ∧ u.intCode = s.intCode

/-- The host's injection sets the pending slot, overwriting what it held, for a code of 0x20..0x9F; any other code is refused by name (D20; log 6). -/
def Obligations.InjectSetsThePendingSlot : Prop :=
  ∀ (code : BitVec 8) (s : State),
    (0x20 ≤ code.toNat ∧ code.toNat ≤ 0x9F → inject code s = .next { s with intSet := true, intCode := code }) ∧
    (code.toNat < 0x20 ∨ 0x9F < code.toNat → inject code s = .refused (.injectCodeOutOfContract code))

/-- A double-faulted core never changes again, over any number of ticks (D22). -/
def Obligations.HaltedCoreNeverChanges : Prop :=
  ∀ (n : Nat) (s : State), s.halted = true → Sys2Proof.core.run n s = .next s

/-- A safe run never passed through a double fault: every shorter run is safe too. -/
def Obligations.SafeRunsArePrefixClosed : Prop :=
  ∀ (n k : Nat) (s : State), safeRun (n + k) s → safeRun n s

/-! ### Reset -/

/-- Reset, for every image and every initial IP: all registers 0 (so privileged, translation off, interrupts masked), IP the configured one, byte k of memory
byte k of the image, the latches clear (D21), and the first fetch at LA(IP). -/
def Obligations.ResetState : Prop :=
  ∀ (image : List Byte) (ip : Word),
    let s := State.construct image ip
    (∀ r, s.reg r = 0#64) ∧ (∀ r, s.preg r = 0#64) ∧ s.ip = ip ∧ s.mem.size = image.length ∧
    (∀ k, k < image.length → image[k]? = some (s.mem.read k)) ∧ s.flagPE = false ∧ s.flagPG = false ∧ s.flagIE = false ∧
    s.handlingInterrupt = false ∧ s.intSet = false ∧ s.intCode = 0#8 ∧ s.halted = false ∧
    s.lastInt = { code := 0#8, info := 0#64 } ∧
    ((ip.setWidth 32).toNat + 4 ≤ image.length → fetch s = .ok (fourBytes s.mem (ip.setWidth 32).toNat, s))

/-- The invariant holds after reset: of the nullary reset, and of every image of a size the ISA admits. -/
def Obligations.ResetHasTheInvariant : Prop :=
  State.reset.inv ∧
  ∀ (image : List Byte) (ip : Word), 1 ≤ image.length → image.length ≤ Config.maxMemSize → (State.construct image ip).inv

/-! ### The whole machine -/

/-- Every tick keeps the invariant: memory canonical and of an admitted size, the last interrupt's code one that some event raises, a pending code within the
host's contract while the core runs. MEM_SIZE never changes. -/
def Obligations.StepKeepsTheInvariant : Prop :=
  ∀ s u : State, s.inv → step s = .next u → u.inv ∧ u.mem.size = s.mem.size

/-- R35: a reserved protected register keeps its value through every tick, interrupt entry and IRET among them, but one that executes a PMOV naming it;
that PMOV stores all 64 bits and raises no fault; and the register has no effect: two states that differ only in it go to states that differ at most
in it, to the same outcome. Ticks that end in a double fault are left out: their state is a free value (log 5). -/
def Obligations.ReservedRegistersAreInertStorage : Prop :=
  ∀ (s : State) (r : PReg), reservedPReg r →
    (∀ u, step s = .next u → u.halted = false →
      (u.preg r = s.preg r ∨ ∃ r1 off, s.executes (.pmov r r1 off) ∧ s.privileged ∧ u.preg r = s.reg r1 + off.signExtend 64) ∧
      ∀ v, ∃ w, step (s.setPReg r v) = .next (u.setPReg r w)) ∧
    (∀ r1 off, s.executes (.pmov r r1 off) → s.privileged →
      ∃ u, step s = .next u ∧ u.preg r = s.reg r1 + off.signExtend 64 ∧ u.handlingInterrupt = s.handlingInterrupt ∧
        u.lastInt = s.lastInt ∧ u.ip = s.ip + 4#64)

/-- Privilege (70_reset_and_hazards.md and 60_exceptions.md section 7, an inference the spec marks as its own): a tick in user mode changes no protected
register but EFLAGS and USP and no EFLAGS bit above 3 but PE and IE, and it leaves user mode only by interrupt entry. -/
def Obligations.UserModeLeavesOnlyByEntry : Prop :=
  ∀ s u : State, s.userMode → step s = .next u → u.halted = false →
    (∀ r, r ≠ .eflags → r ≠ .usp → u.preg r = s.preg r) ∧
    (∀ k, 4 ≤ k → k ≠ 61 → k ≠ 63 → (u.preg .eflags).getLsbD k = (s.preg .eflags).getLsbD k) ∧
    ((u.userMode ∧ u.preg .usp = s.preg .usp ∧ u.flagIE = s.flagIE ∧ u.handlingInterrupt = s.handlingInterrupt) ∨
      (u.privileged ∧ u.flagIE = false ∧ s.handlingInterrupt = false ∧ u.handlingInterrupt = true ∧
        u.preg .usp = s.reg .sp ∧ u.reg .sp = s.preg .psp - 16#64))

/-- `handlingInterrupt` is set by interrupt entry alone and cleared by a privileged IRET alone, in ticks that do not double-fault. -/
def Obligations.HandlingLatchIsSetByEntryAndClearedByIret : Prop :=
  ∀ s u : State, step s = .next u → u.halted = false →
    (s.handlingInterrupt = true → u.handlingInterrupt = false → s.executes .iret ∧ s.privileged ∧ u.userMode ∧ u.flagIE = true) ∧
    (s.handlingInterrupt = false → u.handlingInterrupt = true → u.privileged ∧ u.flagIE = false ∧
      u.preg .usp = s.reg .sp ∧ u.reg .sp = s.preg .psp - 16#64)

/-- Interrupts are precise (D3): an instruction whose tick enters a handler has left no effect of its own; the state is the one that taking the interrupt from
the start of the tick gives. -/
def Obligations.InterruptsArePrecise : Prop :=
  ∀ (op : Instr) (s u : State), exec op s = .next u → s.handlingInterrupt = false → u.handlingInterrupt = true →
    u.halted = false → u = takeInterrupt s u.lastInt

/-- CARRY and OVERFLOW are sticky (D11): in a tick that does not double-fault, only PMOV to EFLAGS and IRET can clear them. -/
def Obligations.CarryAndOverflowAreSticky : Prop :=
  ∀ s u : State, step s = .next u → u.halted = false →
    (∀ r1 off, ¬s.executes (.pmov .eflags r1 off)) → ¬s.executes .iret →
    (s.flagC = true → u.flagC = true) ∧ (s.flagV = true → u.flagV = true)
end

