-- ==== Sys2Proof/Laws/Memory.lean ====
section
/-! SUPPORT. The Memory Array: reading after writing, the canonical form, and the little-endian accesses
(20_memory.md R60, R63, R64). -/

namespace Sys2Proof.Machine

/-! ### One byte -/

theorem cellsRead_of_lt {cells : List Host.Cell} {a k : Nat} {c : Byte} (h : a < k) :
    cellsRead ((k, c) :: cells) a = Memory.unlisted := by
  simp [cellsRead, h]

/-- Dropping the cells up to `a` hides nothing above `a` once a cell at or below `a` stands before them. -/
theorem cellsRead_dropWhile (cells : List Host.Cell) {a b : Nat} (h : a < b) :
    cellsRead (cells.dropWhile (fun cell => cell.1 ≤ a)) b = cellsRead cells b := by
  induction cells with
  | nil => rfl
  | cons cell rest ih =>
    obtain ⟨k, c⟩ := cell
    by_cases hk : k ≤ a
    · have h1 : ¬b < k := by omega
      have h2 : ¬b = k := by omega
      simp [List.dropWhile, hk, ih, cellsRead, h1, h2]
    · simp [List.dropWhile, hk]

/-- After dropping the cells up to `a`, nothing is listed at or below `a`. -/
theorem cellsRead_dropWhile_le (cells : List Host.Cell) {a b : Nat} (h : b ≤ a) :
    cellsRead (cells.dropWhile (fun cell => cell.1 ≤ a)) b = Memory.unlisted := by
  induction cells with
  | nil => rfl
  | cons cell rest ih =>
    obtain ⟨k, c⟩ := cell
    by_cases hk : k ≤ a
    · simp [List.dropWhile, hk, ih]
    · have h1 : b < k := by omega
      simp [List.dropWhile, hk, cellsRead, h1]

/-- Reading a byte after writing one. It holds of every list, canonical or not. -/
theorem cellsRead_cellsWrite (cells : List Host.Cell) (a b : Nat) (v : Byte) :
    cellsRead (cellsWrite cells a v) b = if b = a then v else cellsRead cells b := by
  induction cells with
  | nil =>
    by_cases hv : v = Memory.unlisted <;> by_cases hb : b = a <;> by_cases hlt : b < a <;>
      simp [cellsWrite, cellsRead, hv, hb, hlt]
  | cons cell rest ih =>
    obtain ⟨k, c⟩ := cell
    rcases Nat.lt_trichotomy a k with h | h | h
    · by_cases hv : v = Memory.unlisted
      · by_cases hb : b = a
        · subst hb
          simp [cellsWrite, hv, h, cellsRead]
        · simp [cellsWrite, hv, h, hb]
      · by_cases hb : b = a
        · subst hb
          simp [cellsWrite, hv, h, cellsRead]
        · by_cases hlt : b < a
          · have : b < k := by omega
            simp [cellsWrite, hv, h, cellsRead, hb, hlt, this]
          · simp [cellsWrite, hv, h, cellsRead, hb, hlt]
    · subst h
      by_cases hv : v = Memory.unlisted
      · by_cases hb : b = a
        · subst hb
          simp [cellsWrite, hv, cellsRead_dropWhile_le]
        · by_cases hlt : b < a
          · simp [cellsWrite, hv, cellsRead, hb, hlt, cellsRead_dropWhile_le _ (Nat.le_of_lt hlt)]
          · simp [cellsWrite, hv, cellsRead, hb, hlt, cellsRead_dropWhile _ (by omega : a < b)]
      · by_cases hb : b = a
        · subst hb
          simp [cellsWrite, hv, cellsRead]
        · by_cases hlt : b < a <;> simp [cellsWrite, hv, cellsRead, hb, hlt]
    · have h1 : ¬a < k := by omega
      have h2 : ¬a = k := by omega
      simp only [cellsWrite, h1, h2, if_false, cellsRead]
      by_cases hb : b = a
      · subst hb
        simp [h1, h2, ih]
      · by_cases hlt : b < k
        · simp [hlt, hb]
        · by_cases hk : b = k
          · have hka : ¬k = a := by omega
            simp [hk, hka]
          · simp [hlt, hb, hk, ih]

@[simp] theorem Memory.write_size (m : Memory) (a : Nat) (v : Byte) : (m.write a v).size = m.size := rfl

/-- A byte read after a byte written. -/
theorem Memory.read_write (m : Memory) (a b : Nat) (v : Byte) :
    (m.write a v).read b = if b = a then v else m.read b :=
  cellsRead_cellsWrite m.cells a b v

/-! ### The canonical form -/

theorem cellsWf_mono {size low low' : Nat} {cells : List Host.Cell} (h : cellsWf size low cells = true) (hl : low' ≤ low) :
    cellsWf size low' cells = true := by
  cases cells with
  | nil => rfl
  | cons cell rest =>
    obtain ⟨k, c⟩ := cell
    simp only [cellsWf, Bool.and_eq_true, decide_eq_true_eq] at h ⊢
    exact ⟨⟨⟨by omega, h.1.1.2⟩, h.1.2⟩, h.2⟩

theorem dropWhile_of_cellsWf {size a : Nat} {cells : List Host.Cell} (h : cellsWf size (a + 1) cells = true) :
    cells.dropWhile (fun cell => cell.1 ≤ a) = cells := by
  cases cells with
  | nil => rfl
  | cons cell rest =>
    obtain ⟨k, c⟩ := cell
    simp only [cellsWf, Bool.and_eq_true, decide_eq_true_eq] at h
    have : ¬k ≤ a := by omega
    simp [List.dropWhile, this]

/-- A write inside the array keeps the canonical form. -/
theorem cellsWf_cellsWrite {size low a : Nat} {v : Byte} {cells : List Host.Cell} (h : cellsWf size low cells = true)
    (ha : a < size) (hl : low ≤ a) : cellsWf size low (cellsWrite cells a v) = true := by
  induction cells generalizing low with
  | nil =>
    by_cases hv : v = Memory.unlisted <;> simp [cellsWrite, cellsWf, hv, ha, hl]
  | cons cell rest ih =>
    obtain ⟨k, c⟩ := cell
    simp only [cellsWf, Bool.and_eq_true, decide_eq_true_eq] at h
    obtain ⟨⟨⟨h1, h2⟩, h3⟩, h4⟩ := h
    rcases Nat.lt_trichotomy a k with hk | hk | hk
    · by_cases hv : v = Memory.unlisted
      · simp [cellsWrite, hk, hv, cellsWf, h1, h2, h3, h4]
      · have : a + 1 ≤ k := hk
        simp [cellsWrite, hk, hv, cellsWf, ha, hl, h2, h3, h4, this]
    · subst hk
      by_cases hv : v = Memory.unlisted
      · have h5 := cellsWf_mono h4 (by omega : low ≤ a + 1)
        simp [cellsWrite, hv, dropWhile_of_cellsWf h4, h5]
      · simp [cellsWrite, hv, cellsWf, ha, hl, h4]
    · have e1 : ¬a < k := by omega
      have e2 : ¬a = k := by omega
      simp only [cellsWrite, e1, e2, if_false, cellsWf, Bool.and_eq_true, decide_eq_true_eq]
      exact ⟨⟨⟨h1, h2⟩, h3⟩, ih h4 (by omega)⟩

/-- The parts of `Memory.wf`. -/
theorem Memory.wf_iff (m : Memory) :
    m.wf = true ↔ 1 ≤ m.size ∧ m.size ≤ Config.maxMemSize ∧ cellsWf m.size 0 m.cells = true := by
  simp [Memory.wf, and_assoc]

/-- A write inside the array keeps `Memory.wf`. -/
theorem Memory.wf_write {m : Memory} {a : Nat} {v : Byte} (h : m.wf = true) (ha : a < m.size) : (m.write a v).wf = true := by
  rw [Memory.wf_iff] at h ⊢
  exact ⟨h.1, h.2.1, cellsWf_cellsWrite h.2.2 ha (Nat.zero_le a)⟩

/-! ### Little-endian accesses -/

@[simp] theorem Memory.writeLE_size (m : Memory) (a : Nat) (v : Word) (n : Nat) : (m.writeLE a v n).size = m.size := by
  induction n generalizing m a v with
  | zero => rfl
  | succ n ih => simp [Memory.writeLE, ih]

/-- An access inside the array keeps `Memory.wf`. -/
theorem Memory.wf_writeLE {m : Memory} {a : Nat} {v : Word} {n : Nat} (h : m.wf = true) (ha : a + n ≤ m.size) :
    (m.writeLE a v n).wf = true := by
  induction n generalizing m a v with
  | zero => exact h
  | succ n ih =>
    simp only [Memory.writeLE]
    exact ih (Memory.wf_write h (by omega)) (by simp only [Memory.write_size]; omega)

theorem Memory.read_writeLE_outside (m : Memory) (a b : Nat) (v : Word) (n : Nat) (h : b < a ∨ a + n ≤ b) :
    (m.writeLE a v n).read b = m.read b := by
  induction n generalizing m a v with
  | zero => rfl
  | succ n ih =>
    simp only [Memory.writeLE]
    rw [ih _ _ _ (by omega), Memory.read_write, if_neg (by omega)]

/-- Byte `k` of a little-endian store is byte `k` of the value (20_memory.md R63). -/
theorem Memory.read_writeLE_inside (m : Memory) (a k : Nat) (v : Word) (n : Nat) (h : k < n) :
    (m.writeLE a v n).read (a + k) = v.extractLsb' (8 * k) 8 := by
  induction n generalizing m a v k with
  | zero => omega
  | succ n ih =>
    simp only [Memory.writeLE]
    cases k with
    | zero =>
      rw [Memory.read_writeLE_outside _ _ _ _ _ (by omega), Memory.read_write, if_pos (by omega)]
      apply BitVec.eq_of_getLsbD_eq
      intro i hi
      simp [hi]
    | succ k =>
      have := ih (m.write a (v.setWidth 8)) (a + 1) k (v >>> 8) (by omega)
      rw [show a + (k + 1) = a + 1 + k by omega, this]
      apply BitVec.eq_of_getLsbD_eq
      intro i hi
      simp only [BitVec.getLsbD_extractLsb', BitVec.getLsbD_ushiftRight, hi, decide_true, Bool.true_and]
      congr 1
      omega

/-- Every byte after a little-endian store (20_memory.md R63, R64). -/
theorem Memory.read_writeLE (m : Memory) (a b : Nat) (v : Word) (n : Nat) :
    (m.writeLE a v n).read b = if a ≤ b ∧ b < a + n then v.extractLsb' (8 * (b - a)) 8 else m.read b := by
  by_cases h : a ≤ b ∧ b < a + n
  · rw [if_pos h]
    have := Memory.read_writeLE_inside m a (b - a) v n (by omega)
    rwa [show a + (b - a) = b by omega] at this
  · rw [if_neg h]
    exact Memory.read_writeLE_outside m a b v n (by omega)

/-- Bit `i` of a little-endian read of `n` bytes (20_memory.md R63, R64): bit `i % 8` of byte `i / 8`, and zero above. -/
theorem Memory.readLE_bit (m : Memory) (a n i : Nat) :
    (m.readLE a n).getLsbD i = (decide (i < 64) && decide (i < 8 * n) && (m.read (a + i / 8)).getLsbD (i % 8)) := by
  induction n generalizing a i with
  | zero => simp [Memory.readLE]
  | succ n ih =>
    simp only [Memory.readLE, BitVec.getLsbD_or, BitVec.getLsbD_setWidth, BitVec.getLsbD_shiftLeft, ih]
    by_cases h8 : i < 8
    · have e1 : i / 8 = 0 := by omega
      have e2 : i % 8 = i := by omega
      have e3 : i < 8 * (n + 1) := by omega
      by_cases h64 : i < 64 <;> simp [h8, e1, e2, e3]
    · have e0 : (m.read a).getLsbD i = false := BitVec.getLsbD_of_ge _ _ (by omega)
      have e1 : a + 1 + (i - 8) / 8 = a + i / 8 := by omega
      have e2 : (i - 8) % 8 = i % 8 := by omega
      have e3 : (i - 8 < 8 * n) ↔ (i < 8 * (n + 1)) := by omega
      by_cases h64 : i < 64
      · have e4 : i - 8 < 64 := by omega
        simp [h8, e0, e1, e2, e3, h64, e4]
      · simp [h64]

/-- Two little-endian reads of the same bytes are equal. -/
theorem Memory.readLE_congr {m m' : Memory} {a n : Nat} (h : ∀ k, k < n → m.read (a + k) = m'.read (a + k)) :
    m.readLE a n = m'.readLE a n := by
  induction n generalizing a with
  | zero => rfl
  | succ n ih =>
    simp only [Memory.readLE]
    rw [show m.read a = m'.read a by simpa using h 0 (by omega),
      ih (fun k hk => by simpa [Nat.add_assoc, Nat.add_comm 1 k] using h (k + 1) (by omega))]

/-- Byte `k` of a little-endian read is the byte at `a + k` (20_memory.md R63). -/
theorem Memory.readLE_byte (m : Memory) (a n k : Nat) (hk : k < n) (hn : n ≤ 8) :
    (m.readLE a n).extractLsb' (8 * k) 8 = m.read (a + k) := by
  apply BitVec.eq_of_getLsbD_eq
  intro i hi
  rw [BitVec.getLsbD_extractLsb', Memory.readLE_bit]
  have e1 : (8 * k + i) / 8 = k := by omega
  have e2 : (8 * k + i) % 8 = i := by omega
  have e3 : 8 * k + i < 64 := by omega
  have e4 : 8 * k + i < 8 * n := by omega
  simp [hi, e1, e2, e3, e4]

/-- A little-endian read after a store of the same place and width: the stored value's low `8n` bits (41_load_store.md R142). -/
theorem Memory.readLE_writeLE_bit (m : Memory) (a n i : Nat) (v : Word) :
    ((m.writeLE a v n).readLE a n).getLsbD i = (decide (i < 8 * n) && v.getLsbD i) := by
  rw [Memory.readLE_bit]
  by_cases h : i < 8 * n
  · rw [Memory.read_writeLE_inside _ _ _ _ _ (by omega), BitVec.getLsbD_extractLsb']
    have e1 : i % 8 < 8 := by omega
    have e2 : 8 * (i / 8) + i % 8 = i := by omega
    by_cases h64 : i < 64
    · simp [h, h64, e1, e2]
    · simp [h64, BitVec.getLsbD_of_ge v i (by omega)]
  · simp [h]

/-! ### Images and free contents -/

theorem cellsWf_cellsOfImage (image : List Byte) (a size : Nat) (h : a + image.length ≤ size) :
    cellsWf size a (cellsOfImage a image) = true := by
  induction image generalizing a with
  | nil => rfl
  | cons b rest ih =>
    simp only [List.length_cons] at h
    have hrest := ih (a + 1) (by omega)
    by_cases hb : b = Memory.unlisted
    · simpa [cellsOfImage, hb] using cellsWf_mono hrest (by omega : a ≤ a + 1)
    · have : a < size := by omega
      simp [cellsOfImage, hb, cellsWf, this, hrest]

theorem cellsRead_cellsOfImage_below (image : List Byte) (a b : Nat) (h : b < a) :
    cellsRead (cellsOfImage a image) b = Memory.unlisted := by
  induction image generalizing a with
  | nil => rfl
  | cons c rest ih =>
    by_cases hc : c = Memory.unlisted
    · simpa [cellsOfImage, hc] using ih (a + 1) (by omega)
    · simp [cellsOfImage, hc, cellsRead, h]

/-- Byte `k` of an image is `mem[k]` (70_reset_and_hazards.md R261). -/
theorem cellsRead_cellsOfImage (image : List Byte) (a k : Nat) :
    cellsRead (cellsOfImage a image) (a + k) = image.getD k Memory.unlisted := by
  induction image generalizing a k with
  | nil => simp [cellsOfImage, cellsRead]
  | cons c rest ih =>
    cases k with
    | zero =>
      by_cases hc : c = Memory.unlisted
      · simpa [cellsOfImage, hc] using cellsRead_cellsOfImage_below rest (a + 1) a (by omega)
      · simp [cellsOfImage, hc, cellsRead]
    | succ k =>
      have h := ih (a + 1) k
      rw [show a + 1 + k = a + (k + 1) by omega] at h
      by_cases hc : c = Memory.unlisted
      · simpa [cellsOfImage, hc] using h
      · simpa [cellsOfImage, hc, cellsRead] using h

/-- The array an image makes is canonical when the image's size is one the ISA admits. -/
theorem Memory.wf_ofImage {image : List Byte} (h1 : 1 ≤ image.length) (h2 : image.length ≤ Config.maxMemSize) :
    (Memory.ofImage image).wf = true := by
  rw [Memory.wf_iff]
  exact ⟨h1, h2, cellsWf_cellsOfImage image 0 image.length (by omega)⟩

theorem Memory.foldWrites_size (writes : List Host.Cell) (size : Nat) (m : Memory) :
    (writes.foldl (fun m cell => if cell.1 < size then m.write cell.1 cell.2 else m) m).size = m.size := by
  induction writes generalizing m with
  | nil => rfl
  | cons cell rest ih =>
    simp only [List.foldl_cons]
    rw [ih]
    split <;> simp

@[simp] theorem Memory.ofWrites_size (size : Nat) (writes : List Host.Cell) : (Memory.ofWrites size writes).size = size := by
  simp [Memory.ofWrites, Memory.foldWrites_size]

theorem Memory.wf_foldWrites (writes : List Host.Cell) {m : Memory} (h : m.wf = true) :
    (writes.foldl (fun n cell => if cell.1 < m.size then n.write cell.1 cell.2 else n) m).wf = true := by
  suffices ∀ (size : Nat) (m : Memory), m.size = size → m.wf = true →
      (writes.foldl (fun n cell => if cell.1 < size then n.write cell.1 cell.2 else n) m).wf = true from this m.size m rfl h
  induction writes with
  | nil => intro size m _ h; exact h
  | cons cell rest ih =>
    intro size m hs h
    simp only [List.foldl_cons]
    split
    · exact ih size _ (by simpa using hs) (Memory.wf_write h (by omega))
    · exact ih size m hs h

/-- The free contents of an array are canonical when its size is one the ISA admits. -/
theorem Memory.wf_ofWrites {size : Nat} (writes : List Host.Cell) (h1 : 1 ≤ size) (h2 : size ≤ Config.maxMemSize) :
    (Memory.ofWrites size writes).wf = true :=
  Memory.wf_foldWrites (m := { size := size, cells := [] }) writes (by simp [Memory.wf, cellsWf, h1, h2])

end Sys2Proof.Machine
end

