-- ==== Sys2Proof/Laws/State.lean ====
section
/-! SUPPORT. One lemma per field per update of the state, so that no proof unfolds a record update. -/

namespace Sys2Proof.Machine

/-! ### `x[i] <- v` -/

@[simp] theorem State.setReg_x (s : State) (n : Reg) (v : Word) : (s.setReg n v).x = s.x.set n v := rfl
@[simp] theorem State.setReg_ip (s : State) (n : Reg) (v : Word) : (s.setReg n v).ip = s.ip := rfl
@[simp] theorem State.setReg_p (s : State) (n : Reg) (v : Word) : (s.setReg n v).p = s.p := rfl
@[simp] theorem State.setReg_mem (s : State) (n : Reg) (v : Word) : (s.setReg n v).mem = s.mem := rfl
@[simp] theorem State.setReg_handlingInterrupt (s : State) (n : Reg) (v : Word) : (s.setReg n v).handlingInterrupt = s.handlingInterrupt := rfl
@[simp] theorem State.setReg_intSet (s : State) (n : Reg) (v : Word) : (s.setReg n v).intSet = s.intSet := rfl
@[simp] theorem State.setReg_intCode (s : State) (n : Reg) (v : Word) : (s.setReg n v).intCode = s.intCode := rfl
@[simp] theorem State.setReg_halted (s : State) (n : Reg) (v : Word) : (s.setReg n v).halted = s.halted := rfl
@[simp] theorem State.setReg_lastInt (s : State) (n : Reg) (v : Word) : (s.setReg n v).lastInt = s.lastInt := rfl
@[simp] theorem State.setReg_freeIndex (s : State) (n : Reg) (v : Word) : (s.setReg n v).freeIndex = s.freeIndex := rfl

/-! ### `p[i] <- v` -/

@[simp] theorem State.setPReg_x (s : State) (n : PReg) (v : Word) : (s.setPReg n v).x = s.x := rfl
@[simp] theorem State.setPReg_ip (s : State) (n : PReg) (v : Word) : (s.setPReg n v).ip = s.ip := rfl
@[simp] theorem State.setPReg_p (s : State) (n : PReg) (v : Word) : (s.setPReg n v).p = s.p.set n v := rfl
@[simp] theorem State.setPReg_mem (s : State) (n : PReg) (v : Word) : (s.setPReg n v).mem = s.mem := rfl
@[simp] theorem State.setPReg_handlingInterrupt (s : State) (n : PReg) (v : Word) : (s.setPReg n v).handlingInterrupt = s.handlingInterrupt := rfl
@[simp] theorem State.setPReg_intSet (s : State) (n : PReg) (v : Word) : (s.setPReg n v).intSet = s.intSet := rfl
@[simp] theorem State.setPReg_intCode (s : State) (n : PReg) (v : Word) : (s.setPReg n v).intCode = s.intCode := rfl
@[simp] theorem State.setPReg_halted (s : State) (n : PReg) (v : Word) : (s.setPReg n v).halted = s.halted := rfl
@[simp] theorem State.setPReg_lastInt (s : State) (n : PReg) (v : Word) : (s.setPReg n v).lastInt = s.lastInt := rfl
@[simp] theorem State.setPReg_freeIndex (s : State) (n : PReg) (v : Word) : (s.setPReg n v).freeIndex = s.freeIndex := rfl

/-! ### The commit of IP -/

@[simp] theorem commit_x (s : State) (n : Option Word) : (commit s n).x = s.x := rfl
@[simp] theorem commit_ip (s : State) (n : Option Word) : (commit s n).ip = n.getD (s.ip + 4#64) := rfl
@[simp] theorem commit_p (s : State) (n : Option Word) : (commit s n).p = s.p := rfl
@[simp] theorem commit_mem (s : State) (n : Option Word) : (commit s n).mem = s.mem := rfl
@[simp] theorem commit_handlingInterrupt (s : State) (n : Option Word) : (commit s n).handlingInterrupt = s.handlingInterrupt := rfl
@[simp] theorem commit_intSet (s : State) (n : Option Word) : (commit s n).intSet = s.intSet := rfl
@[simp] theorem commit_intCode (s : State) (n : Option Word) : (commit s n).intCode = s.intCode := rfl
@[simp] theorem commit_halted (s : State) (n : Option Word) : (commit s n).halted = s.halted := rfl
@[simp] theorem commit_lastInt (s : State) (n : Option Word) : (commit s n).lastInt = s.lastInt := rfl
@[simp] theorem commit_freeIndex (s : State) (n : Option Word) : (commit s n).freeIndex = s.freeIndex := rfl

/-! ### The dropped tick -/

@[simp] theorem dropTick_x (s : State) : (dropTick s).x = s.x := rfl
@[simp] theorem dropTick_ip (s : State) : (dropTick s).ip = s.ip + 4#64 := rfl
@[simp] theorem dropTick_p (s : State) : (dropTick s).p = s.p := rfl
@[simp] theorem dropTick_mem (s : State) : (dropTick s).mem = s.mem := rfl
@[simp] theorem dropTick_handlingInterrupt (s : State) : (dropTick s).handlingInterrupt = s.handlingInterrupt := rfl
@[simp] theorem dropTick_intSet (s : State) : (dropTick s).intSet = s.intSet := rfl
@[simp] theorem dropTick_intCode (s : State) : (dropTick s).intCode = s.intCode := rfl
@[simp] theorem dropTick_halted (s : State) : (dropTick s).halted = s.halted := rfl
@[simp] theorem dropTick_lastInt (s : State) : (dropTick s).lastInt = s.lastInt := rfl
@[simp] theorem dropTick_freeIndex (s : State) : (dropTick s).freeIndex = s.freeIndex := rfl

/-! ### The registers at interrupt entry -/

@[simp] theorem enterRegisters_x (s : State) : (enterRegisters s).x = { s.x with sp := s.p.psp - 16#64 } := rfl
@[simp] theorem enterRegisters_ip (s : State) : (enterRegisters s).ip = s.ip := rfl
@[simp] theorem enterRegisters_p (s : State) : (enterRegisters s).p = { s.p with eflags := handlerFlags s.p.eflags, usp := s.x.sp } := rfl
@[simp] theorem enterRegisters_mem (s : State) : (enterRegisters s).mem = s.mem := rfl
@[simp] theorem enterRegisters_handlingInterrupt (s : State) : (enterRegisters s).handlingInterrupt = true := rfl
@[simp] theorem enterRegisters_intSet (s : State) : (enterRegisters s).intSet = s.intSet := rfl
@[simp] theorem enterRegisters_intCode (s : State) : (enterRegisters s).intCode = s.intCode := rfl
@[simp] theorem enterRegisters_halted (s : State) : (enterRegisters s).halted = s.halted := rfl
@[simp] theorem enterRegisters_lastInt (s : State) : (enterRegisters s).lastInt = s.lastInt := rfl
@[simp] theorem enterRegisters_freeIndex (s : State) : (enterRegisters s).freeIndex = s.freeIndex := rfl

/-! ### `Finish` -/

@[simp] theorem finishAlu_x (s : State) (r0 : Reg) (c v : Bool) (result : Word) : (finishAlu s r0 c v result).x = s.x.set r0 result := rfl
@[simp] theorem finishAlu_ip (s : State) (r0 : Reg) (c v : Bool) (result : Word) : (finishAlu s r0 c v result).ip = s.ip := rfl
@[simp] theorem finishAlu_p (s : State) (r0 : Reg) (c v : Bool) (result : Word) : (finishAlu s r0 c v result).p = s.p.set .eflags (aluFlags s.p.eflags c v result) := rfl
@[simp] theorem finishAlu_mem (s : State) (r0 : Reg) (c v : Bool) (result : Word) : (finishAlu s r0 c v result).mem = s.mem := rfl
@[simp] theorem finishAlu_handlingInterrupt (s : State) (r0 : Reg) (c v : Bool) (result : Word) : (finishAlu s r0 c v result).handlingInterrupt = s.handlingInterrupt := rfl
@[simp] theorem finishAlu_intSet (s : State) (r0 : Reg) (c v : Bool) (result : Word) : (finishAlu s r0 c v result).intSet = s.intSet := rfl
@[simp] theorem finishAlu_intCode (s : State) (r0 : Reg) (c v : Bool) (result : Word) : (finishAlu s r0 c v result).intCode = s.intCode := rfl
@[simp] theorem finishAlu_halted (s : State) (r0 : Reg) (c v : Bool) (result : Word) : (finishAlu s r0 c v result).halted = s.halted := rfl
@[simp] theorem finishAlu_lastInt (s : State) (r0 : Reg) (c v : Bool) (result : Word) : (finishAlu s r0 c v result).lastInt = s.lastInt := rfl
@[simp] theorem finishAlu_freeIndex (s : State) (r0 : Reg) (c v : Bool) (result : Word) : (finishAlu s r0 c v result).freeIndex = s.freeIndex := rfl

/-! ### The end of a division -/

@[simp] theorem finishDivide_x (s : State) (r0 r1 : Reg) (q r : Word) : (finishDivide s r0 r1 q r).x = (s.x.set r1 r).set r0 q := rfl
@[simp] theorem finishDivide_ip (s : State) (r0 r1 : Reg) (q r : Word) : (finishDivide s r0 r1 q r).ip = s.ip := rfl
@[simp] theorem finishDivide_p (s : State) (r0 r1 : Reg) (q r : Word) : (finishDivide s r0 r1 q r).p = s.p.set .eflags (aluFlags s.p.eflags false false q) := rfl
@[simp] theorem finishDivide_mem (s : State) (r0 r1 : Reg) (q r : Word) : (finishDivide s r0 r1 q r).mem = s.mem := rfl
@[simp] theorem finishDivide_handlingInterrupt (s : State) (r0 r1 : Reg) (q r : Word) : (finishDivide s r0 r1 q r).handlingInterrupt = s.handlingInterrupt := rfl
@[simp] theorem finishDivide_intSet (s : State) (r0 r1 : Reg) (q r : Word) : (finishDivide s r0 r1 q r).intSet = s.intSet := rfl
@[simp] theorem finishDivide_intCode (s : State) (r0 r1 : Reg) (q r : Word) : (finishDivide s r0 r1 q r).intCode = s.intCode := rfl
@[simp] theorem finishDivide_halted (s : State) (r0 r1 : Reg) (q r : Word) : (finishDivide s r0 r1 q r).halted = s.halted := rfl
@[simp] theorem finishDivide_lastInt (s : State) (r0 r1 : Reg) (q r : Word) : (finishDivide s r0 r1 q r).lastInt = s.lastInt := rfl
@[simp] theorem finishDivide_freeIndex (s : State) (r0 r1 : Reg) (q r : Word) : (finishDivide s r0 r1 q r).freeIndex = s.freeIndex := rfl

/-! ### What the double fault defines (60_exceptions.md R240) -/

@[simp] theorem doubleFault_halted (s : State) (j : Interrupt) : (doubleFault s j).halted = true := rfl
@[simp] theorem doubleFault_lastInt (s : State) (j : Interrupt) : (doubleFault s j).lastInt = j := rfl

end Sys2Proof.Machine
end

