-- ==== Sys2Proof/Laws/Operands.lean ====
section
/-! SUPPORT. Reading a register after writing one, in both register files (10_state.md R21, R26). -/

namespace Sys2Proof.Machine

/-! ### General registers -/

@[simp] theorem Regs.get_z (r : Regs) : r.get .z = 0#64 := rfl

@[simp] theorem Regs.set_z (r : Regs) (v : Word) : r.set .z v = r := rfl

/-- Reading after a write: the written value at the register written, unless it is `Z`. -/
theorem Regs.get_set (r : Regs) (n m : Reg) (v : Word) :
    (r.set n v).get m = if m = n then (if n = .z then 0#64 else v) else r.get m := by
  cases n <;> cases m <;> rfl

theorem Regs.get_set_self (r : Regs) {n : Reg} (v : Word) (h : n ≠ .z) : (r.set n v).get n = v := by
  simp [Regs.get_set, h]

theorem Regs.get_set_ne (r : Regs) {n m : Reg} (v : Word) (h : m ≠ n) : (r.set n v).get m = r.get m := by
  simp [Regs.get_set, h]

/-- Two register files that read the same everywhere are the same. -/
theorem Regs.ext_get {r q : Regs} (h : ∀ n, r.get n = q.get n) : r = q := by
  obtain ⟨⟩ := r
  obtain ⟨⟩ := q
  simp only [Regs.mk.injEq]
  exact ⟨h .a, h .b, h .c, h .d, h .e, h .f, h .g, h .h, h .i, h .j, h .k, h .x, h .y, h .sp, h .bp⟩

theorem Regs.get_ofFn (v : Reg → Word) {n : Reg} (h : n ≠ .z) : (Regs.ofFn v).get n = v n := by
  cases n <;> first | rfl | exact absurd rfl h

/-- The stack pointer's own field is register 13. -/
@[simp] theorem Regs.get_sp (r : Regs) : r.get .sp = r.sp := rfl

@[simp] theorem Regs.with_sp (r : Regs) (v : Word) : { r with sp := v } = r.set .sp v := rfl

/-! ### Protected registers -/

/-- Reading after a write of a protected register; no index is hard-wired. -/
theorem PRegs.get_set (r : PRegs) (n m : PReg) (v : Word) :
    (r.set n v).get m = if m = n then v else r.get m := by
  cases n <;> cases m <;> rfl

theorem PRegs.get_set_self (r : PRegs) (n : PReg) (v : Word) : (r.set n v).get n = v := by
  simp [PRegs.get_set]

theorem PRegs.get_set_ne (r : PRegs) {n m : PReg} (v : Word) (h : m ≠ n) : (r.set n v).get m = r.get m := by
  simp [PRegs.get_set, h]

/-- Two protected files that read the same everywhere are the same. -/
theorem PRegs.ext_get {r q : PRegs} (h : ∀ n, r.get n = q.get n) : r = q := by
  obtain ⟨⟩ := r
  obtain ⟨⟩ := q
  simp only [PRegs.mk.injEq]
  exact ⟨h .eflags, h .usp, h .psp, h .ijt, h .rpt, h .p5, h .p6, h .p7, h .p8, h .p9, h .p10, h .p11, h .p12, h .p13,
    h .p14, h .p15⟩

theorem PRegs.get_ofFn (v : PReg → Word) (n : PReg) : (PRegs.ofFn v).get n = v n := by
  cases n <;> rfl

@[simp] theorem PRegs.get_eflags (r : PRegs) : r.get .eflags = r.eflags := rfl
@[simp] theorem PRegs.get_usp (r : PRegs) : r.get .usp = r.usp := rfl
@[simp] theorem PRegs.get_psp (r : PRegs) : r.get .psp = r.psp := rfl
@[simp] theorem PRegs.get_ijt (r : PRegs) : r.get .ijt = r.ijt := rfl
@[simp] theorem PRegs.get_rpt (r : PRegs) : r.get .rpt = r.rpt := rfl

/-! ### Registers of a state -/

@[simp] theorem State.reg_z (s : State) : s.reg .z = 0#64 := rfl

@[simp] theorem State.setReg_z (s : State) (v : Word) : s.setReg .z v = s := rfl

theorem State.reg_setReg (s : State) (n m : Reg) (v : Word) :
    (s.setReg n v).reg m = if m = n then (if n = .z then 0#64 else v) else s.reg m :=
  Regs.get_set s.x n m v

theorem State.preg_setPReg (s : State) (n m : PReg) (v : Word) :
    (s.setPReg n v).preg m = if m = n then v else s.preg m :=
  PRegs.get_set s.p n m v

@[simp] theorem State.reg_setPReg (s : State) (n : PReg) (m : Reg) (v : Word) : (s.setPReg n v).reg m = s.reg m := rfl

@[simp] theorem State.preg_setReg (s : State) (n : Reg) (m : PReg) (v : Word) : (s.setReg n v).preg m = s.preg m := rfl

@[simp] theorem State.reg_commit (s : State) (n : Option Word) (m : Reg) : (commit s n).reg m = s.reg m := rfl

@[simp] theorem State.preg_commit (s : State) (n : Option Word) (m : PReg) : (commit s n).preg m = s.preg m := rfl

/-- `SP` by name and by field. -/
theorem State.reg_sp (s : State) : s.reg .sp = s.x.sp := rfl

/-- `EFLAGS` by name and by field. -/
theorem State.preg_eflags (s : State) : s.preg .eflags = s.p.eflags := rfl

end Sys2Proof.Machine
end

