-- ==== Sys2Proof/Laws/Access.lean ====
section
/-! SUPPORT. What the shared operations can answer: one inversion lemma for each, which proofs cite instead of unfolding it. -/

namespace Sys2Proof.Machine

/-! ### Sequencing -/

@[simp] theorem Access.andThen_ok {α β : Type} (a : α) (f : α → Access β) : (Access.ok a).andThen f = f a := rfl
@[simp] theorem Access.andThen_raise {α β : Type} (j : Interrupt) (f : α → Access β) :
    (Access.raise j : Access α).andThen f = .raise j := rfl
@[simp] theorem Access.andThen_bounds {α β : Type} (f : α → Access β) : (Access.bounds : Access α).andThen f = .bounds := rfl

theorem Access.andThen_eq_ok {α β : Type} {m : Access α} {f : α → Access β} {b : β} :
    m.andThen f = .ok b ↔ ∃ a, m = .ok a ∧ f a = .ok b := by
  cases m <;> simp

theorem Access.andThen_eq_raise {α β : Type} {m : Access α} {f : α → Access β} {j : Interrupt} :
    m.andThen f = .raise j ↔ m = .raise j ∨ ∃ a, m = .ok a ∧ f a = .raise j := by
  cases m <;> simp

theorem Access.andThen_eq_bounds {α β : Type} {m : Access α} {f : α → Access β} :
    m.andThen f = .bounds ↔ m = .bounds ∨ ∃ a, m = .ok a ∧ f a = .bounds := by
  cases m <;> simp

/-! ### Physical accesses -/

theorem physRead_eq_ok {s : State} {pa : Addr} {n : Nat} {v : Word} :
    physRead s pa n = .ok v ↔ pa.toNat + n ≤ s.mem.size ∧ s.mem.readLE pa.toNat n = v := by
  unfold physRead
  split <;> simp <;> omega

theorem physRead_eq_bounds {s : State} {pa : Addr} {n : Nat} :
    physRead s pa n = .bounds ↔ s.mem.size < pa.toNat + n := by
  unfold physRead
  split <;> simp_all

@[simp] theorem physRead_ne_raise {s : State} {pa : Addr} {n : Nat} {j : Interrupt} : physRead s pa n ≠ .raise j := by
  unfold physRead
  split <;> simp

theorem physWrite_eq_ok {s t : State} {pa : Addr} {n : Nat} {v : Word} :
    physWrite s pa n v = .ok t ↔ pa.toNat + n ≤ s.mem.size ∧ { s with mem := s.mem.writeLE pa.toNat v n } = t := by
  unfold physWrite
  split <;> simp <;> omega

theorem physWrite_eq_bounds {s : State} {pa : Addr} {n : Nat} {v : Word} :
    physWrite s pa n v = .bounds ↔ s.mem.size < pa.toNat + n := by
  unfold physWrite
  split <;> simp_all

@[simp] theorem physWrite_ne_raise {s : State} {pa : Addr} {n : Nat} {v : Word} {j : Interrupt} :
    physWrite s pa n v ≠ .raise j := by
  unfold physWrite
  split <;> simp

/-! ### Operations that change memory alone -/

/-- `t` is `s` but for its memory, whose size is the same and whose canonical form is kept. -/
structure MemoryOnly (s t : State) : Prop where
  /-- Nothing but memory differs. -/
  same : { s with mem := t.mem } = t
  /-- MEM_SIZE never changes. -/
  size : t.mem.size = s.mem.size
  /-- The canonical form is kept. -/
  wf : s.mem.wf = true → t.mem.wf = true

theorem MemoryOnly.refl (s : State) : MemoryOnly s s := ⟨rfl, rfl, id⟩

theorem MemoryOnly.trans {s t u : State} (h1 : MemoryOnly s t) (h2 : MemoryOnly t u) : MemoryOnly s u :=
  ⟨by rw [← h2.same, ← h1.same], h2.size.trans h1.size, fun h => h2.wf (h1.wf h)⟩

section
variable {s t : State} (h : MemoryOnly s t)
include h

theorem MemoryOnly.x : t.x = s.x := by rw [← h.same]
theorem MemoryOnly.p : t.p = s.p := by rw [← h.same]
theorem MemoryOnly.ip : t.ip = s.ip := by rw [← h.same]
theorem MemoryOnly.handlingInterrupt : t.handlingInterrupt = s.handlingInterrupt := by rw [← h.same]
theorem MemoryOnly.intSet : t.intSet = s.intSet := by rw [← h.same]
theorem MemoryOnly.intCode : t.intCode = s.intCode := by rw [← h.same]
theorem MemoryOnly.halted : t.halted = s.halted := by rw [← h.same]
theorem MemoryOnly.lastInt : t.lastInt = s.lastInt := by rw [← h.same]
theorem MemoryOnly.freeIndex : t.freeIndex = s.freeIndex := by rw [← h.same]
theorem MemoryOnly.reg (r : Reg) : t.reg r = s.reg r := by rw [State.reg, h.x, State.reg]
theorem MemoryOnly.preg (r : PReg) : t.preg r = s.preg r := by rw [State.preg, h.p, State.preg]
theorem MemoryOnly.regPlus (r : Reg) (off : Imm) : t.regPlus r off = s.regPlus r off := by
  rw [State.regPlus, h.reg, State.regPlus]
theorem MemoryOnly.flagPE : t.flagPE = s.flagPE := by rw [State.flagPE, h.p, State.flagPE]
theorem MemoryOnly.flagPG : t.flagPG = s.flagPG := by rw [State.flagPG, h.p, State.flagPG]

end

theorem physWrite_memoryOnly {s t : State} {pa : Addr} {n : Nat} {v : Word} (h : physWrite s pa n v = .ok t) :
    MemoryOnly s t := by
  obtain ⟨hb, rfl⟩ := physWrite_eq_ok.mp h
  exact ⟨rfl, Memory.writeLE_size .., fun hw => Memory.wf_writeLE hw hb⟩

/-! ### The address translator -/

theorem readEntry_eq_ok {s : State} {pa : Addr} {e : Entry} :
    readEntry s pa = .ok e ↔ pa.toNat + 4 ≤ s.mem.size ∧ (s.mem.readLE pa.toNat 4).setWidth 32 = e := by
  simp only [readEntry, Access.andThen_eq_ok, physRead_eq_ok, Access.ok.injEq]
  constructor
  · rintro ⟨_, ⟨h, rfl⟩, h'⟩
    exact ⟨h, h'⟩
  · rintro ⟨h, h'⟩
    exact ⟨_, ⟨h, rfl⟩, h'⟩

theorem readEntry_eq_bounds {s : State} {pa : Addr} : readEntry s pa = .bounds ↔ s.mem.size < pa.toNat + 4 := by
  simp [readEntry, Access.andThen_eq_bounds, physRead_eq_bounds]

@[simp] theorem readEntry_ne_raise {s : State} {pa : Addr} {j : Interrupt} : readEntry s pa ≠ .raise j := by
  simp [readEntry, Access.andThen_eq_raise]

theorem writeEntry_eq_ok {s t : State} {pa : Addr} {e : Entry} :
    writeEntry s pa e = .ok t ↔
      pa.toNat + 4 ≤ s.mem.size ∧ { s with mem := s.mem.writeLE pa.toNat (e.setWidth 64) 4 } = t :=
  physWrite_eq_ok

theorem checkEntry_eq_ok {s : State} {e : Entry} {la : Addr} {write jump : Bool} {u : Unit} :
    checkEntry s e la write jump = .ok u ↔ entryFailure s.flagPE e write jump = none := by
  unfold checkEntry
  split <;> simp_all

theorem checkEntry_eq_raise {s : State} {e : Entry} {la : Addr} {write jump : Bool} {j : Interrupt} :
    checkEntry s e la write jump = .raise j ↔
      ∃ mask, entryFailure s.flagPE e write jump = some mask ∧ pageFault mask la = j := by
  unfold checkEntry
  split <;> simp_all

/-- What a successful walk does (20_memory.md R74): the two entries pass, and memory alone changes. -/
theorem walk_eq_ok {s t : State} {la pa : Addr} {write jump : Bool} :
    walk s la write jump = .ok (pa, t) ↔
      ∃ root page, readEntry s (rootEntryAddr s la) = .ok root ∧ entryFailure s.flagPE root write jump = none ∧
        readEntry s (pageEntryAddr root la) = .ok page ∧ entryFailure s.flagPE page write jump = none ∧
        pa = entryFrame page + pageOffset la ∧
        t = { s with
              mem := (s.mem.writeLE (rootEntryAddr s la).toNat ((markAccessed root).setWidth 64) 4).writeLE
                (pageEntryAddr root la).toNat ((markModified (markAccessed page) write).setWidth 64) 4 } := by
  simp only [walk, Access.andThen_eq_ok, checkEntry_eq_ok, exists_and_left, writeEntry_eq_ok, Access.ok.injEq, Prod.mk.injEq]
  constructor
  · rintro ⟨root, hr, h1, -, page, hp, h2, -, _, ⟨-, rfl⟩, _, ⟨-, rfl⟩, rfl, rfl⟩
    exact ⟨root, hr, h1, page, hp, h2, rfl, rfl⟩
  · rintro ⟨root, hr, h1, page, hp, h2, rfl, rfl⟩
    refine ⟨root, hr, h1, (), page, hp, h2, (), _, ⟨(readEntry_eq_ok.mp hr).1, rfl⟩, _, ⟨?_, rfl⟩, rfl, rfl⟩
    simpa using (readEntry_eq_ok.mp hp).1

theorem checkEntry_ne_bounds {s : State} {e : Entry} {la : Addr} {write jump : Bool} :
    checkEntry s e la write jump ≠ .bounds := by
  unfold checkEntry
  split <;> simp

/-- A walk leaves the array at one of its two entry reads, never at a write-back (20_memory.md R74). -/
theorem walk_eq_bounds {s : State} {la : Addr} {write jump : Bool} :
    walk s la write jump = .bounds ↔ readEntry s (rootEntryAddr s la) = .bounds ∨
      ∃ root, readEntry s (rootEntryAddr s la) = .ok root ∧ entryFailure s.flagPE root write jump = none ∧
        readEntry s (pageEntryAddr root la) = .bounds := by
  simp only [walk, Access.andThen_eq_bounds, checkEntry_ne_bounds, checkEntry_eq_ok, false_or, writeEntry, physWrite_eq_bounds,
    physWrite_eq_ok, readEntry_eq_bounds, readEntry_eq_ok, reduceCtorEq, and_false, exists_false, or_false, exists_and_left]
  constructor
  · rintro (h | ⟨root, hr, hp, -, h | ⟨page, ⟨hb, -⟩, -, -, h | ⟨_, ⟨-, rfl⟩, h⟩⟩⟩)
    · exact .inl h
    · exact .inr ⟨root, hr, hp, h⟩
    · have := hr.1
      omega
    · simp only [Memory.writeLE_size] at h
      omega
  · rintro (h | ⟨root, hr, hp, h⟩)
    · exact .inl h
    · exact .inr ⟨root, hr, hp, (), .inl h⟩

/-- The mask a walk reports is one of an entry it checked (20_memory.md R75). -/
theorem walk_raise_mask {s : State} {la : Addr} {write jump : Bool} {j : Interrupt} (h : walk s la write jump = .raise j) :
    ∃ e mask, entryFailure s.flagPE e write jump = some mask ∧ j = pageFault mask la := by
  simp only [walk, Access.andThen_eq_raise, checkEntry_eq_raise, readEntry_ne_raise, false_or, writeEntry, physWrite_ne_raise,
    reduceCtorEq, and_false, exists_false, or_false] at h
  obtain ⟨e, _, ⟨mask, he, rfl⟩ | ⟨_, _, e', _, mask, he, rfl⟩⟩ := h
  exacts [⟨e, mask, he, rfl⟩, ⟨e', mask, he, rfl⟩]

/-- The interrupt of a walk is a PAGE_FAULT (20_memory.md R75, R76). -/
theorem walk_eq_raise {s : State} {la : Addr} {write jump : Bool} {j : Interrupt} (h : walk s la write jump = .raise j) :
    ∃ mask, j = pageFault mask la :=
  let ⟨_, mask, _, e⟩ := walk_raise_mask h
  ⟨mask, e⟩

theorem walk_memoryOnly {s t : State} {la pa : Addr} {write jump : Bool} (h : walk s la write jump = .ok (pa, t)) :
    MemoryOnly s t := by
  obtain ⟨root, page, hr, -, hp, -, -, rfl⟩ := walk_eq_ok.mp h
  refine ⟨rfl, by simp, fun hw => ?_⟩
  exact Memory.wf_writeLE (Memory.wf_writeLE hw (readEntry_eq_ok.mp hr).1) (by simpa using (readEntry_eq_ok.mp hp).1)

theorem resolve_memoryOnly {s t : State} {la pa : Addr} {write jump : Bool} (h : resolve s la write jump = .ok (pa, t)) :
    MemoryOnly s t := by
  unfold resolve at h
  split at h
  · exact walk_memoryOnly h
  · simp only [Access.ok.injEq, Prod.mk.injEq] at h
    exact h.2 ▸ MemoryOnly.refl s

theorem resolve_eq_raise {s : State} {la : Addr} {write jump : Bool} {j : Interrupt}
    (h : resolve s la write jump = .raise j) : ∃ mask, j = pageFault mask la := by
  unfold resolve at h
  split at h
  · exact walk_eq_raise h
  · simp at h

/-! ### Logical accesses and the fetch -/

theorem memRead_eq_ok {s t : State} {addr v : Word} {n : Nat} :
    memRead s addr n = .ok (v, t) ↔
      ∃ pa, resolve s (addrOf addr) false false = .ok (pa, t) ∧ pa.toNat + n ≤ t.mem.size ∧ t.mem.readLE pa.toNat n = v := by
  simp only [memRead, Access.andThen_eq_ok, physRead_eq_ok, Access.ok.injEq, Prod.mk.injEq, Prod.exists]
  constructor
  · rintro ⟨pa, m, hr, _, ⟨hb, rfl⟩, rfl, rfl⟩
    exact ⟨pa, hr, hb, rfl⟩
  · rintro ⟨pa, hr, hb, rfl⟩
    exact ⟨pa, t, hr, _, ⟨hb, rfl⟩, rfl, rfl⟩

theorem memRead_eq_raise {s : State} {addr : Word} {n : Nat} {j : Interrupt} :
    memRead s addr n = .raise j ↔ resolve s (addrOf addr) false false = .raise j := by
  simp [memRead, Access.andThen_eq_raise]

theorem memRead_eq_bounds {s : State} {addr : Word} {n : Nat} :
    memRead s addr n = .bounds ↔ resolve s (addrOf addr) false false = .bounds ∨
      ∃ pa t, resolve s (addrOf addr) false false = .ok (pa, t) ∧ t.mem.size < pa.toNat + n := by
  simp [memRead, Access.andThen_eq_bounds, physRead_eq_bounds]

theorem memRead_memoryOnly {s t : State} {addr v : Word} {n : Nat} (h : memRead s addr n = .ok (v, t)) : MemoryOnly s t := by
  obtain ⟨pa, hr, -, -⟩ := memRead_eq_ok.mp h
  exact resolve_memoryOnly hr

theorem memWrite_eq_ok {s t : State} {addr v : Word} {n : Nat} :
    memWrite s addr n v = .ok t ↔
      ∃ pa m, resolve s (addrOf addr) true false = .ok (pa, m) ∧ pa.toNat + n ≤ m.mem.size ∧
        { m with mem := m.mem.writeLE pa.toNat v n } = t := by
  simp [memWrite, Access.andThen_eq_ok, physWrite_eq_ok]

theorem memWrite_eq_raise {s : State} {addr v : Word} {n : Nat} {j : Interrupt} :
    memWrite s addr n v = .raise j ↔ resolve s (addrOf addr) true false = .raise j := by
  simp [memWrite, Access.andThen_eq_raise]

theorem memWrite_eq_bounds {s : State} {addr v : Word} {n : Nat} :
    memWrite s addr n v = .bounds ↔ resolve s (addrOf addr) true false = .bounds ∨
      ∃ pa t, resolve s (addrOf addr) true false = .ok (pa, t) ∧ t.mem.size < pa.toNat + n := by
  simp [memWrite, Access.andThen_eq_bounds, physWrite_eq_bounds]

theorem memWrite_memoryOnly {s t : State} {addr v : Word} {n : Nat} (h : memWrite s addr n v = .ok t) : MemoryOnly s t := by
  simp only [memWrite, Access.andThen_eq_ok, Prod.exists] at h
  obtain ⟨pa, m, hr, hw⟩ := h
  exact (resolve_memoryOnly hr).trans (physWrite_memoryOnly hw)

theorem fetch_eq_ok {s t : State} {w : InstrWord} :
    fetch s = .ok (w, t) ↔
      ∃ pa, resolve s (addrOf s.ip) false true = .ok (pa, t) ∧ pa.toNat + 4 ≤ t.mem.size ∧
        (t.mem.readLE pa.toNat 4).setWidth 32 = w := by
  simp only [fetch, Access.andThen_eq_ok, physRead_eq_ok, Access.ok.injEq, Prod.mk.injEq, Prod.exists]
  constructor
  · rintro ⟨pa, m, hr, _, ⟨hb, rfl⟩, rfl, rfl⟩
    exact ⟨pa, hr, hb, rfl⟩
  · rintro ⟨pa, hr, hb, rfl⟩
    exact ⟨pa, t, hr, _, ⟨hb, rfl⟩, rfl, rfl⟩

theorem fetch_eq_raise {s : State} {j : Interrupt} :
    fetch s = .raise j ↔ resolve s (addrOf s.ip) false true = .raise j := by
  simp [fetch, Access.andThen_eq_raise]

theorem fetch_eq_bounds {s : State} :
    fetch s = .bounds ↔ resolve s (addrOf s.ip) false true = .bounds ∨
      ∃ pa t, resolve s (addrOf s.ip) false true = .ok (pa, t) ∧ t.mem.size < pa.toNat + 4 := by
  simp [fetch, Access.andThen_eq_bounds, physRead_eq_bounds]

theorem fetch_memoryOnly {s t : State} {w : InstrWord} (h : fetch s = .ok (w, t)) : MemoryOnly s t := by
  obtain ⟨pa, hr, -, -⟩ := fetch_eq_ok.mp h
  exact resolve_memoryOnly hr

end Sys2Proof.Machine
end

