-- ==== Sys2Proof/Laws/Flags.lean ====
section
/-! SUPPORT. EFLAGS bit by bit: what the ALU, entry and return do to each (44_alu.md R171, 60_exceptions.md R231,
45_system.md R203). -/

namespace Sys2Proof.Machine

theorem zeroNegative_bit (k : Nat) : (~~~(zeroMask ||| negativeMask)).getLsbD k = (decide (k < 64) && !(k == 2) && !(k == 3)) := by
  by_cases h : k < 64
  · interval_cases k <;> decide
  · simp [h]

theorem carryMask_bit (k : Nat) : carryMask.getLsbD k = (k == 0) := by
  by_cases h : k < 64
  · interval_cases k <;> decide
  · have h0 : ¬k = 0 := by omega
    simp [h0, BitVec.getLsbD_of_ge _ _ (Nat.le_of_not_lt h)]

theorem overflowMask_bit (k : Nat) : overflowMask.getLsbD k = (k == 1) := by
  by_cases h : k < 64
  · interval_cases k <;> decide
  · have h0 : ¬k = 1 := by omega
    simp [h0, BitVec.getLsbD_of_ge _ _ (Nat.le_of_not_lt h)]

theorem zeroMask_bit (k : Nat) : zeroMask.getLsbD k = (k == 2) := by
  by_cases h : k < 64
  · interval_cases k <;> decide
  · have h0 : ¬k = 2 := by omega
    simp [h0, BitVec.getLsbD_of_ge _ _ (Nat.le_of_not_lt h)]

theorem negativeMask_bit (k : Nat) : negativeMask.getLsbD k = (k == 3) := by
  by_cases h : k < 64
  · interval_cases k <;> decide
  · have h0 : ¬k = 3 := by omega
    simp [h0, BitVec.getLsbD_of_ge _ _ (Nat.le_of_not_lt h)]

theorem interruptEnableMask_bit (k : Nat) : interruptEnableMask.getLsbD k = (k == 61) := by
  by_cases h : k < 64
  · interval_cases k <;> decide
  · have h0 : ¬k = 61 := by omega
    simp [h0, BitVec.getLsbD_of_ge _ _ (Nat.le_of_not_lt h)]

theorem protectedEnableMask_bit (k : Nat) : protectedEnableMask.getLsbD k = (k == 63) := by
  by_cases h : k < 64
  · interval_cases k <;> decide
  · have h0 : ¬k = 63 := by omega
    simp [h0, BitVec.getLsbD_of_ge _ _ (Nat.le_of_not_lt h)]

/-- Every bit of EFLAGS after an ALU instruction (44_alu.md R171). -/
theorem aluFlags_bit (f : Word) (c v : Bool) (result : Word) (k : Nat) :
    (aluFlags f c v result).getLsbD k =
      if k = 0 then f.getLsbD 0 || c
      else if k = 1 then f.getLsbD 1 || v
      else if k = 2 then decide (result = 0#64)
      else if k = 3 then result.msb
      else f.getLsbD k := by
  have hk : (f.getLsbD k && decide (k < 64)) = f.getLsbD k := by
    by_cases h : k < 64
    · simp [h]
    · simp [BitVec.getLsbD_of_ge f k (by omega)]
  have step1 : (f &&& ~~~(zeroMask ||| negativeMask)).getLsbD k = (f.getLsbD k && !(k == 2) && !(k == 3)) := by
    rw [BitVec.getLsbD_and, zeroNegative_bit, ← Bool.and_assoc, ← Bool.and_assoc, hk]
  unfold aluFlags
  simp only [apply_ite (fun w : Word => w.getLsbD k), BitVec.getLsbD_or, step1, carryMask_bit, overflowMask_bit,
    zeroMask_bit, negativeMask_bit]
  rcases Nat.lt_or_ge k 4 with h | h
  · rcases (by omega : k = 0 ∨ k = 1 ∨ k = 2 ∨ k = 3) with rfl | rfl | rfl | rfl <;>
      by_cases hr : result = 0#64 <;> cases hm : result.msb <;> cases c <;> cases v <;> simp [hr]
  · have e : ∀ j, j < 4 → (k == j) = false := fun j hj => by simp; omega
    have e' : ∀ j, j < 4 → ¬k = j := fun j hj => by omega
    simp [e, e']

theorem protectedInterrupt_bit (k : Nat) :
    (~~~(protectedEnableMask ||| interruptEnableMask)).getLsbD k = (decide (k < 64) && !(k == 61) && !(k == 63)) := by
  rw [BitVec.getLsbD_not, BitVec.getLsbD_or, interruptEnableMask_bit, protectedEnableMask_bit]
  cases decide (k < 64) <;> cases k == 61 <;> cases k == 63 <;> rfl

/-- Every bit of EFLAGS in a handler: PE and IE clear, the rest kept. -/
theorem handlerFlags_bit (f : Word) (k : Nat) :
    (handlerFlags f).getLsbD k = (f.getLsbD k && !(k == 61) && !(k == 63)) := by
  rw [handlerFlags, BitVec.getLsbD_and, protectedInterrupt_bit]
  by_cases h : k < 64
  · simp [h, Bool.and_assoc]
  · simp [BitVec.getLsbD_of_ge f k (by omega)]

/-- Every bit of EFLAGS after a return: PE and IE set, the rest the popped ones. -/
theorem returnFlags_bit (f : Word) (k : Nat) :
    (returnFlags f).getLsbD k = (f.getLsbD k || k == 61 || k == 63) := by
  rw [returnFlags, BitVec.getLsbD_or, BitVec.getLsbD_or, interruptEnableMask_bit, protectedEnableMask_bit]
  cases f.getLsbD k <;> cases k == 61 <;> cases k == 63 <;> rfl

end Sys2Proof.Machine
end

