-- ==== Sys2Proof/Laws/Interrupts.lean ====
section
/-! SUPPORT. What taking an interrupt, returning from one and the frame of an instruction's tick can answer
(60_exceptions.md R231, 45_system.md R203, 30_encoding.md R113). -/

namespace Sys2Proof.Machine

/-! ### Interrupt entry -/

/-- Entry succeeds exactly when both pushes and the vector read do (60_exceptions.md R231). -/
theorem enterHandler_eq_ok {s u : State} {code : BitVec 8} :
    enterHandler s code = .ok u ↔
      ∃ s1 s2 v m, physWrite (enterRegisters s) (addrOf (s.p.psp - 8#64)) 8 (savedIP s code) = .ok s1 ∧
        physWrite s1 (addrOf (s.p.psp - 16#64)) 8 s.p.eflags = .ok s2 ∧
        memRead s2 (vectorAddr s code) 4 = .ok (v, m) ∧ commit m (some v) = u := by
  simp only [enterHandler, Access.andThen_eq_ok, Prod.exists, Access.ok.injEq]
  constructor
  · rintro ⟨s1, h1, s2, h2, v, m, h3, h4⟩
    exact ⟨s1, s2, v, m, h1, h2, h3, h4⟩
  · rintro ⟨s1, s2, v, m, h1, h2, h3, h4⟩
    exact ⟨s1, h1, s2, h2, v, m, h3, h4⟩

/-- Only the vector read can raise an interrupt inside entry, and it raises PAGE_FAULT (60_exceptions.md R234). -/
theorem enterHandler_eq_raise {s : State} {code : BitVec 8} {j : Interrupt} (h : enterHandler s code = .raise j) :
    ∃ mask la, j = pageFault mask la := by
  simp only [enterHandler, Access.andThen_eq_raise, physWrite_ne_raise, false_or, memRead_eq_raise, reduceCtorEq, and_false,
    exists_false, or_false] at h
  obtain ⟨_, _, _, _, h⟩ := h
  obtain ⟨mask, rfl⟩ := resolve_eq_raise h
  exact ⟨mask, _, rfl⟩

/-- What entry leaves: memory apart, the registers of `enterRegisters` and the vector in IP (60_exceptions.md R233). -/
theorem enterHandler_state {s u : State} {code : BitVec 8} (h : enterHandler s code = .ok u) :
    ∃ v, u = { enterRegisters s with mem := u.mem, ip := v } ∧ u.mem.size = s.mem.size ∧
      (s.mem.wf = true → u.mem.wf = true) := by
  obtain ⟨s1, s2, v, m, h1, h2, h3, rfl⟩ := enterHandler_eq_ok.mp h
  have hm := ((physWrite_memoryOnly h1).trans (physWrite_memoryOnly h2)).trans (memRead_memoryOnly h3)
  refine ⟨v, ?_, hm.size, hm.wf⟩
  show commit m (some v) = _
  rw [commit, Option.getD_some, ← hm.same]

/-- Everything taking an interrupt can do (60_exceptions.md R231, R234, R240): the whole tick undone, a double fault with this
interrupt or with a PAGE_FAULT of the vector read, or the handler entered. -/
theorem takeInterruptFrom_cases (start base : State) (j : Interrupt) :
    takeInterruptFrom start base j = dropTick start ∨
    (∃ k, takeInterruptFrom start base j = doubleFault base k ∧ (k = j ∨ ∃ mask la, k = pageFault mask la)) ∨
    (base.handlingInterrupt = false ∧ ∃ u, enterHandler { base with lastInt := j } j.code = .ok u ∧
      takeInterruptFrom start base j = u) := by
  unfold takeInterruptFrom
  split
  · exact .inr (.inl ⟨j, rfl, .inl rfl⟩)
  · rename_i hh
    split
    · rename_i u hu
      exact .inr (.inr ⟨by simpa using hh, u, hu, rfl⟩)
    · rename_i k hk
      exact .inr (.inl ⟨k, rfl, .inr (enterHandler_eq_raise hk)⟩)
    · exact .inl rfl

/-- An interrupt in a handler is a double fault (60_exceptions.md R240). -/
theorem takeInterruptFrom_handling {start base : State} {j : Interrupt} (h : base.handlingInterrupt = true) :
    takeInterruptFrom start base j = doubleFault base j := by
  simp [takeInterruptFrom, h]

/-- Outside a handler, entry decides (60_exceptions.md R231, R234). -/
theorem takeInterruptFrom_ok {start base u : State} {j : Interrupt} (h : base.handlingInterrupt = false)
    (hu : enterHandler { base with lastInt := j } j.code = .ok u) : takeInterruptFrom start base j = u := by
  rw [takeInterruptFrom, if_neg (by simp [h]), hu]

theorem takeInterruptFrom_raise {start base : State} {j k : Interrupt} (h : base.handlingInterrupt = false)
    (hu : enterHandler { base with lastInt := j } j.code = .raise k) :
    takeInterruptFrom start base j = doubleFault base k := by
  rw [takeInterruptFrom, if_neg (by simp [h]), hu]

theorem takeInterruptFrom_bounds {start base : State} {j : Interrupt} (h : base.handlingInterrupt = false)
    (hu : enterHandler { base with lastInt := j } j.code = .bounds) :
    takeInterruptFrom start base j = dropTick start := by
  rw [takeInterruptFrom, if_neg (by simp [h]), hu]

/-! ### Return -/

/-- What the return does when both pops are in bounds (45_system.md R203). -/
theorem returnFromInterrupt_eq_ok {s u : State} {next : Option Word} :
    returnFromInterrupt s = .ok (u, next) ↔
      ∃ flags ip, physRead s (addrOf s.x.sp) 8 = .ok flags ∧ physRead s (addrOf (s.x.sp + 8#64)) 8 = .ok ip ∧
        next = some ip ∧
        u = { s with
              handlingInterrupt := false
              p := { s.p with psp := s.x.sp + 16#64, eflags := returnFlags flags }
              x := { s.x with sp := s.p.usp } } := by
  simp only [returnFromInterrupt, Access.andThen_eq_ok, Access.ok.injEq, Prod.mk.injEq]
  constructor
  · rintro ⟨flags, h1, ip, h2, rfl, rfl⟩
    exact ⟨flags, ip, h1, h2, rfl, rfl⟩
  · rintro ⟨flags, ip, h1, h2, rfl, rfl⟩
    exact ⟨flags, h1, ip, h2, rfl, rfl⟩

@[simp] theorem returnFromInterrupt_ne_raise {s : State} {j : Interrupt} : returnFromInterrupt s ≠ .raise j := by
  simp [returnFromInterrupt, Access.andThen_eq_raise]

/-! ### The tick of an instruction -/

theorem tickState_ok {s t u : State} {w : InstrWord} {b : Body} {next : Option Word} (hf : fetch s = .ok (w, t))
    (hb : b t = .ok (u, next)) : tickState s b = commit u next := by
  simp [tickState, hf, hb]

theorem tickState_raise {s t : State} {w : InstrWord} {b : Body} {j : Interrupt} (hf : fetch s = .ok (w, t))
    (hb : b t = .raise j) : tickState s b = takeInterrupt s j := by
  simp [tickState, hf, hb]

theorem tickState_bounds {s t : State} {w : InstrWord} {b : Body} (hf : fetch s = .ok (w, t)) (hb : b t = .bounds) :
    tickState s b = dropTick s := by
  simp [tickState, hf, hb]

theorem tickState_fetch_raise {s : State} {b : Body} {j : Interrupt} (hf : fetch s = .raise j) :
    tickState s b = takeInterrupt s j := by
  simp [tickState, hf]

theorem tickState_fetch_bounds {s : State} {b : Body} (hf : fetch s = .bounds) : tickState s b = dropTick s := by
  simp [tickState, hf]

/-- Everything the tick of an instruction can do (30_encoding.md R113). -/
theorem tickState_cases (s : State) (b : Body) :
    (∃ w t u next, fetch s = .ok (w, t) ∧ b t = .ok (u, next) ∧ tickState s b = commit u next) ∨
    (∃ j, ((∃ w t, fetch s = .ok (w, t) ∧ b t = .raise j) ∨ fetch s = .raise j) ∧ tickState s b = takeInterrupt s j) ∨
    tickState s b = dropTick s := by
  cases hf : fetch s with
  | ok f =>
    obtain ⟨w, t⟩ := f
    cases hb : b t with
    | ok r => exact .inl ⟨w, t, r.1, r.2, rfl, hb, tickState_ok hf hb⟩
    | raise j => exact .inr (.inl ⟨j, .inl ⟨w, t, rfl, hb⟩, tickState_raise hf hb⟩)
    | bounds => exact .inr (.inr (tickState_bounds hf hb))
  | raise j => exact .inr (.inl ⟨j, .inr rfl, tickState_fetch_raise hf⟩)
  | bounds => exact .inr (.inr (tickState_fetch_bounds hf))

theorem runTick_eq (s : State) (b : Body) : runTick s b = .next (tickState s b) := rfl

end Sys2Proof.Machine
end

