-- ==== Sys2Proof/Laws/Bodies.lean ====
section
/-! SUPPORT. Every instruction's meaning is `runTick` of one body; what a body can answer, said once for all of them. -/

namespace Sys2Proof.Machine

/-- The body that the meaning of each instruction runs. -/
def bodyOf : Instr → Body
  | .mov r0 r1 off => movBody r0 r1 off
  | .gef r0 => gefBody r0
  | .lb r0 r1 off => loadBody 1 (sextFrom 8) r0 r1 off
  | .lbu r0 r1 off => loadBody 1 id r0 r1 off
  | .lh r0 r1 off => loadBody 2 (sextFrom 16) r0 r1 off
  | .lhu r0 r1 off => loadBody 2 id r0 r1 off
  | .lw r0 r1 off => loadBody 4 (sextFrom 32) r0 r1 off
  | .lwu r0 r1 off => loadBody 4 id r0 r1 off
  | .ld r0 r1 off => loadBody 8 id r0 r1 off
  | .sb r0 r1 off => storeBody 1 r0 r1 off
  | .sh r0 r1 off => storeBody 2 r0 r1 off
  | .sw r0 r1 off => storeBody 4 r0 r1 off
  | .sd r0 r1 off => storeBody 8 r0 r1 off
  | .push r0 off => pushBody r0 off
  | .pop r0 => popBody r0
  | .jmp r1 off => branchBody (fun _ => true) r1 off
  | .jlt r1 off => branchBody (fun t => t.flagN) r1 off
  | .jgt r1 off => branchBody (fun t => !t.flagZ && !t.flagN) r1 off
  | .jzr r1 off => branchBody (fun t => t.flagZ) r1 off
  | .jif r0 r1 off => branchBody (fun t => decide (t.reg r0 ≠ 0#64)) r1 off
  | .and r0 r1 off => aluBody (fun o1 o2 => o1 &&& o2) noFlag noFlag r0 r1 off
  | .or r0 r1 off => aluBody (fun o1 o2 => o1 ||| o2) noFlag noFlag r0 r1 off
  | .xor r0 r1 off => aluBody (fun o1 o2 => o1 ^^^ o2) noFlag noFlag r0 r1 off
  | .shl r0 r1 off => aluBody (fun o1 o2 => o1 <<< shiftAmount o2) noFlag noFlag r0 r1 off
  | .shr r0 r1 off => aluBody (fun o1 o2 => o1 >>> shiftAmount o2) noFlag noFlag r0 r1 off
  | .add r0 r1 off => aluBody (fun o1 o2 => o1 + o2) (fun o1 _ result => addCarry o1 result) addOverflow r0 r1 off
  | .sub r0 r1 off => aluBody (fun o1 o2 => o1 - o2) (fun o1 o2 _ => subBorrow o1 o2) subOverflow r0 r1 off
  | .mul r0 r1 off => aluBody mulLow noFlag noFlag r0 r1 off
  | .smul r0 r1 off => aluBody smulLow noFlag noFlag r0 r1 off
  | .div r0 r1 off => divBody r0 r1 off
  | .sdiv r0 r1 off => sdivBody r0 r1 off
  | .sshr r0 r1 off => aluBody (fun o1 o2 => o1.sshiftRight (shiftAmount o2)) noFlag noFlag r0 r1 off
  | .int r1 off => intBody r1 off
  | .pmov r0 r1 off => pmovBody r0 r1 off
  | .iret => iretBody

/-- `exec` is the tick of the instruction's body. -/
theorem exec_eq_runTick (op : Instr) (s : State) : exec op s = runTick s (bodyOf op) := by
  cases op <;> rfl

theorem exec_eq_next (op : Instr) (s : State) : exec op s = .next (tickState s (bodyOf op)) :=
  exec_eq_runTick op s

/-- An instruction that completes commits IP (30_encoding.md R113, R116). -/
theorem exec_of_ok {op : Instr} {s t u : State} {w : InstrWord} {next : Option Word} (hf : fetch s = .ok (w, t))
    (hb : bodyOf op t = .ok (u, next)) : exec op s = .next (commit u next) := by
  rw [exec_eq_next, tickState_ok hf hb]

/-- An instruction that raises takes the interrupt from the start of the tick (60_exceptions.md R229). -/
theorem exec_of_raise {op : Instr} {s t : State} {w : InstrWord} {j : Interrupt} (hf : fetch s = .ok (w, t))
    (hb : bodyOf op t = .raise j) : exec op s = .next (takeInterrupt s j) := by
  rw [exec_eq_next, tickState_raise hf hb]

/-- An instruction that leaves the array drops the tick (20_memory.md R65). -/
theorem exec_of_bounds {op : Instr} {s t : State} {w : InstrWord} (hf : fetch s = .ok (w, t)) (hb : bodyOf op t = .bounds) :
    exec op s = .next { s with ip := s.ip + 4#64 } := by
  rw [exec_eq_next, tickState_bounds hf hb]
  rfl

/-- What a written register reads (10_state.md R21). -/
theorem reg_setReg_self (s : State) (r : Reg) (v : Word) : (s.setReg r v).reg r = written r v := by
  simp [State.reg_setReg, written]

/-! ### What a completed body keeps -/

/-- What no completed instruction changes: the pending interrupt, the latches but `handlingInterrupt`, `lastInt`, IP (which only the
commit writes), MEM_SIZE and the canonical form of memory. -/
structure BodyKeeps (t u : State) : Prop where
  ip : u.ip = t.ip
  intSet : u.intSet = t.intSet
  intCode : u.intCode = t.intCode
  halted : u.halted = t.halted
  lastInt : u.lastInt = t.lastInt
  freeIndex : u.freeIndex = t.freeIndex
  size : u.mem.size = t.mem.size
  wf : t.mem.wf = true → u.mem.wf = true

theorem MemoryOnly.keeps {t u : State} (h : MemoryOnly t u) : BodyKeeps t u :=
  ⟨h.ip, h.intSet, h.intCode, h.halted, h.lastInt, h.freeIndex, h.size, h.wf⟩

theorem BodyKeeps.trans {t u v : State} (h : BodyKeeps t u) (k : BodyKeeps u v) : BodyKeeps t v :=
  ⟨k.ip.trans h.ip, k.intSet.trans h.intSet, k.intCode.trans h.intCode, k.halted.trans h.halted, k.lastInt.trans h.lastInt,
    k.freeIndex.trans h.freeIndex, k.size.trans h.size, fun hw => k.wf (h.wf hw)⟩

theorem setReg_keeps (t : State) (r : Reg) (v : Word) : BodyKeeps t (t.setReg r v) :=
  ⟨rfl, rfl, rfl, rfl, rfl, rfl, rfl, id⟩

theorem setPReg_keeps (t : State) (r : PReg) (v : Word) : BodyKeeps t (t.setPReg r v) :=
  ⟨rfl, rfl, rfl, rfl, rfl, rfl, rfl, id⟩

theorem finishAlu_keeps (t : State) (r : Reg) (c v : Bool) (q : Word) : BodyKeeps t (finishAlu t r c v q) :=
  ⟨rfl, rfl, rfl, rfl, rfl, rfl, rfl, id⟩

/-! ### One inversion lemma per body shape -/

theorem loadBody_eq_ok {n : Nat} {extend : Word → Word} {r0 r1 : Reg} {off : Imm} {t u : State} {next : Option Word} :
    loadBody n extend r0 r1 off t = .ok (u, next) ↔
      ∃ v m, memRead t (t.regPlus r1 off) n = .ok (v, m) ∧ m.setReg r0 (extend v) = u ∧ next = none := by
  simp only [loadBody, Access.andThen_eq_ok, Prod.exists, Access.ok.injEq, Prod.mk.injEq]
  constructor
  · rintro ⟨v, m, h, h1, rfl⟩
    exact ⟨v, m, h, h1, rfl⟩
  · rintro ⟨v, m, h, h1, rfl⟩
    exact ⟨v, m, h, h1, rfl⟩

theorem storeBody_eq_ok {n : Nat} {r0 r1 : Reg} {off : Imm} {t u : State} {next : Option Word} :
    storeBody n r0 r1 off t = .ok (u, next) ↔
      memWrite t (t.regPlus r1 off) n (t.reg r0) = .ok u ∧ next = none := by
  simp only [storeBody, Access.andThen_eq_ok, Access.ok.injEq, Prod.mk.injEq]
  constructor
  · rintro ⟨m, h, rfl, rfl⟩
    exact ⟨h, rfl⟩
  · rintro ⟨h, rfl⟩
    exact ⟨u, h, rfl, rfl⟩

theorem pushBody_eq_ok {r0 : Reg} {off : Imm} {t u : State} {next : Option Word} :
    pushBody r0 off t = .ok (u, next) ↔
      memWrite (t.setReg .sp (t.x.sp - 8#64)) (t.x.sp - 8#64) 8 ((t.setReg .sp (t.x.sp - 8#64)).regPlus r0 off) = .ok u ∧
        next = none := by
  have e : (t.setReg .sp (t.reg .sp - 8#64)).reg .sp = t.x.sp - 8#64 := rfl
  simp only [pushBody, Access.andThen_eq_ok, Access.ok.injEq, Prod.mk.injEq, e]
  constructor
  · rintro ⟨m, h, rfl, rfl⟩
    exact ⟨h, rfl⟩
  · rintro ⟨h, rfl⟩
    exact ⟨u, h, rfl, rfl⟩

theorem popBody_eq_ok {r0 : Reg} {t u : State} {next : Option Word} :
    popBody r0 t = .ok (u, next) ↔
      ∃ v m, memRead t t.x.sp 8 = .ok (v, m) ∧
        (m.setReg r0 v).setReg .sp ((m.setReg r0 v).reg .sp + 8#64) = u ∧ next = none := by
  simp only [popBody, Access.andThen_eq_ok, Prod.exists, Access.ok.injEq, Prod.mk.injEq, State.reg_sp]
  constructor
  · rintro ⟨v, m, h, h1, rfl⟩
    exact ⟨v, m, h, h1, rfl⟩
  · rintro ⟨v, m, h, h1, rfl⟩
    exact ⟨v, m, h, h1, rfl⟩

theorem divBody_cases {r0 r1 : Reg} {off : Imm} (t : State) :
    divBody r0 r1 off t = .raise divideFault ∨ ∃ q r, divBody r0 r1 off t = .ok (finishDivide t r0 r1 q r, none) := by
  unfold divBody
  dsimp only
  split
  · exact .inl rfl
  · exact .inr ⟨_, _, rfl⟩

theorem sdivBody_cases {r0 r1 : Reg} {off : Imm} (t : State) :
    sdivBody r0 r1 off t = .raise divideFault ∨ ∃ q r, sdivBody r0 r1 off t = .ok (finishDivide t r0 r1 q r, none) := by
  unfold sdivBody
  dsimp only
  split
  · exact .inl rfl
  · split
    · split
      · exact .inr ⟨_, _, rfl⟩
      · exact .inl rfl
    · exact .inr ⟨_, _, rfl⟩

theorem finishDivide_keeps (t : State) (r0 r1 : Reg) (q r : Word) : BodyKeeps t (finishDivide t r0 r1 q r) :=
  (setReg_keeps t r1 r).trans (finishAlu_keeps _ r0 false false q)

/-- No completed instruction changes what `BodyKeeps` lists. -/
theorem bodyOf_keeps {op : Instr} {t u : State} {next : Option Word} (h : bodyOf op t = .ok (u, next)) : BodyKeeps t u := by
  have load : ∀ {n e r0 r1 off}, loadBody n e r0 r1 off t = .ok (u, next) → BodyKeeps t u := by
    intro n e r0 r1 off h
    obtain ⟨v, m, hm, rfl, -⟩ := loadBody_eq_ok.mp h
    exact (memRead_memoryOnly hm).keeps.trans (setReg_keeps m r0 _)
  have store : ∀ {n r0 r1 off}, storeBody n r0 r1 off t = .ok (u, next) → BodyKeeps t u := by
    intro n r0 r1 off h
    exact (memWrite_memoryOnly (storeBody_eq_ok.mp h).1).keeps
  have branch : ∀ {c r1 off}, branchBody c r1 off t = .ok (u, next) → BodyKeeps t u := by
    intro c r1 off h
    simp only [branchBody, Access.ok.injEq, Prod.mk.injEq] at h
    exact h.1 ▸ (MemoryOnly.refl t).keeps
  have alu : ∀ {f c v r0 r1 off}, aluBody f c v r0 r1 off t = .ok (u, next) → BodyKeeps t u := by
    intro f c v r0 r1 off h
    simp only [aluBody, Access.ok.injEq, Prod.mk.injEq] at h
    exact h.1 ▸ finishAlu_keeps ..
  cases op with
  | mov r0 r1 off | gef r0 =>
    simp only [bodyOf, movBody, gefBody, Access.ok.injEq, Prod.mk.injEq] at h
    exact h.1 ▸ setReg_keeps ..
  | lb r0 r1 off | lbu r0 r1 off | lh r0 r1 off | lhu r0 r1 off | lw r0 r1 off | lwu r0 r1 off | ld r0 r1 off =>
    simp only [bodyOf] at h
    exact load h
  | sb r0 r1 off | sh r0 r1 off | sw r0 r1 off | sd r0 r1 off =>
    simp only [bodyOf] at h
    exact store h
  | push r0 off => exact (setReg_keeps t .sp _).trans (memWrite_memoryOnly (pushBody_eq_ok.mp h).1).keeps
  | pop r0 =>
    obtain ⟨v, m, hm, rfl, -⟩ := popBody_eq_ok.mp h
    exact ((memRead_memoryOnly hm).keeps.trans (setReg_keeps m r0 v)).trans (setReg_keeps _ .sp _)
  | jmp r1 off | jlt r1 off | jgt r1 off | jzr r1 off | jif r0 r1 off =>
    simp only [bodyOf] at h
    exact branch h
  | and r0 r1 off | or r0 r1 off | xor r0 r1 off | shl r0 r1 off | shr r0 r1 off | add r0 r1 off | sub r0 r1 off
  | mul r0 r1 off | smul r0 r1 off | sshr r0 r1 off =>
    simp only [bodyOf] at h
    exact alu h
  | div r0 r1 off =>
    rcases divBody_cases (r0 := r0) (r1 := r1) (off := off) t with h1 | ⟨q, r, h1⟩ <;> rw [bodyOf, h1] at h
    · cases h
    · simp only [Access.ok.injEq, Prod.mk.injEq] at h
      exact h.1 ▸ finishDivide_keeps ..
  | sdiv r0 r1 off =>
    rcases sdivBody_cases (r0 := r0) (r1 := r1) (off := off) t with h1 | ⟨q, r, h1⟩ <;> rw [bodyOf, h1] at h
    · cases h
    · simp only [Access.ok.injEq, Prod.mk.injEq] at h
      exact h.1 ▸ finishDivide_keeps ..
  | int r1 off =>
    simp only [bodyOf, intBody] at h
    split at h <;> cases h
  | pmov r0 r1 off =>
    simp only [bodyOf, pmovBody] at h
    split at h
    · cases h
    · simp only [Access.ok.injEq, Prod.mk.injEq] at h
      exact h.1 ▸ setPReg_keeps ..
  | iret =>
    simp only [bodyOf, iretBody] at h
    split at h
    · cases h
    · obtain ⟨flags, ip, -, -, -, rfl⟩ := returnFromInterrupt_eq_ok.mp h
      exact ⟨rfl, rfl, rfl, rfl, rfl, rfl, rfl, id⟩

theorem pageFault_raisable (mask : Word) (la : Addr) : raisableCode (pageFault mask la).code = true := rfl

/-- Every interrupt a body raises has a code that 60_exceptions.md R223 lists. -/
theorem bodyOf_raise {op : Instr} {t : State} {j : Interrupt} (h : bodyOf op t = .raise j) : raisableCode j.code = true := by
  have read : ∀ {addr n}, memRead t addr n = .raise j → raisableCode j.code = true := by
    intro addr n h
    obtain ⟨mask, rfl⟩ := resolve_eq_raise (memRead_eq_raise.mp h)
    rfl
  have write : ∀ {s : State} {addr n v}, memWrite s addr n v = .raise j → raisableCode j.code = true := by
    intro s addr n v h
    obtain ⟨mask, rfl⟩ := resolve_eq_raise (memWrite_eq_raise.mp h)
    rfl
  have load : ∀ {n e r0 r1 off}, loadBody n e r0 r1 off t = .raise j → raisableCode j.code = true := by
    intro n e r0 r1 off h
    simp only [loadBody, Access.andThen_eq_raise, reduceCtorEq, and_false, exists_false, or_false] at h
    exact read h
  have store : ∀ {n r0 r1 off}, storeBody n r0 r1 off t = .raise j → raisableCode j.code = true := by
    intro n r0 r1 off h
    simp only [storeBody, Access.andThen_eq_raise, reduceCtorEq, and_false, exists_false, or_false] at h
    exact write h
  cases op with
  | mov | gef | jmp | jlt | jgt | jzr | jif | and | or | xor | shl | shr | add | sub | mul | smul | sshr => cases h
  | lb r0 r1 off | lbu r0 r1 off | lh r0 r1 off | lhu r0 r1 off | lw r0 r1 off | lwu r0 r1 off | ld r0 r1 off =>
    simp only [bodyOf] at h
    exact load h
  | sb r0 r1 off | sh r0 r1 off | sw r0 r1 off | sd r0 r1 off =>
    simp only [bodyOf] at h
    exact store h
  | push r0 off =>
    simp only [bodyOf, pushBody, Access.andThen_eq_raise, reduceCtorEq, and_false, exists_false, or_false] at h
    exact write h
  | pop r0 =>
    simp only [bodyOf, popBody, Access.andThen_eq_raise, reduceCtorEq, and_false, exists_false, or_false] at h
    exact read h
  | div r0 r1 off =>
    rcases divBody_cases (r0 := r0) (r1 := r1) (off := off) t with h1 | ⟨q, r, h1⟩ <;> rw [bodyOf, h1] at h <;> cases h
    rfl
  | sdiv r0 r1 off =>
    rcases sdivBody_cases (r0 := r0) (r1 := r1) (off := off) t with h1 | ⟨q, r, h1⟩ <;> rw [bodyOf, h1] at h <;> cases h
    rfl
  | int r1 off =>
    simp only [bodyOf, intBody] at h
    split at h
    · rename_i hc
      cases h
      simp only [isSoftwareCode, Bool.and_eq_true, decide_eq_true_eq] at hc
      simp only [raisableCode, Bool.or_eq_true, decide_eq_true_eq, BitVec.toNat_setWidth]
      omega
    · cases h
      rfl
  | pmov r0 r1 off =>
    simp only [bodyOf, pmovBody] at h
    split at h <;> cases h
    rfl
  | iret =>
    simp only [bodyOf, iretBody] at h
    split at h
    · cases h
      rfl
    · exact absurd h returnFromInterrupt_ne_raise

end Sys2Proof.Machine
end

