-- ==== Sys2Proof/Laws/Alu.lean ====
section
/-! SUPPORT. What the shared ends of the ALU instructions do: `Finish` (44_alu.md R171) and the end of a division (R181). -/

namespace Sys2Proof.Machine

/-- `aluFlags` is the flag rule (44_alu.md R171). -/
theorem aluFlags_from (f : Word) (c v : Bool) (result : Word) :
    aluFlagsFrom f (aluFlags f c v result) (c = true) (v = true) result := by
  refine ⟨?_, ?_, ?_, ?_, fun k hk => ?_⟩ <;> rw [aluFlags_bit]
  · rw [if_pos rfl, Bool.or_eq_true]
  · rw [if_neg (by omega), if_pos rfl, Bool.or_eq_true]
  · rw [if_neg (by omega), if_neg (by omega), if_pos rfl, decide_eq_true_eq]
  · rw [if_neg (by omega), if_neg (by omega), if_neg (by omega), if_pos rfl]
  · rw [if_neg (by omega), if_neg (by omega), if_neg (by omega), if_neg (by omega)]

/-- The flag rule under equivalent conditions. -/
theorem aluFlagsFrom_congr {f g result : Word} {c c' v v' : Prop} (hc : c ↔ c') (hv : v ↔ v')
    (h : aluFlagsFrom f g c v result) : aluFlagsFrom f g c' v' result := by
  obtain ⟨h0, h1, h2⟩ := h
  exact ⟨h0.trans (or_congr_right hc), h1.trans (or_congr_right hv), h2⟩

/-- `Finish` and a commit change the result register, EFLAGS and IP alone. -/
theorem finishAlu_onlyChanges (t : State) (r0 : Reg) (c v : Bool) (result : Word) (next : Option Word) :
    onlyChanges t (commit (finishAlu t r0 c v result) next) [r0] [.eflags] nowhere := by
  refine ⟨⟨fun q hq => ?_, fun q hq => ?_, rfl, fun _ _ => rfl, rfl, rfl, rfl, rfl, rfl⟩, rfl⟩
  · rw [List.mem_singleton] at hq
    rw [State.reg_commit, finishAlu, State.reg_setReg, if_neg hq, State.reg_setPReg]
  · rw [List.mem_singleton] at hq
    rw [State.preg_commit, finishAlu, State.preg_setReg, State.preg_setPReg, if_neg hq]

/-- An instruction whose body has the ALU's shape completes (44_alu.md R170, R171). -/
theorem aluCompletes_of_body {op : Instr} {f : Word → Word → Word} {c v : Word → Word → Word → Bool} {r0 r1 : Reg} {off : Imm}
    {s t : State} (hop : bodyOf op = aluBody f c v r0 r1 off) (h : fetches s t) :
    let result := f (s.reg r0) (s.regPlus r1 off)
    aluCompletes op s t r0 (c (s.reg r0) (s.regPlus r1 off) result = true) (v (s.reg r0) (s.regPlus r1 off) result = true)
      result := by
  obtain ⟨w, hf⟩ := h
  have hm := fetch_memoryOnly hf
  intro result
  have hb : bodyOf op t = .ok (finishAlu t r0 (c (s.reg r0) (s.regPlus r1 off) result) (v (s.reg r0) (s.regPlus r1 off) result)
      result, none) := by
    rw [hop, aluBody, hm.regPlus, hm.reg]
  refine ⟨_, exec_of_ok hf hb, reg_setReg_self .., ?_, by rw [commit_ip, finishAlu_ip, hm.ip, Option.getD_none],
    finishAlu_onlyChanges ..⟩
  rw [← hm.p]
  exact aluFlags_from ..

/-- A division that completes (44_alu.md R181): the remainder, then the quotient and its flags. -/
theorem division_completes {op : Instr} {r0 r1 : Reg} {s t : State} {q r : Word} (h : fetches s t)
    (hop : bodyOf op t = .ok (finishDivide t r0 r1 q r, none)) :
    ∃ u, exec op s = .next u ∧ u.reg r0 = written r0 q ∧ (r1 ≠ r0 → u.reg r1 = written r1 r) ∧
      aluFlagsFrom s.p.eflags u.p.eflags False False q ∧ u.ip = s.ip + 4#64 ∧ onlyChanges t u [r0, r1] [.eflags] nowhere := by
  obtain ⟨w, hf⟩ := h
  have hm := fetch_memoryOnly hf
  refine ⟨_, exec_of_ok hf hop, reg_setReg_self .., fun hne => ?_, ?_, ?_, ?_⟩
  · rw [State.reg_commit, finishDivide, finishAlu, State.reg_setReg, if_neg hne, State.reg_setPReg]
    exact reg_setReg_self ..
  · rw [← hm.p]
    exact aluFlagsFrom_congr (by simp) (by simp) (aluFlags_from ..)
  · rw [commit_ip, finishDivide_ip, hm.ip, Option.getD_none]
  · refine ⟨⟨fun p hp => ?_, fun p hp => ?_, rfl, fun _ _ => rfl, rfl, rfl, rfl, rfl, rfl⟩, rfl⟩
    · simp only [List.mem_cons, List.not_mem_nil, or_false, not_or] at hp
      rw [State.reg_commit, finishDivide, finishAlu, State.reg_setReg, if_neg hp.1, State.reg_setPReg, State.reg_setReg,
        if_neg hp.2]
    · rw [List.mem_singleton] at hp
      rw [State.preg_commit, finishDivide, finishAlu, State.preg_setReg, State.preg_setPReg, if_neg hp, State.preg_setReg]

/-- A shift amount is `o2` modulo 64 (44_alu.md R175, D13). -/
theorem shiftAmount_eq (o2 : Word) : shiftAmount o2 = o2.toNat % 64 := by
  rw [shiftAmount, BitVec.toNat_and]
  exact Nat.and_two_pow_sub_one_eq_mod o2.toNat 6

end Sys2Proof.Machine
end

