-- ==== Sys2Proof/Laws/Decode.lean ====
section
/-! SUPPORT. The encoding's small lemmas: register numbers, the fields of a word, and the bytes of a word
(10_state.md R20, R26; 30_encoding.md R101, R102). -/

namespace Sys2Proof

@[simp] theorem Reg.ofIndex_index (r : Reg) : Reg.ofIndex r.index = r := by
  cases r <;> rfl

@[simp] theorem Reg.index_ofIndex (n : BitVec 4) : (Reg.ofIndex n).index = n := by
  revert n
  decide

@[simp] theorem PReg.ofIndex_index (r : PReg) : PReg.ofIndex r.index = r := by
  cases r <;> rfl

@[simp] theorem PReg.index_ofIndex (n : BitVec 4) : (PReg.ofIndex n).index = n := by
  revert n
  decide

/-- The fields of a word made of fields (30_encoding.md R101). -/
@[simp] theorem Fields.ofWord_toWord (f : Fields) : Fields.ofWord f.toWord = f := by
  obtain ⟨op, r0, r1, off⟩ := f
  simp only [Fields.ofWord, Fields.toWord, Fields.mk.injEq]
  refine ⟨?_, ?_, ?_, ?_⟩ <;> apply BitVec.eq_of_getLsbD_eq <;> intro k hk <;>
    simp only [BitVec.getLsbD_extractLsb', BitVec.getLsbD_append, hk, decide_true, Bool.true_and]
  · have e1 : ¬24 + k < 16 := by omega
    have e2 : ¬24 + k - 16 < 4 := by omega
    have e3 : ¬24 + k - 16 - 4 < 4 := by omega
    have e4 : 24 + k - 16 - 4 - 4 = k := by omega
    simp only [e1, e2, e3, e4, if_false]
  · have e1 : ¬20 + k < 16 := by omega
    have e2 : ¬20 + k - 16 < 4 := by omega
    have e3 : 20 + k - 16 - 4 = k := by omega
    simp only [e1, e2, e3, hk, if_false, if_true]
  · have e1 : ¬16 + k < 16 := by omega
    have e2 : 16 + k - 16 = k := by omega
    simp only [e1, e2, hk, if_false, if_true]
  · have e1 : 0 + k < 16 := by omega
    simp [hk]

/-- A word is the word of its fields (30_encoding.md R101). -/
@[simp] theorem Fields.toWord_ofWord (w : InstrWord) : (Fields.ofWord w).toWord = w := by
  apply BitVec.eq_of_getLsbD_eq
  intro k hk
  simp only [Fields.ofWord, Fields.toWord, BitVec.getLsbD_append, BitVec.getLsbD_extractLsb']
  by_cases h1 : k < 16
  · simp [h1]
  · by_cases h2 : k - 16 < 4
    · have e : 16 + (k - 16) = k := by omega
      simp [h1, h2, e]
    · by_cases h3 : k - 16 - 4 < 4
      · have e : 20 + (k - 16 - 4) = k := by omega
        simp [h1, h2, h3, e]
      · have e : 24 + (k - 16 - 4 - 4) = k := by omega
        have h4 : k - 16 - 4 - 4 < 8 := by omega
        simp [h1, h2, h3, h4, e]

/-- The four bytes of a word make the word again (30_encoding.md R102). -/
theorem wordOfBytes_bytesOfWord (w : InstrWord) :
    wordOfBytes (w.extractLsb' 0 8) (w.extractLsb' 8 8) (w.extractLsb' 16 8) (w.extractLsb' 24 8) = w := by
  apply BitVec.eq_of_getLsbD_eq
  intro k hk
  simp only [wordOfBytes, BitVec.getLsbD_append, BitVec.getLsbD_extractLsb']
  by_cases h1 : k < 8
  · simp [h1]
  · by_cases h2 : k - 8 < 8
    · have e : 8 + (k - 8) = k := by omega
      simp [h1, h2, e]
    · by_cases h3 : k - 8 - 8 < 8
      · have e : 16 + (k - 8 - 8) = k := by omega
        simp [h1, h2, h3, e]
      · have e : 24 + (k - 8 - 8 - 8) = k := by omega
        have h4 : k - 8 - 8 - 8 < 8 := by omega
        simp [h1, h2, h3, h4, e]

/-- Decoding a word reads its fields and looks the instruction up. -/
theorem decode_eq_instr {w : InstrWord} {op : Instr} : decode w = .instr op ↔ (Fields.ofWord w).select = some op := by
  unfold decode
  split <;> simp_all

/-- The numbers of any word are encodable (30_encoding.md R118). -/
theorem RawFields.ofWord_encodable (w : InstrWord) : (RawFields.ofWord w).encodable = true := by
  have h0 := (Fields.ofWord w).opcode.isLt
  have h1 := (Fields.ofWord w).r0.isLt
  have h2 := (Fields.ofWord w).r1.isLt
  have h3 := BitVec.le_toInt (Fields.ofWord w).offset
  have h4 := BitVec.toInt_lt (x := (Fields.ofWord w).offset)
  have e : (RawFields.ofWord w).encodable = (decide ((Fields.ofWord w).opcode.toNat < 256) &&
      (decide ((Fields.ofWord w).r0.toNat < 16) && decide ((Fields.ofWord w).r1.toNat < 16)) &&
      (decide (-32768 ≤ (Fields.ofWord w).offset.toInt) && decide ((Fields.ofWord w).offset.toInt ≤ 32767))) := rfl
  rw [e]
  norm_num at h3 h4 ⊢
  omega

/-- The opcode number of an instruction is its opcode field. -/
theorem Instr.raw_op (op : Instr) : op.raw.op = op.fields.opcode.toNat := by
  simp [Instr.raw, RawFields.ofWord, encode]

end Sys2Proof
end

