-- ==== Sys2Proof/Laws/Bytes.lean ====
section
/-! SUPPORT. The bytes of an access: a little-endian read of four and of eight bytes as the bytes themselves, and the encoding function on plain
numbers as the word of its fields (20_memory.md R63, 30_encoding.md R118). -/

namespace Sys2Proof.Machine

/-- Bit `k` of four bytes is bit `k % 8` of byte `k / 8`. -/
theorem fourBytes_bit (m : Memory) (a k : Nat) (hk : k < 32) :
    (fourBytes m a).getLsbD k = (m.read (a + k / 8)).getLsbD (k % 8) := by
  simp only [fourBytes, BitVec.getLsbD_append]
  by_cases k1 : k < 8
  · simp [k1, (by omega : k / 8 = 0), (by omega : k % 8 = k)]
  · by_cases k2 : k - 8 < 8
    · simp [k1, k2, (by omega : k / 8 = 1), (by omega : k % 8 = k - 8)]
    · by_cases k3 : k - 8 - 8 < 8
      · simp [k1, k2, k3, (by omega : k / 8 = 2), (by omega : k % 8 = k - 8 - 8)]
      · simp [k1, k2, k3, (by omega : k / 8 = 3), (by omega : k % 8 = k - 8 - 8 - 8)]

/-- Bit `k` of eight bytes is bit `k % 8` of byte `k / 8`. -/
theorem eightBytes_bit (m : Memory) (a k : Nat) (hk : k < 64) :
    (eightBytes m a).getLsbD k = (m.read (a + k / 8)).getLsbD (k % 8) := by
  simp only [eightBytes, BitVec.getLsbD_append]
  by_cases h : k < 32
  · rw [if_pos h, fourBytes_bit m a k h]
  · have e : a + 4 + (k - 32) / 8 = a + k / 8 := by omega
    have e2 : (k - 32) % 8 = k % 8 := by omega
    rw [if_neg h, fourBytes_bit m (a + 4) (k - 32) (by omega), e, e2]

/-- A read of four bytes, as a 32-bit value (20_memory.md R63). -/
theorem readLE_four (m : Memory) (a : Nat) : (m.readLE a 4).setWidth 32 = fourBytes m a := by
  apply BitVec.eq_of_getLsbD_eq
  intro k hk
  rw [BitVec.getLsbD_setWidth, Memory.readLE_bit, fourBytes_bit m a k hk]
  simp [hk, (by omega : k < 64)]

/-- A read of four bytes, zero-extended (20_memory.md R64). -/
theorem readLE_four_zext (m : Memory) (a : Nat) : m.readLE a 4 = (fourBytes m a).setWidth 64 := by
  rw [← readLE_four]
  apply BitVec.eq_of_getLsbD_eq
  intro k hk
  simp only [BitVec.getLsbD_setWidth, Memory.readLE_bit, hk, decide_true, Bool.true_and]
  by_cases h : k < 32 <;> simp [h]

/-- A read of eight bytes (20_memory.md R63). -/
theorem readLE_eight (m : Memory) (a : Nat) : m.readLE a 8 = eightBytes m a := by
  apply BitVec.eq_of_getLsbD_eq
  intro k hk
  rw [Memory.readLE_bit, eightBytes_bit m a k hk]
  simp [hk]

/-- A read of one byte, zero-extended (20_memory.md R64). -/
theorem readLE_one (m : Memory) (a : Nat) : m.readLE a 1 = (m.read a).setWidth 64 := by
  simp [Memory.readLE]

/-- A read of two bytes, zero-extended (20_memory.md R63, R64). -/
theorem readLE_two (m : Memory) (a : Nat) : m.readLE a 2 = (m.read (a + 1) ++ m.read a).setWidth 64 := by
  apply BitVec.eq_of_getLsbD_eq
  intro k hk
  rw [Memory.readLE_bit, BitVec.getLsbD_setWidth, BitVec.getLsbD_append]
  by_cases h : k < 8
  · simp only [h, if_true, (by omega : k / 8 = 0), (by omega : k % 8 = k), hk, (by omega : k < 8 * 2), decide_true, Bool.true_and,
      Nat.add_zero]
  · rw [if_neg h]
    by_cases h2 : k < 16
    · simp only [(by omega : k / 8 = 1), (by omega : k % 8 = k - 8), hk, (by omega : k < 8 * 2), decide_true, Bool.true_and]
    · rw [BitVec.getLsbD_of_ge (m.read (a + 1)) _ (by omega)]
      simp [(by omega : ¬k < 8 * 2)]

/-- Sign extension of a zero-extended value. -/
theorem sextFrom_zext {n : Nat} (h : n ≤ 64) (v : BitVec n) : sextFrom n (v.setWidth 64) = v.signExtend 64 := by
  rw [sextFrom, BitVec.setWidth_setWidth_of_le v h, BitVec.setWidth_eq]

end Sys2Proof.Machine
end

