-- ==== Sys2Proof/Laws/Walk.lean ====
section
/-! SUPPORT. The entry check in the words of the rule, and the bytes a successful walk leaves (20_memory.md R73 to R77). -/

namespace Sys2Proof.Machine

/-- A one-bit mask of an entry is clear exactly when its bit is. -/
theorem entry_mask_eq_zero (e : Entry) (k : Nat) (hk : k < 32) :
    e &&& BitVec.twoPow 32 k = 0#32 ↔ e.getLsbD k = false := by
  constructor
  · intro h
    have := congrArg (fun x => BitVec.getLsbD x k) h
    simpa [hk] using this
  · intro h
    apply BitVec.eq_of_getLsbD_eq
    intro i hi
    by_cases hik : k = i
    · subst hik
      simp [h]
    · simp [hik]

theorem entryOccupied_iff (e : Entry) : entryOccupied e = true ↔ e &&& 0x01#32 ≠ 0#32 := by
  rw [show (0x01#32 : Entry) = BitVec.twoPow 32 0 by decide, Ne, entry_mask_eq_zero e 0 (by omega), entryOccupied]
  simp

theorem entryProtected_iff (e : Entry) : entryProtected e = true ↔ e &&& 0x02#32 ≠ 0#32 := by
  rw [show (0x02#32 : Entry) = BitVec.twoPow 32 1 by decide, Ne, entry_mask_eq_zero e 1 (by omega), entryProtected]
  simp

theorem entryWritable_iff (e : Entry) : entryWritable e = true ↔ e &&& 0x08#32 ≠ 0#32 := by
  rw [show (0x08#32 : Entry) = BitVec.twoPow 32 3 by decide, Ne, entry_mask_eq_zero e 3 (by omega), entryWritable]
  simp

theorem entryExecutable_iff (e : Entry) : entryExecutable e = true ↔ e &&& 0x10#32 ≠ 0#32 := by
  rw [show (0x10#32 : Entry) = BitVec.twoPow 32 4 by decide, Ne, entry_mask_eq_zero e 4 (by omega), entryExecutable]
  simp

/-- The entry check reports the first failing mask bit (20_memory.md R75). -/
theorem entryFailure_eq_some {user : Bool} {e : Entry} {write jump : Bool} {mask : Word} :
    entryFailure user e write jump = some mask ↔ firstFailure (user = true) e write jump mask := by
  have not0 : ∀ {k : Entry} {b : Bool}, (b = true ↔ e &&& k ≠ 0#32) → (e &&& k = 0#32 ↔ b = false) := by
    intro k b h
    cases b <;> simp_all
  simp only [firstFailure, Ne, not0 (entryOccupied_iff e), not0 (entryProtected_iff e), not0 (entryWritable_iff e),
    not0 (entryExecutable_iff e), eq_comm (a := mask)]
  unfold entryFailure
  generalize entryOccupied e = o
  generalize entryProtected e = p
  generalize entryWritable e = w
  generalize entryExecutable e = x
  cases o <;> cases p <;> cases w <;> cases x <;> cases user <;> cases write <;> cases jump <;> simp

/-- The entry passes when no mask bit fails (20_memory.md R75). -/
theorem entryFailure_eq_none {user : Bool} {e : Entry} {write jump : Bool} :
    entryFailure user e write jump = none ↔ ∀ mask, ¬firstFailure (user = true) e write jump mask := by
  rw [Option.eq_none_iff_forall_ne_some]
  exact forall_congr' fun mask => not_congr entryFailure_eq_some

/-- The bytes after a successful walk's two write-backs, the page entry's last (20_memory.md R77, D5). -/
theorem read_two_writes (m : Memory) (a b c : Nat) (v w : Word) :
    ((m.writeLE a v 4).writeLE b w 4).read c =
      if b ≤ c ∧ c < b + 4 then w.extractLsb' (8 * (c - b)) 8
      else if a ≤ c ∧ c < a + 4 then v.extractLsb' (8 * (c - a)) 8
      else m.read c := by
  rw [Memory.read_writeLE, Memory.read_writeLE]

/-- A walk whose two entries pass succeeds (20_memory.md R74). -/
theorem resolve_eq_walked {s : State} {la : Addr} {write jump : Bool} {root page : Entry} (hp : s.flagPG = true)
    (hr : readEntry s (rootEntryAddr s la) = .ok root) (h1 : entryFailure s.flagPE root write jump = none)
    (hg : readEntry s (pageEntryAddr root la) = .ok page) (h2 : entryFailure s.flagPE page write jump = none) :
    resolve s la write jump = .ok (entryFrame page + pageOffset la,
      { s with
        mem := (s.mem.writeLE (rootEntryAddr s la).toNat ((markAccessed root).setWidth 64) 4).writeLE
          (pageEntryAddr root la).toNat ((markModified (markAccessed page) write).setWidth 64) 4 }) := by
  rw [resolve, if_pos hp]
  exact walk_eq_ok.mpr ⟨root, page, hr, h1, hg, h2, rfl, rfl⟩

/-- With PG = 0 the translator is the identity (20_memory.md R71). -/
theorem resolve_of_off {s : State} {la : Addr} {write jump : Bool} (hp : s.flagPG = false) :
    resolve s la write jump = .ok (la, s) := by
  simp [resolve, hp]

end Sys2Proof.Machine
end

