-- ==== Sys2Proof/Laws/Entry.lean ====
section
/-! SUPPORT. Interrupt entry in the words of its rule: `pushesFrame`, `vectorReadState` and `enters` (60_exceptions.md R231). -/

namespace Sys2Proof.Machine

/-- The mode bits of the handler, as one mask. -/
theorem handlerFlags_eq (f : Word) : handlerFlags f = f &&& 0x5FFFFFFFFFFFFFFF#64 := by
  simp [handlerFlags, protectedEnableMask, interruptEnableMask]

/-- The mode bits after IRET, as one mask. -/
theorem returnFlags_eq (f : Word) : returnFlags f = f ||| 0xA000000000000000#64 := by
  simp [returnFlags, protectedEnableMask, interruptEnableMask, BitVec.or_assoc]

theorem savedIP_eq (s : State) (code : BitVec 8) : savedIP s code = resumeIP s code := by
  simp [savedIP, resumeIP, isFaultCode]

/-- MEM_SIZE after the frame is pushed. -/
theorem pushesFrame_size {s pushed : State} {code : BitVec 8} (h : pushesFrame s pushed code) :
    pushed.mem.size = s.mem.size := by
  obtain ⟨half, h1, h2⟩ := h
  rw [(physWrite_memoryOnly h2).size, (physWrite_memoryOnly h1).size]

/-- Once the frame is pushed, entry is the vector read (60_exceptions.md R231, steps 6 and 7). -/
theorem enterHandler_of_pushed {s pushed : State} {j : Interrupt} (h : pushesFrame s pushed j.code) :
    enterHandler { s with lastInt := j } j.code =
      (memRead (vectorReadState s pushed j) (s.p.ijt + 8#64 * j.code.setWidth 64) 4).andThen fun r =>
        .ok (commit r.2 (some r.1)) := by
  obtain ⟨half, h1, h2⟩ := h
  obtain ⟨b1, rfl⟩ := physWrite_eq_ok.mp h1
  obtain ⟨b2, rfl⟩ := physWrite_eq_ok.mp h2
  rw [enterHandler, physWrite_eq_ok.mpr ⟨by simpa using b1, rfl⟩, Access.andThen_ok,
    physWrite_eq_ok.mpr ⟨by simpa using b2, rfl⟩, Access.andThen_ok, savedIP_eq]
  simp only [enterRegisters, handlerFlags_eq, vectorReadState, vectorAddr, resumeIP]

/-- Where a push is out of bounds, so is entry (60_exceptions.md R234). -/
theorem enterHandler_push_bounds {s : State} {j : Interrupt}
    (h : s.mem.size < (addrOf (s.p.psp - 8#64)).toNat + 8 ∨ s.mem.size < (addrOf (s.p.psp - 16#64)).toNat + 8) :
    enterHandler { s with lastInt := j } j.code = .bounds := by
  by_cases h1 : s.mem.size < (addrOf (s.p.psp - 8#64)).toNat + 8
  · rw [enterHandler, physWrite_eq_bounds.mpr (by simpa using h1), Access.andThen_bounds]
  · have h2 := h.resolve_left h1
    rw [enterHandler, physWrite_eq_ok.mpr ⟨by simpa using h1, rfl⟩, Access.andThen_ok,
      physWrite_eq_bounds.mpr (by simpa using h2), Access.andThen_bounds]

/-- `enters` says what entry answers (60_exceptions.md R231). -/
theorem enterHandler_of_enters {s u : State} {j : Interrupt} (h : enters s j u) :
    enterHandler { s with lastInt := j } j.code = .ok u := by
  obtain ⟨pushed, pa, m, hp, hr, hb, rfl⟩ := h
  have hsz : m.mem.size = pushed.mem.size := (resolve_memoryOnly hr).size
  rw [pushesFrame_size hp] at hsz
  rw [enterHandler_of_pushed hp, memRead_eq_ok.mpr ⟨pa, hr, by omega, rfl⟩, Access.andThen_ok, readLE_four_zext]
  rfl

/-- Where entry succeeds, taking the interrupt is entering its handler. -/
theorem takeInterrupt_of_enters {s u : State} {j : Interrupt} (hh : s.handlingInterrupt = false) (h : enters s j u) :
    takeInterrupt s j = u :=
  takeInterruptFrom_ok hh (enterHandler_of_enters h)

end Sys2Proof.Machine
end

