-- ==== Sys2Proof/Laws/PerInstr.lean ====
section
/-! SUPPORT. The laws stated once for each instruction. `WellEncoded`: the numbers an instruction is encoded with are
well-formed, that is, each fits its field and the opcode is one of the 35 (30_encoding.md R105, R118). -/

namespace Sys2Proof.Laws.WellEncoded

/-- The instruction's numbers are well-formed (30_encoding.md R105, R118). -/
def Statement (op : Instr) : Prop := op.wellFormed = true

/-- It is enough that the opcode is defined: any word's numbers fit their fields. -/
theorem of_opcode {op : Instr} (n : Nat) (hn : op.fields.opcode.toNat = n) (h : n < 35) : Statement op := by
  simp only [Statement, Instr.wellFormed, RawFields.wellFormed, Bool.and_eq_true]
  refine ⟨RawFields.ofWord_encodable _, ?_⟩
  simpa [RawFields.opcodeDefined, Instr.raw_op, hn] using h

theorem mov (r0 r1 : Reg) (off : Imm) : Statement (.mov r0 r1 off) := of_opcode 0 rfl (by decide)
theorem gef (r0 : Reg) : Statement (.gef r0) := of_opcode 1 rfl (by decide)
theorem lb (r0 r1 : Reg) (off : Imm) : Statement (.lb r0 r1 off) := of_opcode 2 rfl (by decide)
theorem lbu (r0 r1 : Reg) (off : Imm) : Statement (.lbu r0 r1 off) := of_opcode 3 rfl (by decide)
theorem lh (r0 r1 : Reg) (off : Imm) : Statement (.lh r0 r1 off) := of_opcode 4 rfl (by decide)
theorem lhu (r0 r1 : Reg) (off : Imm) : Statement (.lhu r0 r1 off) := of_opcode 5 rfl (by decide)
theorem lw (r0 r1 : Reg) (off : Imm) : Statement (.lw r0 r1 off) := of_opcode 6 rfl (by decide)
theorem lwu (r0 r1 : Reg) (off : Imm) : Statement (.lwu r0 r1 off) := of_opcode 7 rfl (by decide)
theorem ld (r0 r1 : Reg) (off : Imm) : Statement (.ld r0 r1 off) := of_opcode 8 rfl (by decide)
theorem sb (r0 r1 : Reg) (off : Imm) : Statement (.sb r0 r1 off) := of_opcode 9 rfl (by decide)
theorem sh (r0 r1 : Reg) (off : Imm) : Statement (.sh r0 r1 off) := of_opcode 10 rfl (by decide)
theorem sw (r0 r1 : Reg) (off : Imm) : Statement (.sw r0 r1 off) := of_opcode 11 rfl (by decide)
theorem sd (r0 r1 : Reg) (off : Imm) : Statement (.sd r0 r1 off) := of_opcode 12 rfl (by decide)
theorem push (r0 : Reg) (off : Imm) : Statement (.push r0 off) := of_opcode 13 rfl (by decide)
theorem pop (r0 : Reg) : Statement (.pop r0) := of_opcode 14 rfl (by decide)
theorem jmp (r1 : Reg) (off : Imm) : Statement (.jmp r1 off) := of_opcode 15 rfl (by decide)
theorem jlt (r1 : Reg) (off : Imm) : Statement (.jlt r1 off) := of_opcode 16 rfl (by decide)
theorem jgt (r1 : Reg) (off : Imm) : Statement (.jgt r1 off) := of_opcode 17 rfl (by decide)
theorem jzr (r1 : Reg) (off : Imm) : Statement (.jzr r1 off) := of_opcode 18 rfl (by decide)
theorem jif (r0 r1 : Reg) (off : Imm) : Statement (.jif r0 r1 off) := of_opcode 19 rfl (by decide)
theorem and (r0 r1 : Reg) (off : Imm) : Statement (.and r0 r1 off) := of_opcode 20 rfl (by decide)
theorem or (r0 r1 : Reg) (off : Imm) : Statement (.or r0 r1 off) := of_opcode 21 rfl (by decide)
theorem xor (r0 r1 : Reg) (off : Imm) : Statement (.xor r0 r1 off) := of_opcode 22 rfl (by decide)
theorem shl (r0 r1 : Reg) (off : Imm) : Statement (.shl r0 r1 off) := of_opcode 23 rfl (by decide)
theorem shr (r0 r1 : Reg) (off : Imm) : Statement (.shr r0 r1 off) := of_opcode 24 rfl (by decide)
theorem add (r0 r1 : Reg) (off : Imm) : Statement (.add r0 r1 off) := of_opcode 25 rfl (by decide)
theorem sub (r0 r1 : Reg) (off : Imm) : Statement (.sub r0 r1 off) := of_opcode 26 rfl (by decide)
theorem mul (r0 r1 : Reg) (off : Imm) : Statement (.mul r0 r1 off) := of_opcode 27 rfl (by decide)
theorem smul (r0 r1 : Reg) (off : Imm) : Statement (.smul r0 r1 off) := of_opcode 28 rfl (by decide)
theorem div (r0 r1 : Reg) (off : Imm) : Statement (.div r0 r1 off) := of_opcode 29 rfl (by decide)
theorem sdiv (r0 r1 : Reg) (off : Imm) : Statement (.sdiv r0 r1 off) := of_opcode 30 rfl (by decide)
theorem sshr (r0 r1 : Reg) (off : Imm) : Statement (.sshr r0 r1 off) := of_opcode 31 rfl (by decide)
theorem int (r1 : Reg) (off : Imm) : Statement (.int r1 off) := of_opcode 32 rfl (by decide)
theorem pmov (r0 : PReg) (r1 : Reg) (off : Imm) : Statement (.pmov r0 r1 off) := of_opcode 33 rfl (by decide)
theorem iret : Statement .iret := of_opcode 34 rfl (by decide)

end Sys2Proof.Laws.WellEncoded
end

