-- ==== Sys2Proof/Laws/Protected.lean ====
section
/-! SUPPORT. What one tick can do to the protected state (10_state.md R27, R29, R37): every case of a step, and every case of a completed
instruction. -/

namespace Sys2Proof.Machine

/-- EFLAGS went from `f` to `g` by at most the condition flags, CARRY and OVERFLOW not cleared (44_alu.md R171). -/
structure FlagsKept (f g : Word) : Prop where
  high : ∀ k, 4 ≤ k → g.getLsbD k = f.getLsbD k
  carry : f.getLsbD 0 = true → g.getLsbD 0 = true
  overflow : f.getLsbD 1 = true → g.getLsbD 1 = true

theorem FlagsKept.refl (f : Word) : FlagsKept f f := ⟨fun _ _ => rfl, id, id⟩

theorem aluFlags_kept (f : Word) (c v : Bool) (result : Word) : FlagsKept f (aluFlags f c v result) := by
  obtain ⟨h0, h1, -, -, h4⟩ := aluFlags_from f c v result
  exact ⟨h4, fun h => h0.mpr (.inl h), fun h => h1.mpr (.inl h)⟩

/-- Every instruction but PMOV and IRET: the latch is kept, and of the protected registers only EFLAGS changes, by its condition flags. -/
structure OrdinaryKeeps (t u : State) : Prop where
  handling : u.handlingInterrupt = t.handlingInterrupt
  regs : { t.p with eflags := u.p.eflags } = u.p
  flags : FlagsKept t.p.eflags u.p.eflags

theorem OrdinaryKeeps.of_same {t u : State} (h : u.handlingInterrupt = t.handlingInterrupt) (hp : u.p = t.p) :
    OrdinaryKeeps t u :=
  ⟨h, by rw [hp], hp ▸ FlagsKept.refl _⟩

theorem OrdinaryKeeps.of_memoryOnly {t u : State} (h : MemoryOnly t u) : OrdinaryKeeps t u :=
  .of_same h.handlingInterrupt h.p

theorem OrdinaryKeeps.finishAlu (t : State) (r0 : Reg) (c v : Bool) (result : Word) :
    OrdinaryKeeps t (finishAlu t r0 c v result) :=
  ⟨rfl, rfl, aluFlags_kept _ _ _ _⟩

/-- What a completed instruction can do to the protected state: an ordinary one, PMOV in privileged mode, IRET in privileged mode. -/
theorem bodyOf_protected {op : Instr} {t u : State} {next : Option Word} (h : bodyOf op t = .ok (u, next)) :
    OrdinaryKeeps t u ∨
    (∃ r r1 off, op = .pmov r r1 off ∧ t.flagPE = false ∧ u = t.setPReg r (t.regPlus r1 off) ∧ next = none) ∨
    (op = .iret ∧ t.flagPE = false ∧ returnFromInterrupt t = .ok (u, next)) := by
  have load : ∀ {n e r0 r1 off}, loadBody n e r0 r1 off t = .ok (u, next) → OrdinaryKeeps t u := by
    intro n e r0 r1 off h
    obtain ⟨v, m, hm, rfl, -⟩ := loadBody_eq_ok.mp h
    have hm := memRead_memoryOnly hm
    exact .of_same hm.handlingInterrupt hm.p
  have store : ∀ {n r0 r1 off}, storeBody n r0 r1 off t = .ok (u, next) → OrdinaryKeeps t u := by
    intro n r0 r1 off h
    exact .of_memoryOnly (memWrite_memoryOnly (storeBody_eq_ok.mp h).1)
  have branch : ∀ {c r1 off}, branchBody c r1 off t = .ok (u, next) → OrdinaryKeeps t u := by
    intro c r1 off h
    simp only [branchBody, Access.ok.injEq, Prod.mk.injEq] at h
    exact h.1 ▸ .of_memoryOnly (MemoryOnly.refl t)
  have alu : ∀ {f c v r0 r1 off}, aluBody f c v r0 r1 off t = .ok (u, next) → OrdinaryKeeps t u := by
    intro f c v r0 r1 off h
    simp only [aluBody, Access.ok.injEq, Prod.mk.injEq] at h
    exact h.1 ▸ .finishAlu ..
  have divide : ∀ {r0 r1 q r}, Access.ok (finishDivide t r0 r1 q r, none) = .ok (u, next) → OrdinaryKeeps t u := by
    intro r0 r1 q r h
    simp only [Access.ok.injEq, Prod.mk.injEq] at h
    exact h.1 ▸ ⟨rfl, rfl, aluFlags_kept _ _ _ _⟩
  cases op with
  | mov r0 r1 off | gef r0 =>
    simp only [bodyOf, movBody, gefBody, Access.ok.injEq, Prod.mk.injEq] at h
    exact .inl (h.1 ▸ .of_same rfl rfl)
  | lb r0 r1 off | lbu r0 r1 off | lh r0 r1 off | lhu r0 r1 off | lw r0 r1 off | lwu r0 r1 off | ld r0 r1 off =>
    simp only [bodyOf] at h
    exact .inl (load h)
  | sb r0 r1 off | sh r0 r1 off | sw r0 r1 off | sd r0 r1 off =>
    simp only [bodyOf] at h
    exact .inl (store h)
  | push r0 off =>
    have hm := memWrite_memoryOnly (pushBody_eq_ok.mp h).1
    exact .inl (.of_same hm.handlingInterrupt hm.p)
  | pop r0 =>
    obtain ⟨v, m, hm, rfl, -⟩ := popBody_eq_ok.mp h
    have hm := memRead_memoryOnly hm
    exact .inl (.of_same hm.handlingInterrupt hm.p)
  | jmp r1 off | jlt r1 off | jgt r1 off | jzr r1 off | jif r0 r1 off =>
    simp only [bodyOf] at h
    exact .inl (branch h)
  | and r0 r1 off | or r0 r1 off | xor r0 r1 off | shl r0 r1 off | shr r0 r1 off | add r0 r1 off | sub r0 r1 off
  | mul r0 r1 off | smul r0 r1 off | sshr r0 r1 off =>
    simp only [bodyOf] at h
    exact .inl (alu h)
  | div r0 r1 off =>
    rcases divBody_cases (r0 := r0) (r1 := r1) (off := off) t with h1 | ⟨q, r, h1⟩ <;> rw [bodyOf, h1] at h
    · cases h
    · exact .inl (divide h)
  | sdiv r0 r1 off =>
    rcases sdivBody_cases (r0 := r0) (r1 := r1) (off := off) t with h1 | ⟨q, r, h1⟩ <;> rw [bodyOf, h1] at h
    · cases h
    · exact .inl (divide h)
  | int r1 off =>
    simp only [bodyOf, intBody] at h
    split at h <;> cases h
  | pmov r0 r1 off =>
    simp only [bodyOf, pmovBody] at h
    split at h
    · cases h
    · rename_i hpe
      simp only [Access.ok.injEq, Prod.mk.injEq] at h
      exact .inr (.inl ⟨r0, r1, off, rfl, by simpa using hpe, h.1.symm, h.2.symm⟩)
  | iret =>
    simp only [bodyOf, iretBody] at h
    split at h
    · cases h
    · rename_i hpe
      exact .inr (.inr ⟨rfl, by simpa using hpe, h⟩)

/-- Every case of a step (60_exceptions.md R228): halted, a hardware interrupt serviced, the decoded instruction's tick, an interrupt
that the fetch or the decoder raises, a fetch out of bounds. -/
theorem step_cases {s u : State} (h : step s = .next u) :
    (s.halted = true ∧ u = s) ∨
    (s.halted = false ∧ acceptsInterrupt s = true ∧ u = serviceInterrupt s) ∨
    (s.halted = false ∧ acceptsInterrupt s = false ∧
      ((∃ op, s.executes op ∧ u = tickState s (bodyOf op)) ∨
        (∃ j, (j = unknownOpcodeFault ∨ fetch s = .raise j) ∧ u = takeInterrupt s j) ∨ u = dropTick s)) := by
  unfold step at h
  split at h
  · rename_i h1
    cases h
    exact .inl ⟨h1, rfl⟩
  · rename_i h1
    have h1 : s.halted = false := by simpa using h1
    split at h
    · rename_i h2
      cases h
      exact .inr (.inl ⟨h1, h2, rfl⟩)
    · rename_i h2
      have h2 : acceptsInterrupt s = false := by simpa using h2
      refine .inr (.inr ⟨h1, h2, ?_⟩)
      split at h
      · rename_i f hf
        split at h
        · rename_i op hd
          rw [exec_eq_next] at h
          cases h
          exact .inl ⟨op, ⟨h1, h2, f.1, f.2, hf, hd⟩, rfl⟩
        · cases h
          exact .inr (.inl ⟨_, .inl rfl, rfl⟩)
      · rename_i j hf
        cases h
        exact .inr (.inl ⟨j, .inr hf, rfl⟩)
      · cases h
        exact .inr (.inr rfl)

/-- Everything taking an interrupt can do to the state outside memory, once the core has not double-faulted: the tick is undone, or the
handler is entered. -/
theorem takeInterruptFrom_running {start base u : State} {j : Interrupt} (h : takeInterruptFrom start base j = u)
    (hh : u.halted = false) :
    u = dropTick start ∨
      (base.handlingInterrupt = false ∧
        ∃ v, u = { enterRegisters { base with lastInt := j } with mem := u.mem, ip := v } ∧ u.mem.size = base.mem.size ∧
          (base.mem.wf = true → u.mem.wf = true)) := by
  rcases takeInterruptFrom_cases start base j with h1 | ⟨k, h1, -⟩ | ⟨h1, v, hv, h2⟩
  · exact .inl (h ▸ h1)
  · rw [h] at h1
    rw [h1] at hh
    cases hh
  · rw [h] at h2
    subst h2
    exact .inr ⟨h1, enterHandler_state hv⟩

end Sys2Proof.Machine
end

