-- ==== Sys2Proof/Laws/Reserved.lean ====
section
/-! SUPPORT. A reserved protected register passes through every operation (10_state.md R35): each operation on a state with another value in
it does what it does on the state itself, and keeps the value. -/

namespace Sys2Proof.Machine

/-- The outcome with its value mapped. -/
def Access.map {α β : Type} (f : α → β) (m : Access α) : Access β := m.andThen fun a => .ok (f a)

@[simp] theorem Access.map_ok {α β : Type} (f : α → β) (a : α) : (Access.ok a).map f = .ok (f a) := rfl
@[simp] theorem Access.map_raise {α β : Type} (f : α → β) (j : Interrupt) : (Access.raise j : Access α).map f = .raise j := rfl
@[simp] theorem Access.map_bounds {α β : Type} (f : α → β) : (Access.bounds : Access α).map f = .bounds := rfl

theorem Access.map_andThen {α β γ : Type} (f : α → β) (m : Access α) (g : β → Access γ) :
    (m.map f).andThen g = m.andThen fun a => g (f a) := by
  cases m <;> rfl

theorem Access.andThen_map {α β γ : Type} (m : Access α) (g : α → Access β) (f : β → γ) :
    (m.andThen g).map f = m.andThen fun a => (g a).map f := by
  cases m <;> rfl

theorem Access.andThen_congr {α β : Type} {m : Access α} {g h : α → Access β} (e : ∀ a, g a = h a) :
    m.andThen g = m.andThen h := by
  rw [funext e]

section
variable {r : PReg} (hr : reservedPReg r) (v : Word)
include hr

theorem reserved_ne : r ≠ .eflags ∧ r ≠ .usp ∧ r ≠ .psp ∧ r ≠ .ijt ∧ r ≠ .rpt := by
  simpa [reservedPReg] using hr

theorem reserved_fields (p : PRegs) : (p.set r v).eflags = p.eflags ∧ (p.set r v).usp = p.usp ∧ (p.set r v).psp = p.psp ∧
    (p.set r v).ijt = p.ijt ∧ (p.set r v).rpt = p.rpt := by
  obtain ⟨h1, h2, h3, h4, h5⟩ := reserved_ne hr
  refine ⟨PRegs.get_set_ne p v h1.symm, PRegs.get_set_ne p v h2.symm, PRegs.get_set_ne p v h3.symm, PRegs.get_set_ne p v h4.symm,
    PRegs.get_set_ne p v h5.symm⟩

theorem reserved_p_eflags (s : State) : (s.setPReg r v).p.eflags = s.p.eflags := (reserved_fields hr v s.p).1
theorem reserved_p_usp (s : State) : (s.setPReg r v).p.usp = s.p.usp := (reserved_fields hr v s.p).2.1
theorem reserved_p_psp (s : State) : (s.setPReg r v).p.psp = s.p.psp := (reserved_fields hr v s.p).2.2.1
theorem reserved_p_ijt (s : State) : (s.setPReg r v).p.ijt = s.p.ijt := (reserved_fields hr v s.p).2.2.2.1
theorem reserved_p_rpt (s : State) : (s.setPReg r v).p.rpt = s.p.rpt := (reserved_fields hr v s.p).2.2.2.2

theorem reserved_flagPE (s : State) : (s.setPReg r v).flagPE = s.flagPE := by
  rw [State.flagPE, reserved_p_eflags hr, State.flagPE]
theorem reserved_flagPG (s : State) : (s.setPReg r v).flagPG = s.flagPG := by
  rw [State.flagPG, reserved_p_eflags hr, State.flagPG]
theorem reserved_flagIE (s : State) : (s.setPReg r v).flagIE = s.flagIE := by
  rw [State.flagIE, reserved_p_eflags hr, State.flagIE]
theorem reserved_flagN (s : State) : (s.setPReg r v).flagN = s.flagN := by
  rw [State.flagN, reserved_p_eflags hr, State.flagN]
theorem reserved_flagZ (s : State) : (s.setPReg r v).flagZ = s.flagZ := by
  rw [State.flagZ, reserved_p_eflags hr, State.flagZ]

omit hr in
theorem setPReg_regPlus (s : State) (q : Reg) (off : Imm) : (s.setPReg r v).regPlus q off = s.regPlus q off := rfl

omit hr in
theorem setPReg_setReg (s : State) (q : Reg) (w : Word) : (s.setPReg r v).setReg q w = (s.setReg q w).setPReg r v := rfl

omit hr in
theorem setPReg_comm (s : State) {q : PReg} (h : q ≠ r) (w : Word) :
    (s.setPReg r v).setPReg q w = (s.setPReg q w).setPReg r v := by
  have e : (s.p.set r v).set q w = (s.p.set q w).set r v := by
    apply PRegs.ext_get
    intro n
    simp only [PRegs.get_set]
    by_cases h1 : n = q
    · subst h1
      simp [h]
    · simp [h1]
  simp only [State.setPReg, e]

/-! ### Accesses -/

omit hr in
theorem reserved_physRead (s : State) (pa : Addr) (n : Nat) : physRead (s.setPReg r v) pa n = physRead s pa n := rfl

omit hr in
theorem reserved_physWrite (s : State) (pa : Addr) (n : Nat) (w : Word) :
    physWrite (s.setPReg r v) pa n w = (physWrite s pa n w).map (·.setPReg r v) := by
  unfold physWrite
  split <;> split <;> first | rfl | contradiction

theorem reserved_walk (s : State) (la : Addr) (write jump : Bool) :
    walk (s.setPReg r v) la write jump = (walk s la write jump).map fun q => (q.1, q.2.setPReg r v) := by
  have h1 : rootEntryAddr (s.setPReg r v) la = rootEntryAddr s la := by
    rw [rootEntryAddr, reserved_p_rpt hr, rootEntryAddr]
  have h2 : ∀ e, checkEntry (s.setPReg r v) e la write jump = checkEntry s e la write jump := by
    intro e
    rw [checkEntry, reserved_flagPE hr, checkEntry]
  have h3 : ∀ pa, readEntry (s.setPReg r v) pa = readEntry s pa := fun _ => rfl
  simp only [walk, h1, h2, h3, writeEntry, reserved_physWrite, Access.andThen_map, Access.map_andThen, Access.map_ok]

theorem reserved_resolve (s : State) (la : Addr) (write jump : Bool) :
    resolve (s.setPReg r v) la write jump = (resolve s la write jump).map fun q => (q.1, q.2.setPReg r v) := by
  unfold resolve
  rw [reserved_flagPG hr]
  split
  · exact reserved_walk hr v s la write jump
  · rfl

theorem reserved_memRead (s : State) (addr : Word) (n : Nat) :
    memRead (s.setPReg r v) addr n = (memRead s addr n).map fun q => (q.1, q.2.setPReg r v) := by
  simp only [memRead, reserved_resolve hr, reserved_physRead, Access.andThen_map, Access.map_andThen, Access.map_ok]

theorem reserved_memWrite (s : State) (addr : Word) (n : Nat) (w : Word) :
    memWrite (s.setPReg r v) addr n w = (memWrite s addr n w).map (·.setPReg r v) := by
  simp only [memWrite, reserved_resolve hr, reserved_physWrite, Access.andThen_map, Access.map_andThen]

theorem reserved_fetch (s : State) : fetch (s.setPReg r v) = (fetch s).map fun q => (q.1, q.2.setPReg r v) := by
  simp only [fetch, State.setPReg_ip, reserved_resolve hr, reserved_physRead, Access.andThen_map, Access.map_andThen, Access.map_ok]

/-! ### Entry and return -/

theorem reserved_enterRegisters (s : State) : enterRegisters (s.setPReg r v) = (enterRegisters s).setPReg r v := by
  obtain ⟨h1, h2, h3, h4, h5⟩ := reserved_ne hr
  cases r <;> first | rfl | contradiction

theorem reserved_enterHandler (s : State) (code : BitVec 8) :
    enterHandler (s.setPReg r v) code = (enterHandler s code).map (·.setPReg r v) := by
  have e1 : savedIP (s.setPReg r v) code = savedIP s code := rfl
  have e2 : vectorAddr (s.setPReg r v) code = vectorAddr s code := by rw [vectorAddr, reserved_p_ijt hr, vectorAddr]
  simp only [enterHandler, reserved_enterRegisters hr, reserved_p_psp hr, reserved_p_eflags hr, e1, e2, reserved_physWrite,
    reserved_memRead hr, Access.andThen_map, Access.map_andThen, Access.map_ok]
  rfl

/-- Taking an interrupt, unless it ends in a double fault. -/
theorem reserved_takeInterruptFrom (start base : State) (j : Interrupt) (h : (takeInterruptFrom start base j).halted = false) :
    takeInterruptFrom (start.setPReg r v) (base.setPReg r v) j = (takeInterruptFrom start base j).setPReg r v := by
  cases hh : base.handlingInterrupt with
  | true =>
    rw [takeInterruptFrom_handling hh] at h
    cases h
  | false =>
    have e : enterHandler { base.setPReg r v with lastInt := j } j.code =
        (enterHandler { base with lastInt := j } j.code).map (·.setPReg r v) :=
      reserved_enterHandler hr v { base with lastInt := j } j.code
    cases he : enterHandler { base with lastInt := j } j.code with
    | ok u =>
      rw [he] at e
      rw [takeInterruptFrom_ok hh he, takeInterruptFrom_ok (by exact hh) e]
    | raise k =>
      rw [takeInterruptFrom_raise hh he] at h
      cases h
    | bounds =>
      rw [he] at e
      rw [takeInterruptFrom_bounds hh he, takeInterruptFrom_bounds (by exact hh) e]
      rfl

theorem reserved_returnFromInterrupt (s : State) :
    returnFromInterrupt (s.setPReg r v) = (returnFromInterrupt s).map fun q => (q.1.setPReg r v, q.2) := by
  obtain ⟨h1, h2, h3, h4, h5⟩ := reserved_ne hr
  simp only [returnFromInterrupt, reserved_physRead, State.setPReg_x, Access.andThen_map, Access.map_ok, reserved_p_usp hr]
  cases r <;> first | rfl | contradiction

/-! ### Instructions -/

theorem reserved_finishAlu (t : State) (r0 : Reg) (c o : Bool) (result : Word) :
    finishAlu (t.setPReg r v) r0 c o result = (finishAlu t r0 c o result).setPReg r v := by
  rw [finishAlu, reserved_p_eflags hr, setPReg_comm v t (reserved_ne hr).1.symm, setPReg_setReg, finishAlu]

theorem reserved_finishDivide (t : State) (r0 r1 : Reg) (q m : Word) :
    finishDivide (t.setPReg r v) r0 r1 q m = (finishDivide t r0 r1 q m).setPReg r v := by
  rw [finishDivide, setPReg_setReg, reserved_finishAlu hr, finishDivide]

/-- Every instruction but the PMOV that names the register. -/
theorem reserved_bodyOf (op : Instr) (h : ∀ r1 off, op ≠ .pmov r r1 off) (t : State) :
    bodyOf op (t.setPReg r v) = (bodyOf op t).map fun q => (q.1.setPReg r v, q.2) := by
  have load : ∀ n e r0 r1 off, loadBody n e r0 r1 off (t.setPReg r v) =
      (loadBody n e r0 r1 off t).map fun q => (q.1.setPReg r v, q.2) := by
    intro n e r0 r1 off
    simp only [loadBody, setPReg_regPlus, reserved_memRead hr, Access.andThen_map, Access.map_andThen, Access.map_ok, setPReg_setReg]
  have store : ∀ n r0 r1 off, storeBody n r0 r1 off (t.setPReg r v) =
      (storeBody n r0 r1 off t).map fun q => (q.1.setPReg r v, q.2) := by
    intro n r0 r1 off
    simp only [storeBody, setPReg_regPlus, State.reg_setPReg, reserved_memWrite hr, Access.andThen_map, Access.map_andThen,
      Access.map_ok]
  have alu : ∀ f c o r0 r1 off, aluBody f c o r0 r1 off (t.setPReg r v) =
      (aluBody f c o r0 r1 off t).map fun q => (q.1.setPReg r v, q.2) := by
    intro f c o r0 r1 off
    simp only [aluBody, setPReg_regPlus, State.reg_setPReg, reserved_finishAlu hr, Access.map_ok]
  cases op with
  | mov | gef =>
    simp only [bodyOf, movBody, gefBody, reserved_p_eflags hr, Access.map_ok]
    rfl
  | lb r0 r1 off | lbu r0 r1 off | lh r0 r1 off | lhu r0 r1 off | lw r0 r1 off | lwu r0 r1 off | ld r0 r1 off =>
    simp only [bodyOf]
    exact load ..
  | sb r0 r1 off | sh r0 r1 off | sw r0 r1 off | sd r0 r1 off =>
    simp only [bodyOf]
    exact store ..
  | push r0 off =>
    simp only [bodyOf, pushBody, State.reg_setPReg, setPReg_setReg, setPReg_regPlus, reserved_memWrite hr, Access.andThen_map,
      Access.map_andThen, Access.map_ok]
  | pop r0 =>
    simp only [bodyOf, popBody, State.reg_setPReg, setPReg_setReg, reserved_memRead hr, Access.andThen_map, Access.map_andThen,
      Access.map_ok]
  | jmp | jlt | jgt | jzr | jif =>
    simp only [bodyOf, branchBody, reserved_flagN hr, reserved_flagZ hr, State.reg_setPReg, setPReg_regPlus, Access.map_ok]
    try rfl
  | and r0 r1 off | or r0 r1 off | xor r0 r1 off | shl r0 r1 off | shr r0 r1 off | add r0 r1 off | sub r0 r1 off
  | mul r0 r1 off | smul r0 r1 off | sshr r0 r1 off =>
    simp only [bodyOf]
    exact alu ..
  | div r0 r1 off =>
    simp only [bodyOf, divBody, State.reg_setPReg, setPReg_regPlus, reserved_finishDivide hr]
    split <;> rfl
  | sdiv r0 r1 off =>
    simp only [bodyOf, sdivBody, State.reg_setPReg, setPReg_regPlus, reserved_finishDivide hr]
    split
    · rfl
    · split
      · cases Config.sdivOverflow <;> rfl
      · rfl
  | int r1 off =>
    simp only [bodyOf, intBody, setPReg_regPlus]
    by_cases hc : isSoftwareCode (t.regPlus r1 off) = true
    · simp only [hc, if_true, Access.map_raise]
    · simp only [hc, if_false, Access.map_raise, Bool.false_eq_true]
  | pmov r0 r1 off =>
    have hne : r0 ≠ r := by
      rintro rfl
      exact h r1 off rfl
    simp only [bodyOf, pmovBody, reserved_flagPE hr, setPReg_regPlus, setPReg_comm v t hne]
    split <;> rfl
  | iret =>
    simp only [bodyOf, iretBody, reserved_flagPE hr, reserved_returnFromInterrupt hr]
    split <;> rfl

end

end Sys2Proof.Machine
end

