-- ==== Sys2Proof/Tests/Slice0.lean ====
section
/-! SUPPORT. The model's own tests. Expected results come from the spec: the words are its encodings (30_encoding.md R101, R105), the numbers
its test vectors (95_test_vectors.md, cited by id) or its rules' examples. The last part shows, for every statement with hypotheses, a concrete
state and operands that meet them, at the boundaries of their ranges. -/

-- The tests elaborate one after another: each parallel one would reserve a stack of its own.
set_option Elab.async false

namespace Sys2Proof.Tests

open Sys2Proof Sys2Proof.Machine

/-! ### Helpers -/

/-- Reset state of the vectors with the given bytes of memory and instruction word at IP (95_test_vectors.md, conventions). -/
def start (size : Nat) (ip : Word) (w : InstrWord) (bytes : List (Nat × Byte) := []) : State :=
  storeFetchWord (State.resetWith (bytes.foldl (fun m b => m.write b.1 b.2) { size := size, cells := [] }) ip) w

/-- The state with general registers set. -/
def withRegs (s : State) (regs : List (Reg × Word)) : State := regs.foldl (fun s r => s.setReg r.1 r.2) s

/-- The state with protected registers set. -/
def withPRegs (s : State) (regs : List (PReg × Word)) : State := regs.foldl (fun s r => s.setPReg r.1 r.2) s

/-- The state after one tick. -/
def tick (s : State) : State :=
  match step s with
  | .next t => t
  | _ => s

/-- What the fetch of the tick leaves. -/
def fetched (s : State) : State :=
  match fetch s with
  | .ok f => f.2
  | _ => s

/-- The bytes of memory from an address on. -/
def bytesAt (s : State) (a n : Nat) : List Byte := (List.range n).map fun k => s.mem.read (a + k)

/-- One instruction word at 0 in 0x1000 bytes. -/
def one (w : InstrWord) (regs : List (Reg × Word)) : State := withRegs (start 0x1000 0#64 w) regs

/-- The start of the ALU vectors: A, B and EFLAGS. -/
def alu (w : InstrWord) (a b flags : Word) : State := withPRegs (one w [(.a, a), (.b, b)]) [(.eflags, flags)]

/-- What the ALU vectors read: A, B and EFLAGS after the tick. -/
def aluAfter (s : State) : Word × Word × Word := ((tick s).reg .a, (tick s).reg .b, (tick s).p.eflags)

/-- The start of the load vectors V10 to V22. -/
def loadStart (w : InstrWord) : State :=
  start 0x1000 0#64 w [(0x100, 0xFE#8), (0x101, 0xFF#8), (0x102, 0xFF#8), (0x103, 0xFF#8), (0x104, 1#8), (0x105, 2#8),
    (0x106, 3#8), (0x107, 0x80#8)]

/-- The start of the system vectors V130 to V154. -/
def system (w : InstrWord) (flags : Word) : State :=
  withPRegs (withRegs (start 0x1000 0x100#64 w [(0x800, 0x10#8), (0x808, 0x20#8), (0x810, 0x30#8), (0x900, 0x50#8),
    (0xD00, 0x60#8), (0xFF8, 0x70#8)]) [(.sp, 0x600#64)]) [(.psp, 0x700#64), (.ijt, 0x800#64), (.eflags, flags)]

/-- User mode, interrupt enable, translation (10_state.md R28). -/
def pe : Word := 0x8000000000000000#64
@[inherit_doc pe] def ie : Word := 0x2000000000000000#64
@[inherit_doc pe] def pg : Word := 0x4000000000000000#64

/-- The start of the translator vectors V70 to V84: the two entries at their byte offsets. -/
def paged (root page : Entry) (flags : Word) : State :=
  let m : Memory := { size := 0x8000, cells := [] }
  withPRegs (State.resetWith ((m.writeLE 0x1001 (root.setWidth 64) 4).writeLE 0x3002 (page.setWidth 64) 4) 0x402ABC#64)
    [(.rpt, 0x1000#64), (.eflags, flags)]

/-- A successful translation's address, and the two entries it left. -/
def walkOutcome (s : State) (write jump : Bool) : Option (Addr × Entry × Entry) :=
  match resolve s 0x402ABC#32 write jump with
  | .ok r => some (r.1, fourBytes r.2.mem 0x1001, fourBytes r.2.mem 0x3002)
  | _ => none

/-- Logical page 0 mapped to itself by the entries at 0x1000 and 0x2000 (V57, V85, V86, V155), with PG = 1, the word at 0x100. -/
def mapped (w : InstrWord) (root page : Entry) (flags : Word) : State :=
  let m : Memory := { size := 0x8000, cells := [] }
  let m := ((m.writeLE 0x1000 (root.setWidth 64) 4).writeLE 0x2000 (page.setWidth 64) 4).writeLE 0x800 0x40#64 4
  withPRegs (withRegs (State.resetWith (m.writeLE 0x100 (w.setWidth 64) 4) 0x100#64) [(.sp, 0x600#64)])
    [(.rpt, 0x1000#64), (.psp, 0x700#64), (.ijt, 0x800#64), (.eflags, flags)]

/-! ### WellFormed: an ill-formed term for each check -/

theorem test_wellFormed_accepts : (RawFields.mk 34 15 15 (-32768)).wellFormed = true ∧ (RawFields.mk 0 0 0 32767).wellFormed = true := by
  decide

theorem test_wellFormed_refuses_wide_opcode : (RawFields.mk 256 0 0 0).opcodeFits = false ∧ (RawFields.mk 256 0 0 0).wellFormed = false := by
  decide

theorem test_wellFormed_refuses_register_16 : (RawFields.mk 0 16 0 0).registersFit = false ∧ (RawFields.mk 0 0 16 0).registersFit = false ∧
    (RawFields.mk 0 16 0 0).wellFormed = false ∧ (RawFields.mk 0 0 16 0).wellFormed = false := by
  decide

/-- The source's own 0xABCD does not fit a signed 16-bit field (S2, 90_conflicts.md C2). -/
theorem test_wellFormed_refuses_wide_offset : (RawFields.mk 0 0 15 0xABCD).offsetFits = false ∧ (RawFields.mk 0 0 15 32768).wellFormed = false ∧
    (RawFields.mk 0 0 15 (-32769)).wellFormed = false := by
  decide

theorem test_wellFormed_refuses_undefined_opcode : (RawFields.mk 35 0 0 0).opcodeDefined = false ∧ (RawFields.mk 35 0 0 0).encodable = true ∧
    (RawFields.mk 35 0 0 0).wellFormed = false := by
  decide

/-! ### Decoding: one word of each constructor, written out from its encoding -/

theorem test_decode_mov : decode 0x000F002A#32 = .instr (.mov .a .z 0x002A#16) := by decide

theorem test_decode_gef : decode 0x01071234#32 = .instr (.gef .a) := by decide

theorem test_decode_lb : decode 0x021F0107#32 = .instr (.lb .b .z 0x0107#16) := by decide

theorem test_decode_lbu : decode 0x031F0100#32 = .instr (.lbu .b .z 0x0100#16) := by decide

theorem test_decode_lh : decode 0x041F0106#32 = .instr (.lh .b .z 0x0106#16) := by decide

theorem test_decode_lhu : decode 0x051F0100#32 = .instr (.lhu .b .z 0x0100#16) := by decide

theorem test_decode_lw : decode 0x061F0101#32 = .instr (.lw .b .z 0x0101#16) := by decide

theorem test_decode_lwu : decode 0x071F0100#32 = .instr (.lwu .b .z 0x0100#16) := by decide

theorem test_decode_ld : decode 0x0810FFF8#32 = .instr (.ld .b .a 0xFFF8#16) := by decide

theorem test_decode_sb : decode 0x09FF0101#32 = .instr (.sb .z .z 0x0101#16) := by decide

theorem test_decode_sh : decode 0x0A0F0100#32 = .instr (.sh .a .z 0x0100#16) := by decide

theorem test_decode_sw : decode 0x0B0F0100#32 = .instr (.sw .a .z 0x0100#16) := by decide

theorem test_decode_sd : decode 0x0C0F0FFC#32 = .instr (.sd .a .z 0x0FFC#16) := by decide

theorem test_decode_push : decode 0x0D200001#32 = .instr (.push .c 0x0001#16) := by decide

theorem test_decode_pop : decode 0x0E497777#32 = .instr (.pop .e) := by decide

theorem test_decode_jmp : decode 0x0F0BFFFC#32 = .instr (.jmp .x 0xFFFC#16) := by decide

theorem test_decode_jlt : decode 0x100F0040#32 = .instr (.jlt .z 0x0040#16) := by decide

theorem test_decode_jgt : decode 0x110F0040#32 = .instr (.jgt .z 0x0040#16) := by decide

theorem test_decode_jzr : decode 0x120F0020#32 = .instr (.jzr .z 0x0020#16) := by decide

theorem test_decode_jif : decode 0x131F0008#32 = .instr (.jif .b .z 0x0008#16) := by decide

theorem test_decode_and : decode 0x140F0FF0#32 = .instr (.and .a .z 0x0FF0#16) := by decide

theorem test_decode_or : decode 0x150F000F#32 = .instr (.or .a .z 0x000F#16) := by decide

theorem test_decode_xor : decode 0x160FFFFF#32 = .instr (.xor .a .z 0xFFFF#16) := by decide

theorem test_decode_shl : decode 0x170F003F#32 = .instr (.shl .a .z 0x003F#16) := by decide

theorem test_decode_shr : decode 0x180F003F#32 = .instr (.shr .a .z 0x003F#16) := by decide

theorem test_decode_add : decode 0x191FFFFF#32 = .instr (.add .b .z 0xFFFF#16) := by decide

theorem test_decode_sub : decode 0x1AF00000#32 = .instr (.sub .z .a 0x0000#16) := by decide

theorem test_decode_mul : decode 0x1B010000#32 = .instr (.mul .a .b 0x0000#16) := by decide

theorem test_decode_smul : decode 0x1C0FFFFE#32 = .instr (.smul .a .z 0xFFFE#16) := by decide

theorem test_decode_div : decode 0x1D010001#32 = .instr (.div .a .b 0x0001#16) := by decide

theorem test_decode_sdiv : decode 0x1E010000#32 = .instr (.sdiv .a .b 0x0000#16) := by decide

theorem test_decode_sshr : decode 0x1F0F003F#32 = .instr (.sshr .a .z 0x003F#16) := by decide

theorem test_decode_int : decode 0x207F00A0#32 = .instr (.int .z 0x00A0#16) := by decide

theorem test_decode_pmov : decode 0x21208000#32 = .instr (.pmov .psp .a 0x8000#16) := by decide

theorem test_decode_iret : decode 0x22000000#32 = .instr .iret := by decide

theorem test_decode_rejects_35_and_255 : decode 0x23000000#32 = .rejected (.unknownOpcode 0x23#8) ∧
    decode 0xFFFFFFFF#32 = .rejected (.unknownOpcode 0xFF#8) := by
  decide

/-- A reserved high bit of the opcode is not masked off (30_encoding.md R107). -/
theorem test_decode_rejects_reserved_bit : decode 0x400F002A#32 = .rejected (.unknownOpcode 0x40#8) := by decide

/-- V120 to V123: the words of the fields, and their bytes. -/
theorem test_encode_bytes : encodeBytes (.add .b .z 0xFFFF#16) = [0xFF#8, 0xFF#8, 0x1F#8, 0x19#8] ∧
    encodeBytes (.mov .a .z 42#16) = [0x2A#8, 0x00#8, 0x0F#8, 0x00#8] ∧ encodeBytes (.ld .e .sp 8#16) = [0x08#8, 0x00#8, 0x4D#8, 0x08#8] ∧
    encodeBytes (.pmov .psp .a 0x8000#16) = [0x00#8, 0x80#8, 0x20#8, 0x21#8] := by
  decide

theorem test_decodeBytes_short : decodeBytes [0x2A#8, 0x00#8, 0x0F#8] = (.rejected .truncated, [0x2A#8, 0x00#8, 0x0F#8]) := by decide

/-- S1 through the host's interface: after one tick from reset, A = 42 and IP = 4. -/
theorem test_fetchWord_runs : decodeTableWord 32 0x000F002A = some (.mov .a .z 42#16) ∧
    (tick (State.reset.withFetchWord 32 0x000F002A)).reg .a = 42#64 ∧ (tick (State.reset.withFetchWord 32 0x000F002A)).ip = 4#64 := by
  decide +kernel

/-! ### One tick of each instruction -/

/-- V5. -/
theorem test_mov_wraps : (tick (one 0x00000001#32 [(.a, 0xFFFFFFFFFFFFFFFF#64)])).reg .a = 0#64 ∧ (tick (one 0x00000001#32 [(.a, 0xFFFFFFFFFFFFFFFF#64)])).p.eflags = 0#64 := by
  decide +kernel

/-- V3: nothing but IP changes. -/
theorem test_mov_discards_to_z : tick (one 0x00F00005#32 [(.a, 7#64)]) = { one 0x00F00005#32 [(.a, 7#64)] with ip := 4#64 } := by
  decide +kernel

/-- V8. -/
theorem test_gef_in_user_mode : (tick (alu 0x01071234#32 0#64 0#64 0xA000000000000009#64)).reg .a = 0xA000000000000009#64 := by
  decide +kernel

/-- V17. -/
theorem test_lb_sign : (tick (loadStart 0x021F0107#32)).reg .b = 0xFFFFFFFFFFFFFF80#64 := by
  decide +kernel

/-- V11. -/
theorem test_lbu : (tick (loadStart 0x031F0100#32)).reg .b = 0xFE#64 := by
  decide +kernel

/-- V18. -/
theorem test_lh_sign : (tick (loadStart 0x041F0106#32)).reg .b = 0xFFFFFFFFFFFF8003#64 := by
  decide +kernel

/-- V13. -/
theorem test_lhu : (tick (loadStart 0x051F0100#32)).reg .b = 0xFFFE#64 := by
  decide +kernel

/-- V19. -/
theorem test_lw_sign : (tick (loadStart 0x061F0104#32)).reg .b = 0xFFFFFFFF80030201#64 := by
  decide +kernel

/-- V20. -/
theorem test_lw_misaligned : (tick (loadStart 0x061F0101#32)).reg .b = 0x01FFFFFF#64 := by
  decide +kernel

/-- V15. -/
theorem test_lwu : (tick (loadStart 0x071F0100#32)).reg .b = 0xFFFFFFFE#64 := by
  decide +kernel

/-- V16. -/
theorem test_ld : (tick (loadStart 0x081F0100#32)).reg .b = 0x80030201FFFFFFFE#64 := by
  decide +kernel

/-- V23. -/
theorem test_ld_out_of_bounds : tick (one 0x080F0FF9#32 []) = { one 0x080F0FF9#32 [] with ip := 4#64 } := by
  decide +kernel

/-- V30. -/
theorem test_sb : bytesAt (tick (one 0x090F0100#32 [(.a, 0x1234#64)])) 0x100 2 = [0x34#8, 0x00#8] := by
  decide +kernel

/-- V31. -/
theorem test_sh : bytesAt (tick (one 0x0A0F0100#32 [(.a, 0x1234#64)])) 0x100 3 = [0x34#8, 0x12#8, 0x00#8] := by
  decide +kernel

/-- V32. -/
theorem test_sw : bytesAt (tick (one 0x0B0F0100#32 [(.a, 0xFFFFFFFFFFFFFFFE#64)])) 0x100 5 = [0xFE#8, 0xFF#8, 0xFF#8, 0xFF#8, 0x00#8] := by
  decide +kernel

/-- V33. -/
theorem test_sd : bytesAt (tick (one 0x0C0F0100#32 [(.a, 0x2BCD#64)])) 0x100 8 = [0xCD#8, 0x2B#8, 0#8, 0#8, 0#8, 0#8, 0#8, 0#8] := by
  decide +kernel

/-- V34. -/
theorem test_sd_out_of_bounds : tick (one 0x0C0F0FFC#32 [(.a, 0x55#64)]) = { one 0x0C0F0FFC#32 [(.a, 0x55#64)] with ip := 4#64 } := by
  decide +kernel

/-- V50. -/
theorem test_push : (tick (one 0x0D200001#32 [(.sp, 0x200#64), (.c, 0xFFFFFFFE#64)])).reg .sp = 0x1F8#64 ∧
    bytesAt (tick (one 0x0D200001#32 [(.sp, 0x200#64), (.c, 0xFFFFFFFE#64)])) 0x1F8 8 = [0xFF#8, 0xFF#8, 0xFF#8, 0xFF#8, 0#8, 0#8, 0#8, 0#8] := by
  decide +kernel

/-- V52: the decremented SP. -/
theorem test_push_sp : bytesAt (tick (one 0x0DD00000#32 [(.sp, 0x200#64)])) 0x1F8 2 = [0xF8#8, 0x01#8] := by
  decide +kernel

/-- After V51. -/
theorem test_pop : (tick (withRegs (start 0x1000 0#64 0x0E400000#32 [(0x1F8, 0xFF#8)]) [(.sp, 0x1F8#64)])).reg .e = 0xFF#64 ∧
    (tick (withRegs (start 0x1000 0#64 0x0E400000#32 [(0x1F8, 0xFF#8)]) [(.sp, 0x1F8#64)])).reg .sp = 0x200#64 := by
  decide +kernel

/-- V53. -/
theorem test_pop_sp : (tick (withRegs (start 0x1000 0#64 0x0ED00000#32 [(0x201, 0x03#8)]) [(.sp, 0x200#64)])).reg .sp = 0x308#64 := by
  decide +kernel

/-- V118. -/
theorem test_jmp : (tick (one 0x0F0BFFFC#32 [(.x, 0x104#64)])).ip = 0x100#64 := by
  decide +kernel

/-- V113. -/
theorem test_jlt : (tick (alu 0x100F0040#32 0#64 0#64 8#64)).ip = 0x40#64 ∧
    (tick (alu 0x100F0040#32 0#64 0#64 0#64)).ip = 4#64 := by
  decide +kernel

/-- V114, V119a. -/
theorem test_jgt : (tick (alu 0x110F0040#32 0#64 0#64 3#64)).ip = 0x40#64 ∧
    (tick (alu 0x110F0040#32 0#64 0#64 4#64)).ip = 4#64 ∧
    (tick (alu 0x110F0040#32 0#64 0#64 8#64)).ip = 4#64 := by
  decide +kernel

/-- V115. -/
theorem test_jzr : (tick (alu 0x120F0040#32 0#64 0#64 4#64)).ip = 0x40#64 ∧
    (tick (alu 0x120F0040#32 0#64 0#64 0#64)).ip = 4#64 := by
  decide +kernel

/-- V116, V117. -/
theorem test_jif : (tick (one 0x131F0008#32 [(.b, 3#64)])).ip = 8#64 ∧ (tick (one 0x131F0008#32 [])).ip = 4#64 ∧ (tick (one 0x13FF0008#32 [])).ip = 4#64 := by
  decide +kernel

/-- V60. -/
theorem test_and : aluAfter (alu 0x140F0FF0#32 0xF0F0#64 0x0#64 0x0#64) = (0xF0#64, 0x0#64, 0x0#64) := by
  decide +kernel

/-- V61. -/
theorem test_or : aluAfter (alu 0x150F000F#32 0xF000#64 0x0#64 0x0#64) = (0xF00F#64, 0x0#64, 0x0#64) := by
  decide +kernel

/-- V62. -/
theorem test_xor_not : aluAfter (alu 0x160FFFFF#32 0xFF#64 0x0#64 0x0#64) = (0xFFFFFFFFFFFFFF00#64, 0x0#64, 0x8#64) := by
  decide +kernel

/-- V63. -/
theorem test_xor_self : aluAfter (alu 0x16000000#32 0x1234#64 0x0#64 0x0#64) = (0x0#64, 0x0#64, 0x4#64) := by
  decide +kernel

/-- V64. -/
theorem test_shl : aluAfter (alu 0x170F003F#32 0x1#64 0x0#64 0x0#64) = (0x8000000000000000#64, 0x0#64, 0x8#64) := by
  decide +kernel

/-- V65. -/
theorem test_shl_64 : aluAfter (alu 0x170F0040#32 0x8000000000000000#64 0x0#64 0x0#64) = (0x8000000000000000#64, 0x0#64, 0x8#64) := by
  decide +kernel

/-- V67. -/
theorem test_shr : aluAfter (alu 0x180F003F#32 0x8000000000000000#64 0x0#64 0x0#64) = (0x1#64, 0x0#64, 0x0#64) := by
  decide +kernel

/-- V69. -/
theorem test_sshr : aluAfter (alu 0x1F0F003F#32 0x8000000000000000#64 0x0#64 0x0#64) = (0xFFFFFFFFFFFFFFFF#64, 0x0#64, 0x8#64) := by
  decide +kernel

/-- V69a. -/
theorem test_sshr_positive : aluAfter (alu 0x1F0F0004#32 0x7FF0#64 0x0#64 0x0#64) = (0x7FF#64, 0x0#64, 0x0#64) := by
  decide +kernel

/-- V89. -/
theorem test_add_carry_and_overflow : aluAfter (alu 0x190FFFFF#32 0x8000000000000000#64 0x0#64 0x0#64) = (0x7FFFFFFFFFFFFFFF#64, 0x0#64, 0x3#64) := by
  decide +kernel

/-- V90. -/
theorem test_add_sticky : aluAfter (alu 0x190F0001#32 0x1#64 0x0#64 0x3#64) = (0x2#64, 0x0#64, 0x3#64) := by
  decide +kernel

/-- V95. -/
theorem test_sub_borrow_and_overflow : aluAfter (alu 0x1A0FFFFF#32 0x7FFFFFFFFFFFFFFF#64 0x0#64 0x0#64) = (0x8000000000000000#64, 0x0#64, 0xB#64) := by
  decide +kernel

/-- V97. -/
theorem test_sub_keeps_high_bits : aluAfter (alu 0x1A0F0001#32 0x1#64 0x0#64 0x200000000000001B#64) = (0x0#64, 0x0#64, 0x2000000000000017#64) := by
  decide +kernel

/-- V101. -/
theorem test_mul_low : aluAfter (alu 0x1B010000#32 0x100000000#64 0x100000000#64 0x0#64) = (0x0#64, 0x100000000#64, 0x4#64) := by
  decide +kernel

/-- V102. -/
theorem test_smul : aluAfter (alu 0x1C0FFFFE#32 0xFFFFFFFFFFFFFFFD#64 0x0#64 0x0#64) = (0x6#64, 0x0#64, 0x0#64) := by
  decide +kernel

/-- V104: the remainder overwrites B. -/
theorem test_div : aluAfter (alu 0x1D010001#32 0x11#64 0x5#64 0x0#64) = (0x2#64, 0x5#64, 0x0#64) := by
  decide +kernel

/-- V107. -/
theorem test_div_same_register : aluAfter (alu 0x1D000000#32 0x9#64 0x0#64 0x0#64) = (0x1#64, 0x0#64, 0x0#64) := by
  decide +kernel

/-- V110. -/
theorem test_sdiv_negative_dividend : aluAfter (alu 0x1E010000#32 0xFFFFFFFFFFFFFFEF#64 0x5#64 0x0#64) = (0xFFFFFFFFFFFFFFFD#64, 0xFFFFFFFFFFFFFFFE#64, 0x8#64) := by
  decide +kernel

/-- V110a. -/
theorem test_sdiv_negative_divisor : aluAfter (alu 0x1E010000#32 0x11#64 0xFFFFFFFFFFFFFFFB#64 0x0#64) = (0xFFFFFFFFFFFFFFFD#64, 0x2#64, 0x8#64) := by
  decide +kernel

/-- V130. -/
theorem test_int : (tick (system 0x200F00A0#32 0xA000000000000001#64)).ip = 0x60#64 ∧
    (tick (system 0x200F00A0#32 0xA000000000000001#64)).p.eflags = 1#64 ∧
    bytesAt (tick (system 0x200F00A0#32 0xA000000000000001#64)) 0x6F0 10 =
      [0x01#8, 0#8, 0#8, 0#8, 0#8, 0#8, 0#8, 0xA0#8, 0x04#8, 0x01#8] := by
  decide +kernel

/-- V135: 0x1A0 is not reduced to 0xA0. -/
theorem test_int_out_of_range : (tick (withRegs (system 0x200000A0#32 0#64) [(.a, 0x100#64)])).lastInt = { code := 0x01#8, info := 3#64 } ∧
    (tick (withRegs (system 0x200000A0#32 0#64) [(.a, 0x100#64)])).ip = 0x20#64 := by
  decide +kernel

/-- V142. -/
theorem test_pmov_reserved : (tick (system 0x21F0FFFF#32 0#64)).preg .p15 = 0xFFFFFFFFFFFFFFFF#64 ∧ (tick (system 0x21F0FFFF#32 0#64)).ip = 0x104#64 := by
  decide +kernel

/-- V138. -/
theorem test_pmov_user : (tick (system 0x212F0123#32 pe)).preg .psp = 0x700#64 ∧ (tick (system 0x212F0123#32 pe)).lastInt = { code := 0x01#8, info := 3#64 } ∧
    bytesAt (tick (system 0x212F0123#32 pe)) 0x6F8 2 = [0x00#8, 0x01#8] := by
  decide +kernel

/-- The start of V144. -/
def iretStart : State :=
  { withPRegs (withRegs (start 0x1000 0x100#64 0x22000000#32 [(0x3F0, 0x04#8), (0x3F8, 0x20#8)]) [(.sp, 0x3F0#64)])
      [(.usp, 0x500#64), (.psp, 0x400#64)] with handlingInterrupt := true }

/-- V144. -/
theorem test_iret : (tick iretStart).ip = 0x20#64 ∧ (tick iretStart).reg .sp = 0x500#64 ∧ (tick iretStart).preg .psp = 0x400#64 ∧
    (tick iretStart).p.eflags = 0xA000000000000004#64 ∧ (tick iretStart).handlingInterrupt = false := by
  decide +kernel

/-- V145. -/
theorem test_iret_out_of_bounds : tick (withRegs (system 0x22000000#32 0#64) [(.sp, 0xFF8#64)]) =
    { withRegs (system 0x22000000#32 0#64) [(.sp, 0xFF8#64)] with ip := 0x104#64 } := by
  decide +kernel

/-! ### The translator, interrupts and the tick -/

/-- V84. -/
theorem test_walk_store : walkOutcome (paged 0x3FC1#32 0x5FC1#32 pg) true false = some (0x5ABC#32, 0x3FE1#32, 0x5FE5#32) := by
  decide +kernel

/-- V77. -/
theorem test_walk_user_fetch : walkOutcome (paged 0x3011#32 0x5011#32 (pe ||| pg)) false true = some (0x5ABC#32, 0x3031#32, 0x5031#32) := by
  decide +kernel

/-- V82. -/
theorem test_walk_not_occupied : resolve (paged 0x3001#32 0x5000#32 pg) 0x402ABC#32 false false = .raise { code := 0x00#8, info := 0x100402ABC#64 } := by
  decide +kernel

/-- V79. -/
theorem test_walk_protected_page : resolve (paged 0x3001#32 0x5003#32 (pe ||| pg)) 0x402ABC#32 false false = .raise { code := 0x00#8, info := 0x200402ABC#64 } := by
  decide +kernel

/-- V74. -/
theorem test_walk_not_writable : resolve (paged 0x3009#32 0x5001#32 (pe ||| pg)) 0x402ABC#32 true false = .raise { code := 0x00#8, info := 0x800402ABC#64 } := by
  decide +kernel

/-- V76. -/
theorem test_walk_not_executable : resolve (paged 0x3001#32 0x5001#32 (pe ||| pg)) 0x402ABC#32 false true = .raise { code := 0x00#8, info := 0x1000402ABC#64 } := by
  decide +kernel

/-- V83. -/
theorem test_walk_occupied_first : resolve (paged 0x3002#32 0x5001#32 (pe ||| pg)) 0x402ABC#32 false false = .raise { code := 0x00#8, info := 0x100402ABC#64 } := by
  decide +kernel

/-- V86. -/
theorem test_fetch_page_fault : (tick (mapped 0x000F0001#32 0x2019#32 0x0009#32 (pe ||| pg))).lastInt = { code := 0x00#8, info := 0x1000000100#64 } ∧
    (tick (mapped 0x000F0001#32 0x2019#32 0x0009#32 (pe ||| pg))).ip = 0x40#64 := by
  decide +kernel

/-- V119d. -/
theorem test_fetch_out_of_bounds : tick (State.resetWith { size := 0x1000, cells := [] } 0xFFE#64) =
    { State.resetWith { size := 0x1000, cells := [] } 0xFFE#64 with ip := 0x1002#64 } := by
  decide +kernel

/-- V119c. -/
theorem test_ip_high_bits_kept : (tick (start 0x1000 0x500000100#64 0x000F0007#32)).ip = 0x500000104#64 ∧ (tick (start 0x1000 0x500000100#64 0x000F0007#32)).reg .a = 7#64 := by
  decide +kernel

/-- V141. -/
theorem test_unknown_opcode : (tick (system 0xFFFFFFFF#32 (pe ||| ie))).lastInt = { code := 0x01#8, info := 0#64 } ∧ (tick (system 0xFFFFFFFF#32 (pe ||| ie))).ip = 0x20#64 := by
  decide +kernel

/-- S4: divide by zero in user mode. -/
def divideByZero : State :=
  withPRegs (withRegs (start 0x2000 0#64 0x1D0F0000#32 [(0x1011, 0x02#8)]) [(.sp, 0x900#64), (.a, 9#64)])
    [(.ijt, 0x1000#64), (.psp, 0x800#64), (.eflags, 0xA000000000000008#64)]

/-- S4. -/
theorem test_divide_by_zero : (tick divideByZero).ip = 0x200#64 ∧ (tick divideByZero).reg .a = 9#64 ∧ (tick divideByZero).p.eflags = 8#64 ∧
    (tick divideByZero).p.usp = 0x900#64 ∧ (tick divideByZero).reg .sp = 0x7F0#64 ∧ (tick divideByZero).handlingInterrupt = true ∧
    (tick divideByZero).lastInt = { code := 0x02#8, info := 0#64 } := by
  decide +kernel

/-- V150, its third tick: the instruction at IP does not run. -/
theorem test_hardware_interrupt : (tick { system 0x000F0002#32 ie with intSet := true, intCode := 0x20#8 }).ip = 0x50#64 ∧
    (tick { system 0x000F0002#32 ie with intSet := true, intCode := 0x20#8 }).intSet = false ∧
    (tick { system 0x000F0002#32 ie with intSet := true, intCode := 0x20#8 }).reg .a = 0#64 ∧
    bytesAt (tick { system 0x000F0002#32 ie with intSet := true, intCode := 0x20#8 }) 0x6F8 2 = [0x04#8, 0x01#8] := by
  decide +kernel

/-- V153. Only `halted` and `lastInt` have a value; the rest is free. -/
theorem test_double_fault : (tick { system 0x1D0F0000#32 0#64 with handlingInterrupt := true }).halted = true ∧
    (tick { system 0x1D0F0000#32 0#64 with handlingInterrupt := true }).lastInt = { code := 0x02#8, info := 0#64 } := by
  decide +kernel

/-! ### Witnesses: a concrete state and operands for the hypotheses of every statement that has some -/

/-- A state at the end of its array: `n` bytes at `0x20`, the last of a 0x28-byte array for n = 8. -/
def edge (size : Nat) (w : InstrWord) : State := withRegs (start size 0#64 w) [(.b, 0x20#64), (.sp, 0x20#64)]

theorem witness_fieldEncoding : (RawFields.mk 255 15 15 (-32768)).encodable = true ∧ (RawFields.mk 0 0 0 32767).encodable = true := by
  decide

theorem witness_opcodeMap : 35 ≤ (35#8 : BitVec 8).toNat ∧ 35 ≤ (255#8 : BitVec 8).toNat := by decide

/-- Boundary opcodes of each range of used fields: 0, 2, 12, 19, 31, 33. -/
theorem witness_encodeOfDecoded : decode 0x00FF8000#32 = .instr (.mov .z .z 0x8000#16) ∧ decode 0x021F0001#32 = .instr (.lb .b .z 1#16) ∧
    decode 0x0C1F0001#32 = .instr (.sd .b .z 1#16) ∧ decode 0x13010001#32 = .instr (.jif .a .b 1#16) ∧
    decode 0x1F010001#32 = .instr (.sshr .a .b 1#16) ∧ decode 0x21F10001#32 = .instr (.pmov .p15 .b 1#16) := by
  decide

theorem witness_instructionBytes : (start 4 0#64 0x000F002A#32).flagPG = false ∧
    (addrOf (start 4 0#64 0x000F002A#32).ip).toNat + 4 ≤ (start 4 0#64 0x000F002A#32).mem.size := by
  decide +kernel

theorem witness_executes : (start 4 0#64 0x000F002A#32).executes (.mov .a .z 42#16) :=
  ⟨rfl, rfl, 0x000F002A#32, start 4 0#64 0x000F002A#32, by decide +kernel, by decide⟩

/-- Halted; a hardware interrupt accepted; one masked by each of the three conditions; and a fetch that raises, leaves the array, reads opcode 35. -/
theorem witness_firstEvent : { (start 4 0#64 0#32) with halted := true }.halted = true ∧
    (let s : State := { system 0#32 ie with intSet := true, intCode := 0x20#8 };
      s.halted = false ∧ s.intSet = true ∧ s.flagIE = true ∧ s.handlingInterrupt = false) ∧
    (let s : State := mapped 0#32 0x2019#32 0x0009#32 (pe ||| pg);
      s.halted = false ∧ s.flagIE = false ∧ fetch s = .raise { code := 0x00#8, info := 0x1000000100#64 }) ∧
    (let s : State := { State.resetWith { size := 3, cells := [] } 0#64 with handlingInterrupt := true };
      s.halted = false ∧ s.handlingInterrupt = true ∧ fetch s = .bounds) ∧
    (let s : State := start 4 0#64 0x23000000#32;
      s.halted = false ∧ s.intSet = false ∧ fetch s = .ok (0x23000000#32, s) ∧ 35 ≤ ((0x23000000#32 : InstrWord).extractLsb' 24 8).toNat) := by
  decide +kernel

/-- A walk whose root entry for the data access ends past the array, its fetch's own entries in it. -/
def cutTable : State :=
  let s := mapped 0x08010000#32 0x2019#32 0x0019#32 pg
  withPRegs (withRegs { s with mem := s.mem.writeLE 0x7F00 0x2019#64 4 } [(.b, 0x3F400000#64), (.sp, 0x3F400008#64)]) [(.rpt, 0x7F00#64)]

theorem witness_fetchFailure : fetch (mapped 0#32 0x2019#32 0x0009#32 (pe ||| pg)) = .raise { code := 0x00#8, info := 0x1000000100#64 } ∧
    fetch (State.resetWith { size := 3, cells := [] } 0#64) = .bounds ∧
    resolve (State.resetWith { size := 3, cells := [] } 0#64) ((0#64 : Word).setWidth 32) false true =
      .ok (0#32, State.resetWith { size := 3, cells := [] } 0#64) ∧
    (let s : State := { cutTable with ip := 0x3F400000#64 };
      resolve s (s.ip.setWidth 32) false true = .bounds ∧ fetch s = .bounds) ∧
    (let s : State := start 4 0#64 0x000F002A#32;
      resolve s (s.ip.setWidth 32) false true = .ok (0#32, s) ∧ (0#32 : Addr).toNat + 4 ≤ s.mem.size) := by
  decide +kernel

/-- Accesses that end at the end of the array, for the smallest and the largest width. -/
theorem witness_accesses : physWrite (edge 0x28 0#32) 0x20#32 8 5#64 = .ok { edge 0x28 0#32 with mem := (edge 0x28 0#32).mem.write 0x20 5#8 } ∧
    physRead (edge 0x21 0#32) 0x20#32 1 = .ok 0#64 ∧ (edge 0x28 0#32).mem.size ≤ Config.maxMemSize ∧
    resolve (edge 0x28 0#32) (addrOf 0x20#64) false false = .ok (0x20#32, edge 0x28 0#32) ∧
    memRead (edge 0x28 0#32) 0x20#64 8 = .ok (0#64, edge 0x28 0#32) ∧
    resolve (edge 0x28 0#32) (addrOf 0x20#64) true false = .ok (0x20#32, edge 0x28 0#32) ∧
    memWrite (edge 0x28 0#32) 0x20#64 8 0#64 = .ok (edge 0x28 0#32) ∧ readEntry (edge 0x24 0#32) 0x20#32 = .ok 0#32 ∧
    resolve (start 4 0#64 0x000F002A#32) 0#32 false true = .ok (0#32, start 4 0#64 0x000F002A#32) ∧
    fetch (start 4 0#64 0x000F002A#32) = .ok (0x000F002A#32, start 4 0#64 0x000F002A#32) := by
  decide +kernel

theorem witness_bounds : (0x20#32 : Addr).toNat + 8 ≤ (edge 0x28 0#32).mem.size ∧ (edge 0x27 0#32).mem.size < (0x20#32 : Addr).toNat + 8 := by
  decide +kernel

theorem witness_storeThenLoad : (edge 0x28 0#32).flagPG = false ∧
    ∀ n ∈ [1, 2, 4, 8], memWrite (edge (0x20 + n) 0#32) 0x20#64 n 0#64 = .ok (edge (0x20 + n) 0#32) := by
  decide +kernel

theorem witness_translationOff : (edge 0x28 0#32).flagPG = false ∧ (edge 0x28 0#32).flagPE = false := by decide +kernel

/-- Each failing mask bit, at the root and at the page, and a walk that passes; the last clause's PE = 0. -/
theorem witness_entryChecks :
    (paged 0x3001#32 0x5001#32 (pe ||| pg)).flagPG = true ∧
    readEntry (paged 0x3001#32 0x5001#32 (pe ||| pg)) (rootEntryAddr (paged 0x3001#32 0x5001#32 (pe ||| pg)) 0x402ABC#32) = .ok 0x3001#32 ∧
    readEntry (paged 0x3001#32 0x5001#32 (pe ||| pg)) (pageEntryAddr 0x3001#32 0x402ABC#32) = .ok 0x5001#32 ∧
    (paged 0x3001#32 0x5001#32 pg).flagPE = false ∧ (paged 0x3001#32 0x5001#32 (pe ||| pg)).flagPE = true ∧
    entryFailure true 0x3000#32 false false = some 0x01#64 ∧ entryFailure true 0x3003#32 true true = some 0x02#64 ∧
    entryFailure true 0x3001#32 true true = some 0x08#64 ∧ entryFailure true 0x3009#32 true true = some 0x10#64 ∧
    entryFailure true 0x3001#32 false false = none ∧ entryFailure false 0x3003#32 true true = none := by
  decide +kernel

/-- The tables of V70 in an array that ends one byte short of the root entry, one byte short of the page entry, and with the page entry. -/
theorem witness_walkBounds :
    (let s (size : Nat) : State := let s := paged 0x3001#32 0x5001#32 pg; { s with mem := { s.mem with size := size } };
    readEntry (s 0x1004) 0x1001#32 = .bounds ∧ resolve (s 0x1004) 0x402ABC#32 false false = .bounds ∧
    readEntry (s 0x3005) 0x1001#32 = .ok 0x3001#32 ∧ entryFailure (s 0x3005).flagPE 0x3001#32 false false = none ∧
    readEntry (s 0x3005) 0x3002#32 = .bounds ∧ resolve (s 0x3005) 0x402ABC#32 false false = .bounds ∧
    readEntry (s 0x3006) 0x3002#32 = .ok 0x5001#32 ∧ resolve (s 0x3006) 0x402ABC#32 false false ≠ .bounds) := by
  decide +kernel

theorem witness_firstFailure : firstFailure True 0x3000#32 false false 0x01#64 ∧ firstFailure True 0x3003#32 true true 0x02#64 ∧
    firstFailure True 0x3001#32 true true 0x08#64 ∧ firstFailure True 0x3009#32 true true 0x10#64 := by
  refine ⟨?_, ?_, ?_, ?_⟩ <;> simp [firstFailure]

/-- The walk of V84 meets all its hypotheses: PE = 0 and both entries occupied, so no mask fails. -/
theorem witness_walk : (paged 0x3FC1#32 0x5FC1#32 pg).flagPG = true ∧
    readEntry (paged 0x3FC1#32 0x5FC1#32 pg) (((paged 0x3FC1#32 0x5FC1#32 pg).preg .rpt).setWidth 32 + (0x402ABC#32 >>> 22 &&& 0x3FF#32)) = .ok 0x3FC1#32 ∧
    readEntry (paged 0x3FC1#32 0x5FC1#32 pg) ((0x3FC1#32 &&& 0xFFFFF000#32) + (0x402ABC#32 >>> 12 &&& 0x3FF#32)) = .ok 0x5FC1#32 ∧
    (∀ mask, ¬firstFailure ((paged 0x3FC1#32 0x5FC1#32 pg).flagPE = true) 0x3FC1#32 true false mask) ∧
    (∀ mask, ¬firstFailure ((paged 0x3FC1#32 0x5FC1#32 pg).flagPE = true) 0x5FC1#32 true false mask) := by
  have h : (paged 0x3FC1#32 0x5FC1#32 pg).flagPE = false := by decide +kernel
  refine ⟨by decide +kernel, by decide +kernel, by decide +kernel, ?_, ?_⟩ <;> intro mask <;> simp [firstFailure, h]

/-- Whether the fetch of a tick leaves the given state, and what that shows. -/
def fetchesTo (s t : State) : Bool :=
  match fetch s with
  | .ok f => decide (f.2 = t)
  | _ => false

theorem fetches_of_check {s t : State} (h : fetchesTo s t = true) : fetches s t := by
  unfold fetchesTo at h
  split at h
  · rename_i f hf
    exact ⟨f.1, by rw [hf, ← of_decide_eq_true h]⟩
  · cases h

/-- Whether a tick goes on without a double fault, and what that shows. -/
def runsOn (s : State) : Bool :=
  match step s with
  | .next t => !t.halted
  | _ => false

theorem runs_of_check {s : State} (h : runsOn s = true) : step s = .next (tick s) ∧ (tick s).halted = false := by
  unfold runsOn at h
  split at h
  · rename_i t ht
    rw [tick, ht]
    exact ⟨rfl, by simpa using h⟩
  · cases h

/-- Whether entry into the handler of `j` succeeds from `s` and leaves what taking the interrupt leaves, and what that shows. -/
def entersCheck (s : State) (j : Interrupt) : Bool :=
  match physWrite s (addrOf (s.p.psp - 8#64)) 8 (resumeIP s j.code) with
  | .ok half =>
    match physWrite half (addrOf (s.p.psp - 16#64)) 8 s.p.eflags with
    | .ok pushed =>
      match resolve (vectorReadState s pushed j) (addrOf (s.p.ijt + 8#64 * j.code.setWidth 64)) false false with
      | .ok r => decide (r.1.toNat + 4 ≤ s.mem.size) &&
          decide (takeInterrupt s j = { r.2 with ip := (fourBytes r.2.mem r.1.toNat).setWidth 64 })
      | _ => false
    | _ => false
  | _ => false

theorem enters_of_check {s : State} {j : Interrupt} (h : entersCheck s j = true) : enters s j (takeInterrupt s j) := by
  unfold entersCheck at h
  split at h
  · rename_i half h1
    split at h
    · rename_i pushed h2
      split at h
      · rename_i r h3
        rw [Bool.and_eq_true, decide_eq_true_eq, decide_eq_true_eq] at h
        exact ⟨pushed, r.1, r.2, ⟨half, h1, h2⟩, h3, h.1, h.2⟩
      · cases h
    · cases h
  · cases h

/-- The frame pushed for `j`, when both pushes are in bounds, and what that shows. -/
def pushed (s : State) (j : Interrupt) : State :=
  match physWrite s (addrOf (s.p.psp - 8#64)) 8 (resumeIP s j.code) with
  | .ok half =>
    match physWrite half (addrOf (s.p.psp - 16#64)) 8 s.p.eflags with
    | .ok t => t
    | _ => s
  | _ => s

theorem pushesFrame_of_size {s : State} {j : Interrupt} (h1 : (addrOf (s.p.psp - 8#64)).toNat + 8 ≤ s.mem.size)
    (h2 : (addrOf (s.p.psp - 16#64)).toNat + 8 ≤ s.mem.size) : pushesFrame s (pushed s j) j.code := by
  have e1 := physWrite_eq_ok (v := resumeIP s j.code) |>.mpr ⟨h1, rfl⟩
  have e2 := physWrite_eq_ok (s := { s with mem := s.mem.writeLE (addrOf (s.p.psp - 8#64)).toNat (resumeIP s j.code) 8 })
    (v := s.p.eflags) |>.mpr ⟨by simpa using h2, rfl⟩
  refine ⟨_, e1, ?_⟩
  rw [pushed, e1]
  dsimp only
  rw [e2]

/-- A fetch under translation, and a translation of it. -/
theorem witness_translation : resolve (mapped 0x000F0001#32 0x2019#32 0x0019#32 pg) 0x100#32 false true =
      .ok (0x100#32, fetched (mapped 0x000F0001#32 0x2019#32 0x0019#32 pg)) ∧
    fetch (mapped 0x000F0001#32 0x2019#32 0x0019#32 pg) = .ok (0x000F0001#32, fetched (mapped 0x000F0001#32 0x2019#32 0x0019#32 pg)) ∧
    (edge 0x28 0#32).flagPG = false := by
  decide +kernel

/-- The hypothesis of every register instruction: a fetch that succeeds, with translation off, and in user mode under translation. -/
theorem witness_fetches : fetches (one 0x000F002A#32 []) (one 0x000F002A#32 []) ∧
    fetches (mapped 0x000F0001#32 0x2019#32 0x0019#32 (pe ||| pg)) (fetched (mapped 0x000F0001#32 0x2019#32 0x0019#32 (pe ||| pg))) :=
  ⟨fetches_of_check (by decide +kernel), fetches_of_check (by decide +kernel)⟩

/-- Loads and stores of each width whose last byte is the array's last. -/
theorem witness_loadStore : ∀ n ∈ [1, 2, 4, 8], fetches (edge (0x20 + n) 0#32) (edge (0x20 + n) 0#32) ∧
    resolve (edge (0x20 + n) 0#32) (addrOf ((edge (0x20 + n) 0#32).reg .b + (0#16).signExtend 64)) false false = .ok (0x20#32, edge (0x20 + n) 0#32) ∧
    resolve (edge (0x20 + n) 0#32) (addrOf ((edge (0x20 + n) 0#32).reg .b + (0#16).signExtend 64)) true false = .ok (0x20#32, edge (0x20 + n) 0#32) ∧
    (0x20#32 : Addr).toNat + n ≤ (edge (0x20 + n) 0#32).mem.size := by
  intro n hn
  refine ⟨fetches_of_check ?_, ?_⟩ <;> revert n <;> decide +kernel

/-- A data access whose page is not occupied (V57), one whose walk leaves the array, and one whose data does, by one byte, for each width. -/
theorem witness_loadStoreFailures :
    (let s := withRegs (mapped 0x08010000#32 0x2019#32 0x0019#32 pg) [(.b, 0x4000#64)];
      fetchesTo s (fetched s) = true ∧
      resolve (fetched s) (addrOf (s.reg .b + (0#16).signExtend 64)) false false = .raise { code := 0x00#8, info := 0x100004000#64 } ∧
      resolve (fetched s) (addrOf (s.reg .b + (0#16).signExtend 64)) true false = .raise { code := 0x00#8, info := 0x100004000#64 }) ∧
    (fetchesTo cutTable (fetched cutTable) = true ∧
      resolve (fetched cutTable) (addrOf (cutTable.reg .b + (0#16).signExtend 64)) false false = .bounds ∧
      resolve (fetched cutTable) (addrOf (cutTable.reg .b + (0#16).signExtend 64)) true false = .bounds) ∧
    ∀ n ∈ [1, 2, 4, 8], fetchesTo (edge (0x1F + n) 0#32) (edge (0x1F + n) 0#32) = true ∧
      resolve (edge (0x1F + n) 0#32) (addrOf ((edge (0x1F + n) 0#32).reg .b + (0#16).signExtend 64)) false false = .ok (0x20#32, edge (0x1F + n) 0#32) ∧
      resolve (edge (0x1F + n) 0#32) (addrOf ((edge (0x1F + n) 0#32).reg .b + (0#16).signExtend 64)) true false = .ok (0x20#32, edge (0x1F + n) 0#32) ∧
      (edge (0x1F + n) 0#32).mem.size < (0x20#32 : Addr).toNat + n := by
  decide +kernel

/-- A PUSH and a POP of the array's last slot. -/
theorem witness_stack :
    (let s := withRegs (edge 0x28 0#32) [(.sp, 0x28#64)];
      fetchesTo s s = true ∧ resolve (s.setReg .sp (s.reg .sp - 8#64)) (addrOf (s.reg .sp - 8#64)) true false =
        .ok (0x20#32, s.setReg .sp (s.reg .sp - 8#64)) ∧ (0x20#32 : Addr).toNat + 8 ≤ s.mem.size) ∧
    (fetchesTo (edge 0x28 0#32) (edge 0x28 0#32) = true ∧
      resolve (edge 0x28 0#32) (addrOf ((edge 0x28 0#32).reg .sp)) false false = .ok (0x20#32, edge 0x28 0#32) ∧
      (0x20#32 : Addr).toNat + 8 ≤ (edge 0x28 0#32).mem.size) := by
  decide +kernel

/-- A slot whose page is not occupied (V57), a walk that leaves the array, and a slot one byte past the array. -/
theorem witness_stackFailures :
    (let s := withRegs (mapped 0x0D000000#32 0x2019#32 0x0019#32 pg) [(.sp, 0x4008#64)];
      fetchesTo s (fetched s) = true ∧ resolve ((fetched s).setReg .sp (s.reg .sp - 8#64)) (addrOf (s.reg .sp - 8#64)) true false =
          .raise { code := 0x00#8, info := 0x100004000#64 } ∧
        resolve (fetched s) (addrOf (s.reg .sp)) false false = .raise { code := 0x00#8, info := 0x100004008#64 }) ∧
    (fetchesTo cutTable (fetched cutTable) = true ∧
      resolve ((fetched cutTable).setReg .sp (cutTable.reg .sp - 8#64)) (addrOf (cutTable.reg .sp - 8#64)) true false = .bounds ∧
      resolve (fetched cutTable) (addrOf (cutTable.reg .sp)) false false = .bounds) ∧
    (let s := withRegs (edge 0x27 0#32) [(.sp, 0x28#64)];
      fetchesTo s s = true ∧ resolve (s.setReg .sp (s.reg .sp - 8#64)) (addrOf (s.reg .sp - 8#64)) true false =
        .ok (0x20#32, s.setReg .sp (s.reg .sp - 8#64)) ∧ s.mem.size < (0x20#32 : Addr).toNat + 8) ∧
    (fetchesTo (edge 0x27 0#32) (edge 0x27 0#32) = true ∧
      resolve (edge 0x27 0#32) (addrOf ((edge 0x27 0#32).reg .sp)) false false = .ok (0x20#32, edge 0x27 0#32) ∧
      (edge 0x27 0#32).mem.size < (0x20#32 : Addr).toNat + 8) := by
  decide +kernel

/-- PUSH C and POP E in an array that ends with the slot. -/
theorem witness_pushThenPop : (let s := withRegs (edge 0x28 0#32) [(.sp, 0x28#64)];
    s.flagPG = false ∧ (.c : Reg) ≠ .sp ∧ (.e : Reg) ≠ .sp ∧ (.e : Reg) ≠ .z ∧ (addrOf s.ip).toNat + 4 ≤ s.mem.size ∧
      (addrOf (s.ip + 4#64)).toNat + 4 ≤ s.mem.size ∧ (addrOf (s.reg .sp - 8#64)).toNat + 8 ≤ s.mem.size) := by
  decide +kernel

/-- Divisors that are not zero, for SDIV the dividend -2^63 among them; the overflowing pair; and a divisor that wraps to zero (V109). -/
theorem witness_division :
    (let s := withRegs (one 0x1E010000#32 []) [(.a, 0x8000000000000000#64), (.b, 1#64)];
      fetchesTo s s = true ∧ s.reg .b + (0#16).signExtend 64 ≠ 0#64 ∧
        ¬((s.reg .a).toInt = -2 ^ 63 ∧ (s.reg .b + (0#16).signExtend 64).toInt = -1)) ∧
    (let s := withRegs (one 0x1E0FFFFF#32 []) [(.a, 0x8000000000000000#64)];
      fetchesTo s s = true ∧ (s.reg .a).toInt = -2 ^ 63 ∧ (s.reg .z + (0xFFFF#16).signExtend 64).toInt = -1) ∧
    (let s := withRegs (one 0x1D010001#32 []) [(.b, 0xFFFFFFFFFFFFFFFF#64)];
      fetchesTo s s = true ∧ s.reg .b + (1#16).signExtend 64 = 0#64) := by
  decide +kernel

/-- INT of 0xA0, 0xFF, 0x9F and 0x100 from Z, outside a handler, each entering its handler. -/
theorem witness_int : fetches (system 0#32 0#64) (system 0#32 0#64) ∧ (system 0#32 0#64).handlingInterrupt = false ∧
    (let code (off : Imm) : Word := (system 0#32 0#64).reg .z + off.signExtend 64;
      (0xA0 ≤ (code 0xA0#16).toNat ∧ (code 0xA0#16).toNat ≤ 0xFF) ∧ (0xA0 ≤ (code 0xFF#16).toNat ∧ (code 0xFF#16).toNat ≤ 0xFF) ∧
        (code 0x9F#16).toNat < 0xA0 ∧ 0xFF < (code 0x100#16).toNat) ∧
    enters (system 0#32 0#64) { code := 0xA0#8, info := 0#64 } (takeInterrupt (system 0#32 0#64) { code := 0xA0#8, info := 0#64 }) ∧
    enters (system 0#32 0#64) { code := 0xFF#8, info := 0#64 } (takeInterrupt (system 0#32 0#64) { code := 0xFF#8, info := 0#64 }) ∧
    enters (system 0#32 0#64) { code := 0x01#8, info := 3#64 } (takeInterrupt (system 0#32 0#64) { code := 0x01#8, info := 3#64 }) :=
  ⟨fetches_of_check (by decide +kernel), by decide +kernel, by decide +kernel, enters_of_check (by decide +kernel),
    enters_of_check (by decide +kernel), enters_of_check (by decide +kernel)⟩

theorem witness_privilege : fetches (system 0#32 0#64) (system 0#32 0#64) ∧ (system 0#32 0#64).flagPE = false ∧
    fetches (system 0#32 pe) (system 0#32 pe) ∧ (system 0#32 pe).flagPE = true :=
  ⟨fetches_of_check (by decide +kernel), by decide +kernel, fetches_of_check (by decide +kernel), by decide +kernel⟩

/-- IRET with its frame at the array's end, and with each slot past it. -/
theorem witness_iret :
    (let s := withRegs (system 0#32 0#64) [(.sp, 0xFF0#64)];
      fetchesTo s s = true ∧ s.flagPE = false ∧ (addrOf (s.reg .sp)).toNat + 8 ≤ s.mem.size ∧ (addrOf (s.reg .sp + 8#64)).toNat + 8 ≤ s.mem.size) ∧
    (let s := withRegs (system 0#32 0#64) [(.sp, 0xFF9#64)];
      fetchesTo s s = true ∧ s.flagPE = false ∧ s.mem.size < (addrOf (s.reg .sp)).toNat + 8) ∧
    (let s := withRegs (system 0#32 0#64) [(.sp, 0xFF1#64)];
      fetchesTo s s = true ∧ s.flagPE = false ∧ s.mem.size < (addrOf (s.reg .sp + 8#64)).toNat + 8) := by
  decide +kernel

/-- Entry with the frame and the vector at the array's end, for the last fault code and the first of the others. -/
def entryEdge : State := withPRegs (start 0x1000 0x100#64 0#32) [(.psp, 0x1000#64), (.ijt, 0xF04#64)]

theorem witness_entry : entryEdge.handlingInterrupt = false ∧
    enters entryEdge { code := 0x1F#8, info := 0#64 } (takeInterrupt entryEdge { code := 0x1F#8, info := 0#64 }) :=
  ⟨by decide +kernel, enters_of_check (by decide +kernel)⟩

theorem witness_frame : entryEdge.flagPG = false ∧ entryEdge.mem.size ≤ Config.maxMemSize ∧
    (addrOf (entryEdge.preg .psp - 8#64)).toNat + 8 ≤ entryEdge.mem.size ∧ (addrOf (entryEdge.preg .psp - 16#64)).toNat + 8 ≤ entryEdge.mem.size ∧
    (addrOf (entryEdge.preg .ijt + 8#64 * (0x1F#8).setWidth 64)).toNat + 4 ≤ entryEdge.mem.size ∧
    (addrOf (entryEdge.preg .ijt - 8#64 + 8#64 * (0x20#8).setWidth 64)).toNat + 4 ≤ entryEdge.mem.size := by
  decide +kernel

/-- A handler running; each push out of bounds; a vector read that faults (V155), whose walk leaves the array, and whose bytes do. -/
theorem witness_entryFailures : { entryEdge with handlingInterrupt := true }.handlingInterrupt = true ∧
    (let s := withPRegs entryEdge [(.psp, 0x1001#64)];
      s.handlingInterrupt = false ∧ s.mem.size < (addrOf (s.preg .psp - 8#64)).toNat + 8) ∧
    (let s := withPRegs entryEdge [(.psp, 8#64)];
      s.handlingInterrupt = false ∧ s.mem.size < (addrOf (s.preg .psp - 16#64)).toNat + 8) ∧
    (let s := withPRegs (mapped 0#32 0x2019#32 0x0019#32 pg) [(.ijt, 0x4000#64)];
      resolve (vectorReadState s (pushed s divideFault) divideFault) (addrOf (s.preg .ijt + 8#64 * divideFault.code.setWidth 64)) false false =
        .raise { code := 0x00#8, info := 0x100004010#64 }) ∧
    (let s := withPRegs cutTable [(.ijt, 0x3F400000#64)];
      resolve (vectorReadState s (pushed s divideFault) divideFault) (addrOf (s.preg .ijt + 8#64 * divideFault.code.setWidth 64)) false false = .bounds) ∧
    (let s := withPRegs entryEdge [(.ijt, 0xFED#64)];
      resolve (vectorReadState s (pushed s divideFault) divideFault) (addrOf (s.preg .ijt + 8#64 * divideFault.code.setWidth 64)) false false =
        .ok (0xFFD#32, vectorReadState s (pushed s divideFault) divideFault) ∧ s.mem.size < (0xFFD#32 : Addr).toNat + 4) := by
  decide +kernel

theorem witness_pushesFrame : pushesFrame entryEdge (pushed entryEdge divideFault) divideFault.code ∧
    pushesFrame cutTable (pushed cutTable divideFault) divideFault.code ∧
    (let s : State := mapped 0#32 0x2019#32 0x0019#32 (ie ||| pg);
      pushesFrame s (pushed s divideFault) divideFault.code) :=
  ⟨pushesFrame_of_size (by decide +kernel) (by decide +kernel), pushesFrame_of_size (by decide +kernel) (by decide +kernel),
    pushesFrame_of_size (by decide +kernel) (by decide +kernel)⟩

/-- A pending hardware interrupt with the given code, enabled. -/
def pending (code : BitVec 8) : State :=
  { withPRegs (system 0x000F0002#32 ie) [(.ijt, 0x400#64)] with intSet := true, intCode := code }

/-- A pending code 0x20 in a state, its vector table at the given address. -/
def serving (s : State) (table : Word) : State := { withPRegs s [(.ijt, table)] with intSet := true, intCode := 0x20#8 }

/-- The next tick services a hardware interrupt within the host's contract. -/
def serviced (s : State) : Bool := !s.halted && s.intSet && s.flagIE && !s.handlingInterrupt && injectable s.intCode

/-- The translation of the pending interrupt's vector, its frame pushed. -/
def hardwareVector (s : State) : Access (Addr × State) :=
  let base : State := { s with intSet := false }
  let j : Interrupt := { code := s.intCode, info := 0#64 }
  resolve (vectorReadState base (pushed base j) j) (addrOf (s.preg .ijt + 8#64 * s.intCode.setWidth 64)) false false

/-- The first and the last injectable code, entered; each push out of bounds (V152); and a vector that faults, whose walk leaves the array, and
whose last byte does. -/
theorem witness_hardware :
    (∀ code ∈ [0x20#8, 0x9F#8], (pending code).halted = false ∧ (pending code).intSet = true ∧ (pending code).flagIE = true ∧
      (pending code).handlingInterrupt = false ∧ injectable (pending code).intCode = true ∧
      enters { pending code with intSet := false } { code := code, info := 0#64 }
        (takeInterrupt { pending code with intSet := false } { code := code, info := 0#64 })) ∧
    (let s := withPRegs (pending 0x20#8) [(.psp, 0#64)];
      serviced s = true ∧ s.mem.size < (addrOf (s.preg .psp - 8#64)).toNat + 8) ∧
    (let s := withPRegs (pending 0x20#8) [(.psp, 8#64)];
      serviced s = true ∧ s.mem.size < (addrOf (s.preg .psp - 16#64)).toNat + 8) ∧
    (let s := serving (mapped 0#32 0x2019#32 0x0019#32 (ie ||| pg)) 0x4000#64;
      serviced s = true ∧ hardwareVector s = .raise { code := 0x00#8, info := 0x100004100#64 }) ∧
    (let s := serving (withPRegs cutTable [(.eflags, ie ||| pg)]) 0x3F400000#64;
      serviced s = true ∧ hardwareVector s = .bounds) ∧
    (let s := serving (withPRegs entryEdge [(.eflags, ie)]) 0xEFD#64;
      serviced s = true ∧ s.mem.size < (0xFFD#32 : Addr).toNat + 4 ∧
        hardwareVector s = .ok (0xFFD#32, vectorReadState { s with intSet := false } (pushed s { code := 0x20#8, info := 0#64 }) { code := 0x20#8, info := 0#64 })) := by
  refine ⟨fun code hc => ⟨?_, ?_, ?_, ?_, ?_, enters_of_check ?_⟩, by decide +kernel⟩ <;> revert code <;> decide +kernel

/-- Not pending; masked by IE; masked by a running handler (V151): each tick goes on. -/
theorem witness_masked : runsOn (system 0x000F0001#32 ie) = true ∧ (system 0x000F0001#32 ie).intSet = false ∧
    (let s : State := { system 0x000F0001#32 0#64 with intSet := true, intCode := 0x21#8 };
      runsOn s = true ∧ s.intSet = true ∧ s.flagIE = false) ∧
    (let s : State := { system 0x000F0001#32 ie with intSet := true, intCode := 0x21#8, handlingInterrupt := true };
      runsOn s = true ∧ s.intSet = true ∧ s.handlingInterrupt = true) := by
  decide +kernel

theorem witness_inject : (0x20 ≤ (0x20#8).toNat ∧ (0x9F#8).toNat ≤ 0x9F) ∧ (0x1F#8).toNat < 0x20 ∧ 0x9F < (0xA0#8).toNat := by decide

theorem witness_halted : { State.reset with halted := true }.halted = true := rfl

/-- Two ticks of MOV A, A+0 from zeroed memory go on. -/
theorem witness_safeRun : safeRun (1 + 1) (start 8 0#64 0#32) := by
  have h1 := runs_of_check (s := start 8 0#64 0#32) (by decide +kernel)
  have h2 := runs_of_check (s := tick (start 8 0#64 0#32)) (by decide +kernel)
  have e (s : State) : Sys2Proof.core.step s = step s := rfl
  refine ⟨_, ?_, h2.2⟩
  simp only [Host.Core.run, e, h1.1, h2.1]

theorem witness_reset : (BitVec.setWidth 32 (0#64 : Word)).toNat + 4 ≤ [0x2A#8, 0x00#8, 0x0F#8, 0x00#8].length ∧
    1 ≤ [0x2A#8].length ∧ [0x2A#8].length ≤ Config.maxMemSize := by
  decide

/-- The invariant's hypotheses, with a hardware interrupt pending. -/
theorem witness_invariant : (pending 0x9F#8).inv ∧ step (pending 0x9F#8) = .next (tick (pending 0x9F#8)) :=
  ⟨⟨by decide +kernel, by decide +kernel, fun _ _ => by decide +kernel⟩, (runs_of_check (by decide +kernel)).1⟩

/-- The first and the last reserved register; a tick that enters a handler, one that returns, and one that writes the register. -/
theorem witness_reserved : reservedPReg .p5 ∧ reservedPReg .p15 ∧ runsOn (system 0x200F00A0#32 0#64) = true ∧ runsOn iretStart = true ∧
    (system 0x21F0FFFF#32 0#64).executes (.pmov .p15 .a 0xFFFF#16) ∧ (system 0x21F0FFFF#32 0#64).privileged :=
  ⟨by unfold reservedPReg; decide, by unfold reservedPReg; decide, by decide +kernel, by decide +kernel,
    ⟨by decide +kernel, by decide +kernel, 0x21F0FFFF#32, system 0x21F0FFFF#32 0#64, by decide +kernel, by decide⟩,
    by unfold State.privileged; decide +kernel⟩

/-- User mode: an ordinary tick, and one that enters a handler. -/
theorem witness_userMode : (system 0x000F0001#32 pe).userMode ∧ runsOn (system 0x000F0001#32 pe) = true ∧
    (system 0x200F00A0#32 pe).userMode ∧ runsOn (system 0x200F00A0#32 pe) = true :=
  ⟨by unfold State.userMode; decide +kernel, by decide +kernel, by unfold State.userMode; decide +kernel, by decide +kernel⟩

/-- The latch cleared by IRET, and set by entry. -/
theorem witness_latch : (runsOn iretStart = true ∧ iretStart.handlingInterrupt = true ∧ (tick iretStart).handlingInterrupt = false) ∧
    (runsOn (system 0x200F00A0#32 pe) = true ∧ (system 0x200F00A0#32 pe).handlingInterrupt = false ∧
      (tick (system 0x200F00A0#32 pe)).handlingInterrupt = true) := by
  decide +kernel

/-- An instruction whose tick enters a handler: the division of S4. -/
theorem witness_precise : exec (.div .a .z 0#16) divideByZero = .next (tick divideByZero) ∧ divideByZero.handlingInterrupt = false ∧
    (tick divideByZero).handlingInterrupt = true ∧ (tick divideByZero).halted = false := by
  refine ⟨?_, by decide +kernel, by decide +kernel, by decide +kernel⟩
  have h : fetch divideByZero = .ok (0x1D0F0000#32, divideByZero) := by decide +kernel
  rw [tick, step, if_neg (by decide +kernel), if_neg (by decide +kernel), h]
  rfl

/-- CARRY and OVERFLOW set, and a tick that executes neither PMOV nor IRET (V90). -/
theorem witness_sticky : (let s := withPRegs (one 0x190F0001#32 []) [(.eflags, 3#64)];
    runsOn s = true ∧ s.flagC = true ∧ s.flagV = true ∧ fetch s = .ok (0x190F0001#32, s) ∧ decode 0x190F0001#32 = .instr (.add .a .z 1#16)) := by
  decide +kernel

end Sys2Proof.Tests
end

section
/-! A reserved protected register is storage that only a PMOV naming it writes (10_state.md R35). The one idea: a tick that does not write
the register commutes with writing any value to it beforehand. That says at once that the register has no effect on anything else, and,
for the value it already holds, that the tick keeps it. -/

namespace Sys2Proof.Machine

/-! ### What a step does, one equation for each event (60_exceptions.md R228) -/

theorem step_of_halted {s : State} (hh : s.halted = true) : step s = .next s := by
  simp [step, hh]

theorem step_of_accepts {s : State} (hh : s.halted = false) (ha : acceptsInterrupt s = true) :
    step s = .next (serviceInterrupt s) := by
  simp [step, hh, ha]

theorem step_of_executes {s : State} {op : Instr} (h : s.executes op) : step s = .next (tickState s (bodyOf op)) := by
  obtain ⟨hh, ha, w, t, hf, hd⟩ := h
  simp [step, hh, ha, hf, hd, exec_eq_next]

theorem step_of_rejected {s t : State} {w : InstrWord} {d : DecodeReject} (hh : s.halted = false) (ha : acceptsInterrupt s = false)
    (hf : fetch s = .ok (w, t)) (hd : decode w = .rejected d) : step s = .next (takeInterrupt s unknownOpcodeFault) := by
  simp [step, hh, ha, hf, hd]

theorem step_of_fetch_raise {s : State} {j : Interrupt} (hh : s.halted = false) (ha : acceptsInterrupt s = false)
    (hf : fetch s = .raise j) : step s = .next (takeInterrupt s j) := by
  simp [step, hh, ha, hf]

theorem step_of_fetch_bounds {s : State} (hh : s.halted = false) (ha : acceptsInterrupt s = false)
    (hf : fetch s = .bounds) : step s = .next (dropTick s) := by
  simp [step, hh, ha, hf]

/-! ### Writing a protected register -/

theorem setPReg_setPReg_self (s : State) (r : PReg) (v w : Word) : (s.setPReg r v).setPReg r w = s.setPReg r w := by
  have e : (s.p.set r v).set r w = s.p.set r w := by cases r <;> rfl
  simp only [State.setPReg, e]

theorem setPReg_preg_self (s : State) (r : PReg) : s.setPReg r (s.preg r) = s := by
  have e : s.p.set r (s.p.get r) = s.p := by cases r <;> rfl
  simp only [State.setPReg, State.preg, e]

theorem preg_setPReg_self (s : State) (r : PReg) (v : Word) : (s.setPReg r v).preg r = v := by
  simp [State.preg_setPReg]

theorem commit_setPReg (s : State) (r : PReg) (v : Word) (next : Option Word) :
    commit (s.setPReg r v) next = (commit s next).setPReg r v := rfl

theorem dropTick_setPReg (s : State) (r : PReg) (v : Word) : dropTick (s.setPReg r v) = (dropTick s).setPReg r v := rfl

/-- A PMOV in privileged mode completes, whatever register it names (45_system.md R202). -/
theorem step_of_pmov {s t : State} {r : PReg} {r1 : Reg} {off : Imm} (he : s.executes (.pmov r r1 off)) (hp : s.privileged)
    (ht : fetches s t) : step s = .next ((commit t none).setPReg r (s.regPlus r1 off)) := by
  obtain ⟨w, hf⟩ := ht
  have hm := fetch_memoryOnly hf
  have hpe : t.flagPE = false := hm.flagPE.trans hp
  have hb : bodyOf (.pmov r r1 off) t = .ok (t.setPReg r (s.regPlus r1 off), none) := by
    simp [bodyOf, pmovBody, hpe, hm.regPlus]
  rw [step_of_executes he, tickState_ok hf hb, commit_setPReg]

/-- An instruction is executed only after its fetch succeeded (30_encoding.md R113). -/
theorem fetches_of_executes {s : State} {op : Instr} (h : s.executes op) : ∃ t, fetches s t := by
  obtain ⟨-, -, w, t, hf, -⟩ := h
  exact ⟨t, w, hf⟩

/-! ### A tick on another value of a reserved register -/

section
variable {r : PReg} (hr : reservedPReg r) (v : Word)
include hr

theorem reserved_acceptsInterrupt (s : State) : acceptsInterrupt (s.setPReg r v) = acceptsInterrupt s := by
  simp [acceptsInterrupt, reserved_flagIE hr]

theorem reserved_fetch_ok {s t : State} {w : InstrWord} (h : fetch s = .ok (w, t)) :
    fetch (s.setPReg r v) = .ok (w, t.setPReg r v) := by
  rw [reserved_fetch hr, h, Access.map_ok]

theorem reserved_fetches {s t : State} (h : fetches s t) : fetches (s.setPReg r v) (t.setPReg r v) := by
  obtain ⟨w, hf⟩ := h
  exact ⟨w, reserved_fetch_ok hr v hf⟩

theorem reserved_executes {s : State} {op : Instr} (h : s.executes op) : (s.setPReg r v).executes op := by
  obtain ⟨hh, ha, w, t, hf, hd⟩ := h
  exact ⟨hh, by rw [reserved_acceptsInterrupt hr, ha], w, _, reserved_fetch_ok hr v hf, hd⟩

theorem reserved_privileged {s : State} (h : s.privileged) : (s.setPReg r v).privileged :=
  (reserved_flagPE hr v s).trans h

/-- The executed instruction commutes with the write. In user mode this holds of the PMOV that names the register too: it raises before it
writes (45_system.md R201). -/
theorem reserved_bodyOf_of_executes {s : State} {op : Instr} (he : s.executes op)
    (hw : ∀ r1 off, s.executes (.pmov r r1 off) → ¬ s.privileged) {t : State} (ht : fetches s t) :
    bodyOf op (t.setPReg r v) = (bodyOf op t).map fun q => (q.1.setPReg r v, q.2) := by
  by_cases hop : ∃ r1 off, op = .pmov r r1 off
  · obtain ⟨r1, off, rfl⟩ := hop
    obtain ⟨w, hf⟩ := ht
    have hs : s.flagPE = true := by simpa [State.privileged] using hw r1 off he
    have hpe : t.flagPE = true := (fetch_memoryOnly hf).flagPE.trans hs
    simp [bodyOf, pmovBody, reserved_flagPE hr, hpe]
  · push Not at hop
    exact reserved_bodyOf hr v op hop t

theorem reserved_takeInterrupt {s : State} {j : Interrupt} (hu : (takeInterrupt s j).halted = false) :
    takeInterrupt (s.setPReg r v) j = (takeInterrupt s j).setPReg r v :=
  reserved_takeInterruptFrom hr v s s j hu

/-- The tick of a body that commutes with the write, at the state the fetch leaves. -/
theorem reserved_tickState {s : State} {b : Body}
    (hb : ∀ t, fetches s t → b (t.setPReg r v) = (b t).map fun q => (q.1.setPReg r v, q.2))
    (hu : (tickState s b).halted = false) : tickState (s.setPReg r v) b = (tickState s b).setPReg r v := by
  have hf' := reserved_fetch hr v s
  cases hf : fetch s with
  | ok f =>
    obtain ⟨w, t⟩ := f
    rw [hf] at hf'
    have hb' := hb t ⟨w, hf⟩
    cases ht : b t with
    | ok q =>
      rw [ht] at hb'
      rw [tickState_ok hf ht, tickState_ok hf' hb', commit_setPReg]
    | raise j =>
      rw [ht] at hb'
      rw [tickState_raise hf ht] at hu ⊢
      rw [tickState_raise hf' hb', reserved_takeInterrupt hr v hu]
    | bounds =>
      rw [ht] at hb'
      rw [tickState_bounds hf ht, tickState_bounds hf' hb', dropTick_setPReg]
  | raise j =>
    rw [hf] at hf'
    rw [tickState_fetch_raise hf] at hu ⊢
    rw [tickState_fetch_raise hf', reserved_takeInterrupt hr v hu]
  | bounds =>
    rw [hf] at hf'
    rw [tickState_fetch_bounds hf, tickState_fetch_bounds hf', dropTick_setPReg]

theorem reserved_serviceInterrupt {s : State} (hu : (serviceInterrupt s).halted = false) :
    serviceInterrupt (s.setPReg r v) = (serviceInterrupt s).setPReg r v :=
  reserved_takeInterruptFrom hr v s { s with intSet := false } _ hu

/-- A tick that does not write the register commutes with writing it beforehand, unless it ends in a double fault. -/
theorem reserved_step {s u : State} (h : step s = .next u) (hu : u.halted = false)
    (hw : ∀ r1 off, s.executes (.pmov r r1 off) → ¬ s.privileged) :
    step (s.setPReg r v) = .next (u.setPReg r v) := by
  cases hh : s.halted with
  | true =>
    rw [step_of_halted hh] at h
    cases h
    rw [hh] at hu
    cases hu
  | false =>
    have hh' : (s.setPReg r v).halted = false := hh
    have ha' := reserved_acceptsInterrupt hr v s
    have hf' := reserved_fetch hr v s
    cases ha : acceptsInterrupt s with
    | true =>
      rw [ha] at ha'
      rw [step_of_accepts hh ha] at h
      cases h
      rw [step_of_accepts hh' ha', reserved_serviceInterrupt hr v hu]
    | false =>
      rw [ha] at ha'
      cases hf : fetch s with
      | ok f =>
        obtain ⟨w, t⟩ := f
        rw [hf] at hf'
        cases hd : decode w with
        | instr op =>
          have he : s.executes op := ⟨hh, ha, w, t, hf, hd⟩
          rw [step_of_executes he] at h
          cases h
          rw [step_of_executes (reserved_executes hr v he), reserved_tickState hr v (fun _ => reserved_bodyOf_of_executes hr v he hw) hu]
        | rejected d =>
          rw [step_of_rejected hh ha hf hd] at h
          cases h
          rw [step_of_rejected hh' ha' hf' hd, reserved_takeInterrupt hr v hu]
      | raise j =>
        rw [hf] at hf'
        rw [step_of_fetch_raise hh ha hf] at h
        cases h
        rw [step_of_fetch_raise hh' ha' hf', reserved_takeInterrupt hr v hu]
      | bounds =>
        rw [hf] at hf'
        rw [step_of_fetch_bounds hh ha hf] at h
        cases h
        rw [step_of_fetch_bounds hh' ha' hf', dropTick_setPReg]

/-- The PMOV that names the register overwrites it, so the value it held before leaves no trace. -/
theorem reserved_step_of_pmov {s : State} {r1 : Reg} {off : Imm} (he : s.executes (.pmov r r1 off)) (hp : s.privileged) :
    step (s.setPReg r v) = step s := by
  obtain ⟨t, ht⟩ := fetches_of_executes he
  rw [step_of_pmov he hp ht,
    step_of_pmov (reserved_executes hr v he) (reserved_privileged hr v hp) (reserved_fetches hr v ht),
    commit_setPReg, setPReg_setPReg_self, setPReg_regPlus]

omit v in
/-- `reserved_step` at the value the register holds. -/
theorem reserved_step_keeps {s u : State} (h : step s = .next u) (hu : u.halted = false)
    (hw : ∀ r1 off, s.executes (.pmov r r1 off) → ¬ s.privileged) : u.preg r = s.preg r := by
  have e := reserved_step hr (s.preg r) h hu hw
  rw [setPReg_preg_self, h] at e
  injection e with e
  rw [e, preg_setPReg_self]

end

/-- Settles O55: a tick that executes no privileged PMOV naming the register commutes with writing it; that PMOV overwrites it. -/
theorem reservedRegistersAreInertStorage : Obligations.ReservedRegistersAreInertStorage := by
  intro s r hr
  refine ⟨fun u h hu => ?_, fun r1 off he hp => ?_⟩
  · by_cases hw : ∃ r1 off, s.executes (.pmov r r1 off) ∧ s.privileged
    · obtain ⟨r1, off, he, hp⟩ := hw
      obtain ⟨t, ht⟩ := fetches_of_executes he
      have hu' : u = (commit t none).setPReg r (s.regPlus r1 off) := by
        rw [step_of_pmov he hp ht] at h
        injection h with h
        exact h.symm
      refine ⟨.inr ⟨r1, off, he, hp, ?_⟩, fun v => ⟨u.preg r, ?_⟩⟩
      · rw [hu', preg_setPReg_self]
        rfl
      · rw [reserved_step_of_pmov hr v he hp, h, setPReg_preg_self]
    · have hw' : ∀ r1 off, s.executes (.pmov r r1 off) → ¬ s.privileged := fun r1 off he hp => hw ⟨r1, off, he, hp⟩
      exact ⟨.inl (reserved_step_keeps hr h hu hw'), fun v => ⟨v, reserved_step hr v h hu hw'⟩⟩
  · obtain ⟨t, w, hf⟩ := fetches_of_executes he
    have hm := fetch_memoryOnly hf
    refine ⟨_, step_of_pmov he hp ⟨w, hf⟩, preg_setPReg_self _ _ _, hm.handlingInterrupt, hm.lastInt, ?_⟩
    rw [State.setPReg_ip, commit_ip, hm.ip, Option.getD_none]

end Sys2Proof.Machine
end

section
/-! The entry check and the walk in the words of their rules (20_memory.md R71, R75): what a failing and a passing entry make the check
answer, where each of the two checks ends the walk, and that privileged mode leaves OCCUPIED alone to fail. -/

namespace Sys2Proof.Machine

/-! ### One entry check -/

theorem checkEntry_of_firstFailure {s : State} {e : Entry} {write jump : Bool} {mask : Word}
    (h : firstFailure (s.flagPE = true) e write jump mask) (la : Addr) :
    checkEntry s e la write jump = .raise (pageFaultOf mask la) :=
  checkEntry_eq_raise.mpr ⟨mask, entryFailure_eq_some.mpr h, rfl⟩

theorem checkEntry_of_no_firstFailure {s : State} {e : Entry} {write jump : Bool}
    (h : ∀ mask, ¬firstFailure (s.flagPE = true) e write jump mask) (la : Addr) : checkEntry s e la write jump = .ok () :=
  checkEntry_eq_ok.mpr (entryFailure_eq_none.mpr h)

/-- In privileged mode OCCUPIED is the one bit that can fail (20_memory.md R71, R75). -/
theorem firstFailure_privileged_iff {user : Prop} (hu : ¬user) {e : Entry} {write jump : Bool} {mask : Word} :
    firstFailure user e write jump mask ↔ e &&& 0x01#32 = 0#32 ∧ mask = 0x01#64 := by
  simp only [firstFailure, hu, false_and, and_false, or_false]

theorem checkEntry_privileged {s : State} (hs : s.flagPE = false) (e : Entry) (la : Addr) (write jump : Bool) :
    checkEntry s e la write jump = if e &&& 0x01#32 = 0#32 then .raise (pageFaultOf 0x01#64 la) else .ok () := by
  have hu : ¬s.flagPE = true := by simp [hs]
  split
  next ho => exact checkEntry_of_firstFailure ((firstFailure_privileged_iff hu).mpr ⟨ho, rfl⟩) la
  next ho => exact checkEntry_of_no_firstFailure (fun _ hf => ho ((firstFailure_privileged_iff hu).mp hf).1) la

/-! ### The walk, up to the check that ends it -/

section
variable {s : State} {la : Addr} {write jump : Bool} {root : Entry}

theorem resolve_of_root_fails {mask : Word} (hp : s.flagPG = true) (hr : readEntry s (rootEntryAddr s la) = .ok root)
    (hf : firstFailure (s.flagPE = true) root write jump mask) :
    resolve s la write jump = .raise (pageFaultOf mask la) := by
  rw [resolve, if_pos hp, walk, hr, Access.andThen_ok, checkEntry_of_firstFailure hf, Access.andThen_raise]

/-- The page entry is checked only once the root entry has passed; no write-back has happened by then (20_memory.md R75, D5). -/
theorem resolve_of_page_fails {page : Entry} {mask : Word} (hp : s.flagPG = true)
    (hr : readEntry s (rootEntryAddr s la) = .ok root)
    (hroot : ∀ mask, ¬firstFailure (s.flagPE = true) root write jump mask)
    (hg : readEntry s (pageEntryAddr root la) = .ok page) (hf : firstFailure (s.flagPE = true) page write jump mask) :
    resolve s la write jump = .raise (pageFaultOf mask la) := by
  rw [resolve, if_pos hp, walk, hr, Access.andThen_ok, checkEntry_of_no_firstFailure hroot, Access.andThen_ok,
    hg, Access.andThen_ok, checkEntry_of_firstFailure hf, Access.andThen_raise]

end

/-- Settles O17: the walk ends at the first check that fails, and a walk whose two checks pass succeeds. -/
theorem entryChecksInOrder : Obligations.EntryChecksInOrder := by
  intro s la write jump root hp hr
  refine ⟨fun mask hf => resolve_of_root_fails hp hr hf, fun hroot page hg => ⟨fun mask hf => ?_, fun hpage => ?_⟩,
    fun hs e mask => firstFailure_privileged_iff (by simp [hs])⟩
  · exact resolve_of_page_fails hp hr hroot hg hf
  · exact ⟨_, _, resolve_eq_walked hp hr (entryFailure_eq_none.mpr hroot) hg (entryFailure_eq_none.mpr hpage)⟩

/-- Settles O16: with PG = 0 no walk takes place, and with PE = 0 a walk's check fails on OCCUPIED alone. -/
theorem translationOffIsIdentity : Obligations.TranslationOffIsIdentity :=
  ⟨fun _ _ _ _ hp => resolve_of_off hp, fun _ e la write jump hs => checkEntry_privileged hs e la write jump⟩

end Sys2Proof.Machine
end

section
/-! The encoding function on plain numbers (30_encoding.md R118): where every number fits its field, its word is the word of those
fields, so the word's value is read off its fields and the fields of the word are the numbers again. -/

namespace Sys2Proof

/-- The value of a word by its fields (30_encoding.md R101): each field is shifted past the bits of the fields below it. -/
theorem Fields.toNat_toWord (g : Fields) :
    g.toWord.toNat = g.opcode.toNat * 2 ^ 24 + g.r0.toNat * 2 ^ 20 + g.r1.toNat * 2 ^ 16 + g.offset.toNat := by
  rw [Fields.toWord, BitVec.toNat_append, ← Nat.shiftLeft_add_eq_or_of_lt g.offset.isLt,
    BitVec.toNat_append, ← Nat.shiftLeft_add_eq_or_of_lt g.r1.isLt,
    BitVec.toNat_append, ← Nat.shiftLeft_add_eq_or_of_lt g.r0.isLt]
  simp only [Nat.shiftLeft_eq]
  omega

/-! ### The fields that hold plain numbers -/

/-- The numbers as fields, each cut to its field's width. -/
def RawFields.toFields (f : RawFields) : Fields :=
  ⟨BitVec.ofNat 8 f.op, BitVec.ofNat 4 f.r0, BitVec.ofNat 4 f.r1, BitVec.ofInt 16 f.off⟩

section
variable {f : RawFields}

theorem RawFields.toFields_opcode (hop : f.op < 256) : f.toFields.opcode.toNat = f.op := Nat.mod_eq_of_lt hop

theorem RawFields.toFields_r0 (h0 : f.r0 < 16) : f.toFields.r0.toNat = f.r0 := Nat.mod_eq_of_lt h0

theorem RawFields.toFields_r1 (h1 : f.r1 < 16) : f.toFields.r1.toNat = f.r1 := Nat.mod_eq_of_lt h1

theorem RawFields.toFields_offset (f : RawFields) : f.toFields.offset.toNat = (f.off % 65536).toNat := BitVec.toNat_ofInt f.off

/-- Two's complement loses no displacement of the field's range (30_encoding.md R104). -/
theorem RawFields.toFields_offset_toInt (hlo : -32768 ≤ f.off) (hhi : f.off ≤ 32767) : f.toFields.offset.toInt = f.off :=
  BitVec.toInt_ofInt_eq_self (by decide) hlo (Int.lt_add_one_of_le hhi)

end

/-! ### The encoding function -/

/-- The mask of R118 keeps the low 16 bits of the displacement, those of its field. -/
theorem toNat_ofInt_and_mask (z : Int) : (BitVec.ofInt 32 z &&& 0xFFFF#32).toNat = (z % 65536).toNat := by
  have hmask : (0xFFFF#32).toNat = 2 ^ 16 - 1 := rfl
  rw [BitVec.toNat_and, hmask, Nat.and_two_pow_sub_one_eq_mod, BitVec.toNat_ofInt]
  omega

section
variable {f : RawFields} (hop : f.op < 256) (h0 : f.r0 < 16) (h1 : f.r1 < 16)
include hop h0 h1

/-- R118's shifts lose no bit of the numbers and put them where the fields of a word stand. -/
theorem RawFields.encode_eq_toWord : f.encode = f.toFields.toWord := by
  apply BitVec.eq_of_toNat_eq
  have hop' : f.op <<< 24 % 2 ^ 32 = f.op <<< 24 := Nat.mod_eq_of_lt (by omega)
  have h0' : f.r0 <<< 20 % 2 ^ 32 = f.r0 <<< 20 := Nat.mod_eq_of_lt (by omega)
  have h1' : f.r1 <<< 16 % 2 ^ 32 = f.r1 <<< 16 := Nat.mod_eq_of_lt (by omega)
  calc f.encode.toNat
    _ = f.op <<< 24 ||| f.r0 <<< 20 ||| f.r1 <<< 16 ||| (f.off % 65536).toNat := by
      simp only [encode, BitVec.toNat_or, BitVec.toNat_ofNat, toNat_ofInt_and_mask, hop', h0', h1']
    _ = ((f.op <<< 4 ||| f.r0) <<< 4 ||| f.r1) <<< 16 ||| (f.off % 65536).toNat := by
      simp only [Nat.shiftLeft_or_distrib, ← Nat.shiftLeft_add]
    _ = f.toFields.toWord.toNat := by
      simp only [Fields.toWord, BitVec.toNat_append, toFields_opcode hop, toFields_r0 h0, toFields_r1 h1, toFields_offset]

/-- The value of the word that R118 gives. -/
theorem RawFields.toNat_encode :
    f.encode.toNat = f.op * 2 ^ 24 + f.r0 * 2 ^ 20 + f.r1 * 2 ^ 16 + (f.off % 65536).toNat := by
  rw [encode_eq_toWord hop h0 h1, Fields.toNat_toWord, toFields_opcode hop, toFields_r0 h0, toFields_r1 h1, toFields_offset]

/-- The fields of R118's word are the numbers again (30_encoding.md R103). -/
theorem RawFields.ofWord_encode (hlo : -32768 ≤ f.off) (hhi : f.off ≤ 32767) : RawFields.ofWord f.encode = f := by
  rw [RawFields.ofWord, encode_eq_toWord hop h0 h1, Fields.ofWord_toWord, toFields_opcode hop, toFields_r0 h0, toFields_r1 h1,
    toFields_offset_toInt hlo hhi]

end

/-- Settles O2: on R118's domain the encoding function gives the word of the fields, and reading its fields gives the numbers back. -/
theorem fieldEncodingRoundTrip : Obligations.FieldEncodingRoundTrip :=
  fun _ hop h0 h1 hlo hhi => ⟨RawFields.toNat_encode hop h0 h1, RawFields.ofWord_encode hop h0 h1 hlo hhi⟩

end Sys2Proof
end

section
/-! Moves (40_move.md): an instruction whose body ends by writing one general register changes that register and IP alone, and MOV is one
of those. -/

namespace Sys2Proof.Machine

/-- The second operand of an instruction: `x[r1]` plus the sign-extended offset (30_encoding.md R104). -/
theorem State.regPlus_eq (s : State) (r : Reg) (off : Imm) : s.regPlus r off = s.reg r + off.signExtend 64 := rfl

/-- A register write and a commit change that register and IP alone. -/
theorem setReg_onlyChanges (t : State) (r : Reg) (v : Word) (next : Option Word) :
    onlyChanges t (commit (t.setReg r v) next) [r] [] nowhere := by
  refine ⟨⟨fun q hq => ?_, fun q _ => ?_, rfl, fun _ _ => rfl, rfl, rfl, rfl, rfl, rfl⟩, rfl⟩
  · rw [List.mem_singleton] at hq
    rw [State.reg_commit, State.reg_setReg, if_neg hq]
  · rw [State.preg_commit, State.preg_setReg]

/-- An instruction whose body ends by writing `v` to `x[r]` completes. `m` is the state its accesses to memory left; an instruction with
none has the fetch's own state there. -/
theorem exec_of_setReg {op : Instr} {r : Reg} {v : Word} {s t m : State} {w : InstrWord} (hf : fetch s = .ok (w, t))
    (hm : MemoryOnly t m) (hb : bodyOf op t = .ok (m.setReg r v, none)) :
    ∃ u, exec op s = .next u ∧ u.reg r = written r v ∧ u.ip = s.ip + 4#64 ∧ onlyChanges m u [r] [] nowhere := by
  refine ⟨_, exec_of_ok hf hb, ?_, ?_, setReg_onlyChanges ..⟩
  · rw [State.reg_commit, reg_setReg_self]
  · rw [commit_ip, State.setReg_ip, hm.ip, (fetch_memoryOnly hf).ip, Option.getD_none]

/-- The body of MOV on the state a fetch left: the operand is read as it stood at the start of the tick, for a fetch writes no register. -/
theorem bodyOf_mov_of_fetch {s t : State} {w : InstrWord} (hf : fetch s = .ok (w, t)) (r0 r1 : Reg) (off : Imm) :
    bodyOf (.mov r0 r1 off) t = .ok (t.setReg r0 (s.reg r1 + off.signExtend 64), none) := by
  rw [bodyOf, movBody, (fetch_memoryOnly hf).regPlus, State.regPlus_eq]

/-- Settles O20: MOV's body is one register write on the state its fetch left. -/
theorem movMovesRegisterPlusOffset : Obligations.MovMovesRegisterPlusOffset := by
  intro r0 r1 off
  refine ⟨rfl, fun s t hfetch => ?_⟩
  obtain ⟨w, hf⟩ := hfetch
  exact exec_of_setReg hf (MemoryOnly.refl t) (bodyOf_mov_of_fetch hf r0 r1 off)

end Sys2Proof.Machine
end

section
/-! Branches (43_branch.md): every branch leaves its fetch's state as it is but for IP, and goes to the absolute `x[r1] + offset` exactly when its
condition holds. The one idea: a condition and a target read registers and flags, and a fetch writes neither, so both may be read at the start
of the tick. -/

namespace Sys2Proof.Machine

/-! ### Decoding a word given by its fields -/

/-- Which instruction a word written out by its fields is (30_encoding.md R101, R105). -/
theorem decode_append {opcode : BitVec 8} {r0 r1 : BitVec 4} {off : Imm} {op : Instr} :
    decode (opcode ++ r0 ++ r1 ++ off) = .instr op ↔ (Fields.mk opcode r0 r1 off).select = some op := by
  have hword : opcode ++ r0 ++ r1 ++ off = (Fields.mk opcode r0 r1 off).toWord := rfl
  rw [hword, decode_eq_instr, Fields.ofWord_toWord]

/-- The opcode map at 15 does not look at the `r0` field (43_branch.md R161; D24). -/
theorem select_jmp (r0 : BitVec 4) (r1 : Reg) (off : Imm) : (Fields.mk 0x0F#8 r0 r1.index off).select = some (.jmp r1 off) := by
  simp [Fields.select]

/-! ### What a condition reads -/

section
variable {s t : State} (h : MemoryOnly s t)
include h

theorem MemoryOnly.flagZ : t.flagZ = s.flagZ := by rw [State.flagZ, h.p, State.flagZ]
theorem MemoryOnly.flagN : t.flagN = s.flagN := by rw [State.flagN, h.p, State.flagN]

end

theorem fetches_memoryOnly {s t : State} (h : fetches s t) : MemoryOnly s t := by
  obtain ⟨w, hf⟩ := h
  exact fetch_memoryOnly hf

/-! ### The shape of every branch (43_branch.md R160) -/

theorem branchBody_of_taken {cond : State → Bool} {t : State} (h : cond t = true) (r1 : Reg) (off : Imm) :
    branchBody cond r1 off t = .ok (t, some (t.reg r1 + off.signExtend 64)) := by
  rw [branchBody, if_pos h, State.regPlus_eq]

theorem branchBody_of_not_taken {cond : State → Bool} {t : State} (h : ¬cond t = true) (r1 : Reg) (off : Imm) :
    branchBody cond r1 off t = .ok (t, none) := by
  rw [branchBody, if_neg h]

/-- A commit changes IP alone. -/
theorem commit_onlyChanges (t : State) (next : Option Word) : onlyChanges t (commit t next) [] [] nowhere :=
  ⟨⟨fun _ _ => rfl, fun _ _ => rfl, rfl, fun _ _ => rfl, rfl, rfl, rfl, rfl, rfl⟩, rfl⟩

/-- A branch completes. `taken` says its condition as it stands at the start of the tick. -/
theorem exec_of_branchBody {op : Instr} {cond : State → Bool} {r1 : Reg} {off : Imm} {s t : State} {taken : Prop}
    (hop : bodyOf op = branchBody cond r1 off) (ht : fetches s t) (hcond : cond t = true ↔ taken) :
    ∃ u, exec op s = .next u ∧ (taken → u.ip = s.reg r1 + off.signExtend 64) ∧ (¬taken → u.ip = s.ip + 4#64) ∧
      onlyChanges t u [] [] nowhere := by
  have hm := fetches_memoryOnly ht
  obtain ⟨w, hf⟩ := ht
  by_cases hc : taken
  · have hb : bodyOf op t = .ok (t, some (s.reg r1 + off.signExtend 64)) := by
      rw [hop, branchBody_of_taken (hcond.mpr hc), hm.reg]
    exact ⟨_, exec_of_ok hf hb, fun _ => rfl, fun hn => absurd hc hn, commit_onlyChanges ..⟩
  · have hb : bodyOf op t = .ok (t, none) := by rw [hop, branchBody_of_not_taken (mt hcond.mp hc)]
    refine ⟨_, exec_of_ok hf hb, fun hy => absurd hy hc, fun _ => ?_, commit_onlyChanges ..⟩
    rw [commit_ip, hm.ip, Option.getD_none]

/-! ### The five branches -/

/-- Settles O29: JMP is the branch whose condition always holds, and its `r0` field is never looked at. -/
theorem jmpGoesToItsTarget : Obligations.JmpGoesToItsTarget := by
  intro r1 off
  refine ⟨rfl, fun r0 => decode_append.mpr (select_jmp r0 r1 off), fun s t ht => ?_⟩
  obtain ⟨u, hu, htaken, -, hrest⟩ := exec_of_branchBody (op := .jmp r1 off) (taken := True) rfl ht (iff_of_true rfl trivial)
  exact ⟨u, hu, htaken trivial, hrest⟩

/-- Settles O30: each of the three is a branch on flags that its fetch left as they were. -/
theorem conditionalBranchesTestFlags : Obligations.ConditionalBranchesTestFlags := by
  intro r1 off
  refine ⟨rfl, rfl, rfl, fun s t ht => ?_⟩
  have hm := fetches_memoryOnly ht
  refine ⟨exec_of_branchBody (op := .jlt r1 off) rfl ht ?jlt, exec_of_branchBody (op := .jgt r1 off) rfl ht ?jgt,
    exec_of_branchBody (op := .jzr r1 off) rfl ht ?jzr⟩
  case jlt => rw [hm.flagN]
  case jgt => rw [hm.flagZ, hm.flagN, Bool.and_eq_true, Bool.not_eq_true', Bool.not_eq_true']
  case jzr => rw [hm.flagZ]

/-- Settles O31: JIF is the branch on `x[r0]`, all of it; `Z` reads 0, so a JIF on it is never taken. -/
theorem jifTestsItsRegister : Obligations.JifTestsItsRegister := by
  intro r0 r1 off
  refine ⟨rfl, fun s t ht => ?_⟩
  have hcond : decide (t.reg r0 ≠ 0#64) = true ↔ s.reg r0 ≠ 0#64 := by
    rw [(fetches_memoryOnly ht).reg, decide_eq_true_iff]
  obtain ⟨u, hu, htaken, hnot, hrest⟩ := exec_of_branchBody (op := .jif r0 r1 off) rfl ht hcond
  have hzero : s.reg r0 = 0#64 → u.ip = s.ip + 4#64 := fun h0 => hnot (not_not_intro h0)
  have hz : r0 = .z → s.reg r0 = 0#64 := fun h => h ▸ State.reg_z s
  exact ⟨u, hu, htaken, hzero, fun h => hzero (hz h), hrest⟩

end Sys2Proof.Machine
end

section
/-! The ALU instructions that only compute (44_alu.md): an instruction of the ALU's shape whose two conditions never hold keeps CARRY and
OVERFLOW, for they are sticky (D11). AND, OR, XOR, SHL and MUL are five of those. -/

namespace Sys2Proof.Machine

/-- Completion under equivalent conditions for CARRY and OVERFLOW. -/
theorem aluCompletes_congr {op : Instr} {s t : State} {r0 : Reg} {result : Word} {c c' v v' : Prop} (hc : c ↔ c') (hv : v ↔ v')
    (h : aluCompletes op s t r0 c v result) : aluCompletes op s t r0 c' v' result := by
  obtain ⟨u, hu, hreg, hflags, hrest⟩ := h
  exact ⟨u, hu, hreg, aluFlagsFrom_congr hc hv hflags, hrest⟩

/-- The condition of every operation but ADD and SUB never holds (44_alu.md R171). -/
theorem noFlag_iff (o1 o2 result : Word) : noFlag o1 o2 result = true ↔ False := by
  rw [noFlag, Bool.false_eq_true]

/-- An instruction of the ALU's shape with neither condition completes with its operation's value at `x[r0]` and `x[r1] + offset`. -/
theorem aluCompletes_of_noFlag {op : Instr} {f : Word → Word → Word} {r0 r1 : Reg} {off : Imm} {s t : State}
    (hop : bodyOf op = aluBody f noFlag noFlag r0 r1 off) (h : fetches s t) :
    aluCompletes op s t r0 False False (f (s.reg r0) (s.reg r1 + off.signExtend 64)) := by
  have hdone := aluCompletes_of_body hop h
  rw [State.regPlus_eq] at hdone
  exact aluCompletes_congr (noFlag_iff ..) (noFlag_iff ..) hdone

/-- Settles O32: each of the five is its own operation in the ALU's shape with neither condition; SHL's amount is `o2` modulo 64. -/
theorem logicShiftLeftAndMultiply : Obligations.LogicShiftLeftAndMultiply := by
  intro r0 r1 off
  refine ⟨rfl, rfl, rfl, rfl, rfl, fun s t ht => ⟨?and, ?or, ?xor, ?shl, ?mul⟩⟩
  case and => exact aluCompletes_of_noFlag (f := fun o1 o2 => o1 &&& o2) rfl ht
  case or => exact aluCompletes_of_noFlag (f := fun o1 o2 => o1 ||| o2) rfl ht
  case xor => exact aluCompletes_of_noFlag (f := fun o1 o2 => o1 ^^^ o2) rfl ht
  case shl =>
    rw [← shiftAmount_eq]
    exact aluCompletes_of_noFlag (f := fun o1 o2 => o1 <<< shiftAmount o2) rfl ht
  case mul => exact aluCompletes_of_noFlag (f := mulLow) rfl ht

end Sys2Proof.Machine
end

section
/-! The encoding both ways (30_encoding.md): decoding looks up the fields of a word, so every statement is one about `Fields.select`. The
one idea: what the opcode map selects is encoded with the word's own fields, those that it ignores cleared. -/

namespace Sys2Proof

/-! ### From an instruction to its word and back -/

/-- The opcode map selects an instruction from its own fields (30_encoding.md R105). -/
theorem Instr.select_fields (op : Instr) : op.fields.select = some op := by
  cases op <;> simp [Instr.fields, Fields.select]

theorem Fields.ofWord_encode (op : Instr) : Fields.ofWord (encode op) = op.fields :=
  Fields.ofWord_toWord op.fields

/-- Settles O1: the fields of an instruction's word are the instruction's, and they select it. -/
theorem decodeEncodeRoundTrip : Obligations.DecodeEncodeRoundTrip := by
  intro op
  rw [decode_eq_instr, Fields.ofWord_encode, Instr.select_fields]

/-! ### The opcode map -/

/-- The opcodes from 35 on select nothing (30_encoding.md R106). -/
theorem Fields.select_eq_none {f : Fields} (h : 35 ≤ f.opcode.toNat) : f.select = none := by
  unfold Fields.select
  split
  case h_36 => rfl
  all_goals omega

theorem decode_of_unknown_opcode {w : InstrWord} (h : 35 ≤ (w.extractLsb' 24 8).toNat) :
    decode w = .rejected (.unknownOpcode (w.extractLsb' 24 8)) := by
  have hnone : (Fields.ofWord w).select = none := Fields.select_eq_none h
  rw [decode, hnone]
  rfl

theorem extractLsb'_opcode (op : BitVec 8) (a b : BitVec 4) (off : Imm) :
    (op ++ a ++ b ++ off : InstrWord).extractLsb' 24 8 = op :=
  congrArg Fields.opcode (Fields.ofWord_toWord ⟨op, a, b, off⟩)

/-- Settles O3: the fields select their instruction by evaluation, opcode by opcode; from 35 on nothing is selected. -/
theorem decodeFollowsOpcodeMap : Obligations.DecodeFollowsOpcodeMap := by
  intro a b off
  have known : ∀ {opcode : BitVec 8} {op : Instr}, (Fields.mk opcode a b off).select = some op →
      decode (opcode ++ a ++ b ++ off) = .instr op := Machine.decode_append.mpr
  have unknown : ∀ op : BitVec 8, 35 ≤ op.toNat → decode (op ++ a ++ b ++ off) = .rejected (.unknownOpcode op) := by
    intro op h
    rw [decode_of_unknown_opcode (by rwa [extractLsb'_opcode]), extractLsb'_opcode]
  refine ⟨?_, ?_, ?_, ?_, ?_, ?_, ?_, ?_, ?_, ?_, ?_, ?_, ?_, ?_, ?_, ?_, ?_, ?_, ?_, ?_, ?_, ?_, ?_, ?_, ?_, ?_, ?_, ?_,
    ?_, ?_, ?_, ?_, ?_, ?_, ?_, unknown⟩
  all_goals exact known rfl

/-! ### The fields an instruction keeps -/

/-- The fields with the ones cleared that their opcode ignores (30_encoding.md R105, R108). -/
def Fields.used (f : Fields) : Fields :=
  let n := f.opcode.toNat
  { opcode := f.opcode
    r0 := if (15 ≤ n ∧ n ≤ 18) ∨ n = 32 ∨ n = 34 then 0#4 else f.r0
    r1 := if n = 1 ∨ n = 13 ∨ n = 14 ∨ n = 34 then 0#4 else f.r1
    offset := if n = 1 ∨ n = 14 ∨ n = 34 then 0#16 else f.offset }

/-- What the opcode map selects is encoded with the fields it looked at. -/
theorem Fields.fields_of_select {f : Fields} {op : Instr} (h : f.select = some op) : op.fields = f.used := by
  unfold Fields.select at h
  split at h <;> cases h
  all_goals
    rename_i hn
    have hopcode := congrArg (BitVec.ofNat 8) hn
    rw [BitVec.ofNat_toNat, BitVec.setWidth_eq] at hopcode
    simp [Instr.fields, Fields.used, hopcode]

section
variable {f : Fields}

theorem Fields.used_r0 (h : ¬((15 ≤ f.opcode.toNat ∧ f.opcode.toNat ≤ 18) ∨ f.opcode.toNat = 32 ∨ f.opcode.toNat = 34)) :
    f.used.r0 = f.r0 := if_neg h

theorem Fields.used_r1
    (h : ¬(f.opcode.toNat = 1 ∨ f.opcode.toNat = 13 ∨ f.opcode.toNat = 14 ∨ f.opcode.toNat = 34)) : f.used.r1 = f.r1 := if_neg h

theorem Fields.used_offset (h : ¬(f.opcode.toNat = 1 ∨ f.opcode.toNat = 14 ∨ f.opcode.toNat = 34)) :
    f.used.offset = f.offset := if_neg h

end

/-- Settles O4: the word of a decoded instruction has the fields of the word it was decoded from, the ignored ones cleared. -/
theorem encodeOfDecodedWord : Obligations.EncodeOfDecodedWord := by
  intro w op h
  have hfields : Fields.ofWord (encode op) = (Fields.ofWord w).used := by
    rw [Fields.ofWord_encode, Fields.fields_of_select (decode_eq_instr.mp h)]
  refine ⟨congrArg Fields.opcode hfields, fun n hn => ?_⟩
  replace hn : (Fields.ofWord w).opcode.toNat = n := hn
  refine ⟨fun hall => ?all, fun hr0 => ?r0, fun hr1 => ?r1, fun hoff => ?off⟩
  case all =>
    have hused : (Fields.ofWord w).used = Fields.ofWord w := by
      rw [Fields.mk.injEq]
      exact ⟨rfl, Fields.used_r0 (by omega), Fields.used_r1 (by omega), Fields.used_offset (by omega)⟩
    rw [← Fields.toWord_ofWord (encode op), hfields, hused, Fields.toWord_ofWord]
  case r0 => exact (congrArg Fields.r0 hfields).trans (Fields.used_r0 (by omega))
  case r1 => exact (congrArg Fields.r1 hfields).trans (Fields.used_r1 (by omega))
  case off => exact (congrArg Fields.offset hfields).trans (Fields.used_offset (by omega))

/-! ### The bytes of an instruction -/

theorem decodeBytes_encodeBytes_append (op : Instr) (rest : List Byte) :
    decodeBytes (encodeBytes op ++ rest) = (.instr op, rest) := by
  have hdecode : decodeBytes (bytesOfWord (encode op) ++ rest) = (decode (encode op), rest) := by
    simp only [bytesOfWord, List.cons_append, List.nil_append, decodeBytes, wordOfBytes_bytesOfWord]
  rw [encodeBytes, hdecode, decodeEncodeRoundTrip op]

open Machine in
/-- With PG = 0 the fetch reads the four bytes at LA(IP) and changes nothing (30_encoding.md R114). -/
theorem fetch_of_translation_off {s : State} (hp : s.flagPG = false) (hb : (addrOf s.ip).toNat + 4 ≤ s.mem.size) :
    fetch s = .ok (fourBytes s.mem (addrOf s.ip).toNat, s) :=
  fetch_eq_ok.mpr ⟨addrOf s.ip, resolve_of_off hp, hb, readLE_four ..⟩

/-- Settles O5. -/
theorem instructionBytesAreLittleEndian : Obligations.InstructionBytesAreLittleEndian :=
  ⟨decodeBytes_encodeBytes_append, fun _ => rfl, fun _ => fetch_of_translation_off⟩

/-- Settles O6: each word is looked up by evaluation. -/
theorem decodesWordsFromTheSpec : Obligations.DecodesWordsFromTheSpec :=
  ⟨rfl, rfl, rfl, rfl, rfl, rfl, rfl, rfl⟩

end Sys2Proof
end

section
/-! Whole ticks (60_exceptions.md R228): the order of their events, and what a tick that does not double-fault can have done. The one idea:
such a tick has dropped, has entered a handler, or has completed its instruction, and nothing else; every statement about the whole machine
is read off these three. -/

namespace Sys2Proof.Machine

/-! ### The order of a tick's events -/

theorem acceptsInterrupt_eq_true {s : State} :
    acceptsInterrupt s = true ↔ s.intSet = true ∧ s.flagIE = true ∧ s.handlingInterrupt = false := by
  simp [acceptsInterrupt, and_assoc]

theorem acceptsInterrupt_eq_false {s : State} :
    acceptsInterrupt s = false ↔ s.intSet = false ∨ s.flagIE = false ∨ s.handlingInterrupt = true := by
  simp only [acceptsInterrupt, Bool.and_eq_false_iff, Bool.not_eq_false', or_assoc]

/-- Settles O7. -/
theorem stepRunsDecodedInstruction : Obligations.StepRunsDecodedInstruction := by
  intro s op h
  rw [step_of_executes h, exec_eq_next]

/-- Settles O8: one equation of `step` for each event, in the order of the tests. -/
theorem stepTakesTheFirstEvent : Obligations.StepTakesTheFirstEvent := by
  intro s
  refine ⟨step_of_halted, fun hh hs hi hn => step_of_accepts hh (acceptsInterrupt_eq_true.mpr ⟨hs, hi, hn⟩), fun hh hm => ?_⟩
  have ha := acceptsInterrupt_eq_false.mpr hm
  exact ⟨fun j hf => step_of_fetch_raise hh ha hf, fun hf => step_of_fetch_bounds hh ha hf,
    fun w t hf hw => step_of_rejected hh ha hf (decode_of_unknown_opcode hw)⟩

theorem step_has_next (s : State) : ∃ u, step s = .next u := by
  cases hh : s.halted with
  | true => exact ⟨_, step_of_halted hh⟩
  | false =>
    cases ha : acceptsInterrupt s with
    | true => exact ⟨_, step_of_accepts hh ha⟩
    | false =>
      cases hf : fetch s with
      | ok f =>
        cases hd : decode f.1 with
        | instr op => exact ⟨_, step_of_executes ⟨hh, ha, f.1, f.2, hf, hd⟩⟩
        | rejected d => exact ⟨_, step_of_rejected hh ha hf hd⟩
      | raise j => exact ⟨_, step_of_fetch_raise hh ha hf⟩
      | bounds => exact ⟨_, step_of_fetch_bounds hh ha hf⟩

/-- Settles O9: every event of a tick, and every instruction's tick, answers a next state. -/
theorem everyTickHasANextState : Obligations.EveryTickHasANextState :=
  ⟨step_has_next, fun op s => ⟨_, exec_eq_next op s⟩⟩

/-! ### A handler entered -/

/-- `u` is the handler of `j` entered in a tick from `s` (60_exceptions.md R233): what entry changes, memory and IP apart. -/
structure Entered (s u : State) (j : Interrupt) : Prop where
  /-- No interrupt was being handled. -/
  before : s.handlingInterrupt = false
  handling : u.handlingInterrupt = true
  lastInt : u.lastInt = j
  x : u.x = { s.x with sp := s.p.psp - 16#64 }
  p : u.p = { s.p with eflags := handlerFlags s.p.eflags, usp := s.x.sp }
  intCode : u.intCode = s.intCode
  halted : u.halted = s.halted
  size : u.mem.size = s.mem.size

/-- Entry that succeeds enters the handler, and keeps the pending bit it starts with. -/
theorem entered_of_enterHandler {base u : State} {j : Interrupt} (hh : base.handlingInterrupt = false)
    (hu : enterHandler { base with lastInt := j } j.code = .ok u) : Entered base u j ∧ u.intSet = base.intSet := by
  obtain ⟨v, he, hsize, -⟩ := enterHandler_state hu
  have field : ∀ {α : Type} (f : State → α), f u = _ := fun f => congrArg f he
  exact ⟨⟨hh, field State.handlingInterrupt, field State.lastInt, field State.x, field State.p, field State.intCode,
    field State.halted, hsize⟩, field State.intSet⟩

/-- Taking an interrupt without a double fault drops the tick or enters the handler. -/
theorem takeInterruptFrom_entered {start base : State} {j : Interrupt}
    (hh : (takeInterruptFrom start base j).halted = false) :
    takeInterruptFrom start base j = dropTick start ∨
      Entered base (takeInterruptFrom start base j) j ∧ (takeInterruptFrom start base j).intSet = base.intSet := by
  rcases takeInterruptFrom_cases start base j with h | ⟨k, h, -⟩ | ⟨hb, u, hu, h⟩ <;> rw [h] at hh ⊢
  · exact .inl rfl
  · cases hh
  · exact .inr (entered_of_enterHandler hb hu)

section
variable {s u : State} {j : Interrupt} (h : Entered s u j)
include h

theorem Entered.reg_sp : u.reg .sp = s.preg .psp - 16#64 := congrArg Regs.sp h.x

theorem Entered.preg_usp : u.preg .usp = s.reg .sp := congrArg PRegs.usp h.p

theorem Entered.eflags : u.p.eflags = handlerFlags s.p.eflags := congrArg PRegs.eflags h.p

theorem Entered.reg {r : Reg} (hr : r ≠ .sp) : u.reg r = s.reg r := by
  rw [State.reg, h.x, Regs.with_sp, Regs.get_set_ne _ _ hr, State.reg]

theorem Entered.preg {r : PReg} (hu : r ≠ .usp) (he : r ≠ .eflags) : u.preg r = s.preg r := by
  rw [State.preg, h.p]
  cases r <;> first | rfl | contradiction

/-- The handler runs privileged. -/
theorem Entered.flagPE : u.flagPE = false := by
  rw [State.flagPE, h.eflags, handlerFlags_bit, beq_self_eq_true, Bool.not_true, Bool.and_false]

/-- The handler runs with hardware interrupts masked. -/
theorem Entered.flagIE : u.flagIE = false := by
  rw [State.flagIE, h.eflags, handlerFlags_bit, beq_self_eq_true, Bool.not_true, Bool.and_false, Bool.false_and]

theorem Entered.eflags_bit {k : Nat} (hi : k ≠ 61) (hp : k ≠ 63) : u.p.eflags.getLsbD k = s.p.eflags.getLsbD k := by
  rw [h.eflags, handlerFlags_bit, beq_false_of_ne hi, beq_false_of_ne hp, Bool.not_false, Bool.and_true, Bool.and_true]

end

/-! ### What a tick without a double fault has done -/

/-- The tick of `s` executed `op`, which completed: its fetch left `t`, its body `v`, and the commit `u`. -/
def Completed (s u : State) (op : Instr) : Prop :=
  ∃ t v next, MemoryOnly s t ∧ bodyOf op t = .ok (v, next) ∧ u = commit v next

/-- The tick of an instruction without a double fault. -/
theorem tickState_running {s : State} {op : Instr} (hh : (tickState s (bodyOf op)).halted = false) :
    Completed s (tickState s (bodyOf op)) op ∨ tickState s (bodyOf op) = dropTick s ∨
      ∃ j, tickState s (bodyOf op) = takeInterrupt s j ∧ Entered s (takeInterrupt s j) j ∧
        (takeInterrupt s j).intSet = s.intSet := by
  rcases tickState_cases s (bodyOf op) with ⟨w, t, v, next, hf, hb, h⟩ | ⟨j, -, h⟩ | h
  · exact .inl ⟨t, v, next, fetch_memoryOnly hf, hb, h⟩
  · rw [h] at hh
    rcases takeInterruptFrom_entered hh with hd | he
    · exact .inr (.inl (h.trans hd))
    · exact .inr (.inr ⟨j, h, he⟩)
  · exact .inr (.inl h)

/-- A tick that does not end halted has dropped, or entered a handler, or completed its instruction. Entry clears `intSet` only where it
services an accepted hardware interrupt (60_exceptions.md R227). -/
theorem step_running {s u : State} (h : step s = .next u) (hu : u.halted = false) :
    u = dropTick s ∨ (∃ j, Entered s u j ∧ (acceptsInterrupt s = false → u.intSet = s.intSet)) ∨
      ∃ op, s.executes op ∧ Completed s u op := by
  rcases step_cases h with ⟨hh, rfl⟩ | ⟨-, ha, rfl⟩ | ⟨-, -, ⟨op, hop, rfl⟩ | ⟨j, -, rfl⟩ | rfl⟩
  · rw [hh] at hu
    cases hu
  · rcases takeInterruptFrom_entered hu with hd | ⟨he, -⟩
    · exact .inl hd
    · refine .inr (.inl ⟨_, ⟨he.before, he.handling, he.lastInt, he.x, he.p, he.intCode, he.halted, he.size⟩, fun hn => ?_⟩)
      rw [ha] at hn
      cases hn
  · rcases tickState_running hu with hc | hd | ⟨j, hj, he, hs⟩
    · exact .inr (.inr ⟨op, hop, hc⟩)
    · exact .inl hd
    · exact .inr (.inl ⟨j, hj ▸ he, fun _ => hj ▸ hs⟩)
  · rcases takeInterruptFrom_entered hu with hd | ⟨he, hs⟩
    · exact .inl hd
    · exact .inr (.inl ⟨j, he, fun _ => hs⟩)
  · exact .inl rfl

/-! ### What a completed instruction has done to the protected state -/

/-- `OrdinaryKeeps` from the start of the tick: the fetch and the commit touch neither the latch nor the protected registers. -/
theorem OrdinaryKeeps.of_tick {s t v : State} {next : Option Word} (hm : MemoryOnly s t) (h : OrdinaryKeeps t v) :
    OrdinaryKeeps s (commit v next) :=
  ⟨h.handling.trans hm.handlingInterrupt, hm.p ▸ h.regs, hm.p ▸ h.flags⟩

theorem OrdinaryKeeps.preg {s u : State} (h : OrdinaryKeeps s u) {r : PReg} (hr : r ≠ .eflags) : u.preg r = s.preg r := by
  rw [State.preg, ← h.regs]
  cases r <;> first | rfl | contradiction

/-- What IRET leaves of the protected state, from the start of the tick (45_system.md R203). -/
structure Returned (s u : State) : Prop where
  handling : u.handlingInterrupt = false
  eflags : ∃ popped, u.p.eflags = returnFlags popped

/-- What a completed instruction has done to the protected state: an ordinary one, a privileged PMOV, a privileged IRET. -/
theorem Completed.protected_cases {s u : State} {op : Instr} (h : Completed s u op) :
    OrdinaryKeeps s u ∨
    (∃ r r1 off, op = .pmov r r1 off ∧ s.privileged ∧ u.p = s.p.set r (s.regPlus r1 off) ∧
      u.handlingInterrupt = s.handlingInterrupt) ∨
    (op = .iret ∧ s.privileged ∧ Returned s u) := by
  obtain ⟨t, v, next, hm, hb, rfl⟩ := h
  rcases bodyOf_protected hb with ho | ⟨r, r1, off, hop, hpe, rfl, -⟩ | ⟨hop, hpe, hret⟩
  · exact .inl (.of_tick hm ho)
  · refine .inr (.inl ⟨r, r1, off, hop, hm.flagPE.symm.trans hpe, ?_, hm.handlingInterrupt⟩)
    rw [commit_p, State.setPReg_p, hm.p, hm.regPlus]
  · obtain ⟨popped, ip, -, -, -, rfl⟩ := returnFromInterrupt_eq_ok.mp hret
    exact .inr (.inr ⟨hop, hm.flagPE.symm.trans hpe, rfl, popped, rfl⟩)

theorem Returned.userMode {s u : State} (h : Returned s u) : u.userMode := by
  obtain ⟨popped, hf⟩ := h.eflags
  simp [State.userMode, State.flagPE, hf, returnFlags_bit]

theorem Returned.flagIE {s u : State} (h : Returned s u) : u.flagIE = true := by
  obtain ⟨popped, hf⟩ := h.eflags
  simp [State.flagIE, hf, returnFlags_bit]

/-! ### The whole machine -/

theorem Completed.keeps {s u : State} {op : Instr} (h : Completed s u op) :
    u.intSet = s.intSet ∧ u.intCode = s.intCode ∧ u.halted = s.halted ∧ u.lastInt = s.lastInt ∧ u.mem.size = s.mem.size ∧
      (s.mem.wf = true → u.mem.wf = true) := by
  obtain ⟨t, v, next, hm, hb, rfl⟩ := h
  have hk := hm.keeps.trans (bodyOf_keeps hb)
  exact ⟨hk.intSet, hk.intCode, hk.halted, hk.lastInt, hk.size, hk.wf⟩

/-- Settles O57: only entry sets the latch, and only IRET clears it. -/
theorem handlingLatchIsSetByEntryAndClearedByIret : Obligations.HandlingLatchIsSetByEntryAndClearedByIret := by
  intro s u h hu
  by_cases same : u.handlingInterrupt = s.handlingInterrupt
  · refine ⟨fun h1 h2 => ?_, fun h1 h2 => ?_⟩ <;>
    · rw [same, h1] at h2
      cases h2
  · rcases step_running h hu with rfl | ⟨j, he, -⟩ | ⟨op, hop, hc⟩
    · exact absurd rfl same
    · refine ⟨fun h1 _ => ?_, fun _ _ => ⟨he.flagPE, he.flagIE, he.preg_usp, he.reg_sp⟩⟩
      rw [he.before] at h1
      cases h1
    · rcases hc.protected_cases with ho | ⟨_, _, _, -, -, -, hk⟩ | ⟨rfl, hp, hr⟩
      · exact absurd ho.handling same
      · exact absurd hk same
      · refine ⟨fun _ _ => ⟨hop, hp, hr.userMode, hr.flagIE⟩, fun _ h2 => ?_⟩
        rw [hr.handling] at h2
        cases h2

/-- Settles O58: an instruction that completes sets no latch and a dropped tick sets none, so the tick took an interrupt, from its own start. -/
theorem interruptsArePrecise : Obligations.InterruptsArePrecise := by
  intro op s u h hs hu hh
  rw [exec_eq_next] at h
  cases h
  have unset : ∀ {P : Prop}, (tickState s (bodyOf op)).handlingInterrupt = false → P := by
    intro P e
    rw [hu] at e
    cases e
  rcases tickState_running hh with hc | hd | ⟨j, hj, he, -⟩
  · rcases hc.protected_cases with ho | ⟨r, r1, off, -, -, -, hk⟩ | ⟨-, -, hr⟩
    · exact unset (ho.handling.trans hs)
    · exact unset (hk.trans hs)
    · exact unset hr.handling
  · exact unset (by rw [hd, dropTick_handlingInterrupt, hs])
  · rw [hj, he.lastInt]

/-- Settles O59: an ordinary instruction only sets the two flags, entry and every other PMOV keep them. -/
theorem carryAndOverflowAreSticky : Obligations.CarryAndOverflowAreSticky := by
  intro s u h hu hpmov hiret
  have same : u.p.eflags = s.p.eflags → (s.flagC = true → u.flagC = true) ∧ (s.flagV = true → u.flagV = true) := by
    intro e
    simp [State.flagC, State.flagV, e]
  rcases step_running h hu with rfl | ⟨j, he, -⟩ | ⟨op, hop, hc⟩
  · exact same rfl
  · exact ⟨(he.eflags_bit (by decide) (by decide)).trans, (he.eflags_bit (by decide) (by decide)).trans⟩
  · rcases hc.protected_cases with ho | ⟨r, r1, off, rfl, -, hp, -⟩ | ⟨rfl, -, -⟩
    · exact ⟨ho.flags.carry, ho.flags.overflow⟩
    · have hr : PReg.eflags ≠ r := by
        rintro rfl
        exact hpmov r1 off hop
      refine same ?_
      rw [hp]
      exact PRegs.get_set_ne s.p _ hr
    · exact absurd hop hiret

/-- Settles O56: in user mode PMOV and IRET do not complete, so the tick was dropped, was an ordinary instruction's, or entered a handler. -/
theorem userModeLeavesOnlyByEntry : Obligations.UserModeLeavesOnlyByEntry := by
  intro s u hs h hu
  have notPrivileged : ∀ {P : Prop}, s.privileged → P := by
    intro P hp
    rw [State.privileged, hs] at hp
    cases hp
  rcases step_running h hu with rfl | ⟨j, he, -⟩ | ⟨op, hop, hc⟩
  · exact ⟨fun _ _ _ => rfl, fun _ _ _ _ => rfl, .inl ⟨hs, rfl, rfl, rfl⟩⟩
  · exact ⟨fun r h1 h2 => he.preg h2 h1, fun k _ h1 h2 => he.eflags_bit h1 h2,
      .inr ⟨he.flagPE, he.flagIE, he.before, he.handling, he.preg_usp, he.reg_sp⟩⟩
  · rcases hc.protected_cases with ho | ⟨_, _, _, -, hp, -, -⟩ | ⟨-, hp, -⟩
    · exact ⟨fun r h1 _ => ho.preg h1, fun k hk _ _ => ho.flags.high k hk,
        .inl ⟨(ho.flags.high 63 (by decide)).trans hs, ho.preg (by decide), ho.flags.high 61 (by decide), ho.handling⟩⟩
    · exact notPrivileged hp
    · exact notPrivileged hp

/-- Settles O48: only the service of an accepted interrupt clears the pending slot. -/
theorem maskedInterruptStaysPending : Obligations.MaskedInterruptStaysPending := by
  intro s u hm h hu
  rcases step_running h hu with rfl | ⟨j, he, hs⟩ | ⟨op, -, hc⟩
  · exact ⟨rfl, rfl⟩
  · exact ⟨hs (acceptsInterrupt_eq_false.mpr hm), he.intCode⟩
  · obtain ⟨hs, hcode, -⟩ := hc.keeps
    exact ⟨hs, hcode⟩

/-! ### The invariant -/

theorem fetch_raise_raisable {s : State} {j : Interrupt} (h : fetch s = .raise j) : raisableCode j.code = true := by
  obtain ⟨mask, rfl⟩ := resolve_eq_raise (fetch_eq_raise.mp h)
  exact pageFault_raisable ..

/-- A double fault has the invariant, whatever its free values are: their array keeps the size, and a halted core's pending code is not
looked at (60_exceptions.md R240; log 5). -/
theorem doubleFault_inv {s : State} {k : Interrupt} (hw : s.mem.wf = true) (hk : raisableCode k.code = true) :
    (doubleFault s k).inv ∧ (doubleFault s k).mem.size = s.mem.size := by
  obtain ⟨h1, h2, -⟩ := (Memory.wf_iff _).mp hw
  refine ⟨⟨Memory.wf_ofWrites _ h1 h2, hk, fun h => ?_⟩, Memory.ofWrites_size ..⟩
  cases h

/-- Taking an interrupt keeps the invariant. `base` may differ from the tick's start by a cleared `intSet` alone. -/
theorem takeInterruptFrom_inv {start base : State} {j : Interrupt} (hs : start.inv) (hb : base.inv)
    (hsize : base.mem.size = start.mem.size) (hj : raisableCode j.code = true) :
    (takeInterruptFrom start base j).inv ∧ (takeInterruptFrom start base j).mem.size = start.mem.size := by
  obtain ⟨hw, -, hpending⟩ := hb
  rcases takeInterruptFrom_cases start base j with h | ⟨k, h, hk⟩ | ⟨-, u, hu, h⟩ <;> rw [h]
  · exact ⟨hs, rfl⟩
  · have hk : raisableCode k.code = true := by
      rcases hk with rfl | ⟨mask, la, rfl⟩
      exacts [hj, pageFault_raisable ..]
    obtain ⟨hinv, hsz⟩ := doubleFault_inv hw hk
    exact ⟨hinv, hsz.trans hsize⟩
  · obtain ⟨v, hu, hsz, hwf⟩ := enterHandler_state hu
    refine ⟨⟨hwf hw, ?_, ?_⟩, hsz.trans hsize⟩
    · rw [hu]
      exact hj
    · rw [hu]
      exact hpending

theorem takeInterrupt_inv {s : State} {j : Interrupt} (hs : s.inv) (hj : raisableCode j.code = true) :
    (takeInterrupt s j).inv ∧ (takeInterrupt s j).mem.size = s.mem.size :=
  takeInterruptFrom_inv hs hs rfl hj

/-- The tick of an instruction keeps the invariant. -/
theorem tickState_inv {s : State} (op : Instr) (hs : s.inv) :
    (tickState s (bodyOf op)).inv ∧ (tickState s (bodyOf op)).mem.size = s.mem.size := by
  rcases tickState_cases s (bodyOf op) with ⟨w, t, v, next, hf, hb, h⟩ | ⟨j, hj, h⟩ | h
  · obtain ⟨hset, hcode, hhalted, hlast, hsize, hwf⟩ := Completed.keeps ⟨t, v, next, fetch_memoryOnly hf, hb, h⟩
    obtain ⟨hw, hl, hp⟩ := hs
    refine ⟨⟨hwf hw, hlast ▸ hl, ?_⟩, hsize⟩
    rw [hhalted, hset, hcode]
    exact hp
  · rw [h]
    refine takeInterrupt_inv hs ?_
    rcases hj with ⟨w, t, -, hb⟩ | hf
    exacts [bodyOf_raise hb, fetch_raise_raisable hf]
  · rw [h]
    exact ⟨hs, rfl⟩

/-- Servicing a hardware interrupt keeps the invariant: the pending code is of the host's contract, so it is one that some event raises. -/
theorem serviceInterrupt_inv {s : State} (hs : s.inv) (hh : s.halted = false) (ha : acceptsInterrupt s = true) :
    (serviceInterrupt s).inv ∧ (serviceInterrupt s).mem.size = s.mem.size := by
  obtain ⟨hw, hl, hp⟩ := hs
  have hcode : raisableCode s.intCode = true := by
    have hc := hp hh (acceptsInterrupt_eq_true.mp ha).1
    simp only [injectable, Bool.and_eq_true, decide_eq_true_eq] at hc
    simp only [raisableCode, Bool.or_eq_true, decide_eq_true_eq]
    exact .inr hc.1
  exact takeInterruptFrom_inv ⟨hw, hl, hp⟩ ⟨hw, hl, fun _ h => nomatch h⟩ rfl hcode

/-- Settles O54: every event of a tick keeps the invariant, a double fault included. -/
theorem stepKeepsTheInvariant : Obligations.StepKeepsTheInvariant := by
  intro s u hs h
  rcases step_cases h with ⟨-, rfl⟩ | ⟨hh, ha, rfl⟩ | ⟨-, -, ⟨op, -, rfl⟩ | ⟨j, hj, rfl⟩ | rfl⟩
  · exact ⟨hs, rfl⟩
  · exact serviceInterrupt_inv hs hh ha
  · exact tickState_inv op hs
  · refine takeInterrupt_inv hs ?_
    rcases hj with rfl | hf
    exacts [rfl, fetch_raise_raisable hf]
  · exact ⟨hs, rfl⟩

end Sys2Proof.Machine
end

section
/-! Memory and the translator (20_memory.md): bounds, byte order and the walk. Byte order is said once of `physWrite` and `physRead`; every other
access is one of these at the address its translation gives. -/

namespace Sys2Proof.Machine

/-! ### Registers and bytes -/

/-- Settles O11. -/
theorem registerReadAfterWrite : Obligations.RegisterReadAfterWrite := by
  refine ⟨fun s r q v => ?_, State.setReg_z, State.preg_setPReg⟩
  rw [State.reg_setReg]
  by_cases hr : q = r
  · subst hr
    rw [if_pos rfl, if_pos rfl]
  · rw [if_neg hr, if_neg hr]
    by_cases hz : q = .z
    · rw [if_pos hz, hz, State.reg_z]
    · rw [if_neg hz]

/-- Settles O12. -/
theorem byteReadAfterWrite : Obligations.ByteReadAfterWrite :=
  Memory.read_write

/-- Settles O14. -/
theorem physicalBounds : Obligations.PhysicalBounds :=
  fun _ _ _ _ => ⟨physRead_eq_bounds, physWrite_eq_bounds,
    fun hb => ⟨_, _, physRead_eq_ok.mpr ⟨hb, rfl⟩, physWrite_eq_ok.mpr ⟨hb, rfl⟩⟩⟩

/-! ### Byte order -/

/-- Byte `k` of a stored value stands at `pa + k` (20_memory.md R63). -/
theorem read_of_physWrite {s u : State} {pa : Addr} {n k : Nat} {v : Word} (h : physWrite s pa n v = .ok u) (hk : k < n) :
    u.mem.read (pa.toNat + k) = v.extractLsb' (8 * k) 8 := by
  obtain ⟨-, rfl⟩ := physWrite_eq_ok.mp h
  exact Memory.read_writeLE_inside _ _ _ _ _ hk

/-- A store changes no byte outside its own. -/
theorem read_of_physWrite_outside {s u : State} {pa : Addr} {n a : Nat} {v : Word} (h : physWrite s pa n v = .ok u)
    (ha : ¬storedAt pa n a) : u.mem.read a = s.mem.read a := by
  obtain ⟨-, rfl⟩ := physWrite_eq_ok.mp h
  rw [storedAt] at ha
  exact Memory.read_writeLE_outside _ _ _ _ _ (by omega)

/-- Byte `k` of a value read is the byte at `pa + k` (20_memory.md R63). -/
theorem extractLsb'_of_physRead {s : State} {pa : Addr} {n k : Nat} {v : Word} (h : physRead s pa n = .ok v) (hk : k < n)
    (hn : n ≤ 8) : v.extractLsb' (8 * k) 8 = s.mem.read (pa.toNat + k) := by
  obtain ⟨-, rfl⟩ := physRead_eq_ok.mp h
  exact Memory.readLE_byte _ _ _ _ hk hn

/-- A value read is zero above its bytes (20_memory.md R64). -/
theorem getLsbD_of_physRead {s : State} {pa : Addr} {n k : Nat} {v : Word} (h : physRead s pa n = .ok v) (hk : 8 * n ≤ k) :
    v.getLsbD k = false := by
  obtain ⟨-, rfl⟩ := physRead_eq_ok.mp h
  simp [Memory.readLE_bit, Nat.not_lt.mpr hk]

/-- The address of byte `k` of an access inside the array does not wrap at 2^32. -/
theorem toNat_add_byte {pa : Addr} {n k size : Nat} (hb : pa.toNat + n ≤ size) (hs : size ≤ Config.maxMemSize) (hk : k < n) :
    (pa + BitVec.ofNat 32 k).toNat = pa.toNat + k := by
  have hmax : Config.maxMemSize = 2 ^ 32 := rfl
  rw [BitVec.toNat_add, BitVec.toNat_ofNat, Nat.add_mod_mod, Nat.mod_eq_of_lt (by omega)]

/-- A one-byte read inside an 8-byte store sees the stored value's byte. -/
theorem physRead_byte_of_physWrite {s u : State} {pa : Addr} {v : Word} {k : Nat} (hk : k < 8)
    (hs : s.mem.size ≤ Config.maxMemSize) (h : physWrite s pa 8 v = .ok u) :
    physRead u (pa + BitVec.ofNat 32 k) 1 = .ok ((v.extractLsb' (8 * k) 8).setWidth 64) := by
  have hb := (physWrite_eq_ok.mp h).1
  have ha := toNat_add_byte hb hs hk
  have hsize := (physWrite_memoryOnly h).size
  refine physRead_eq_ok.mpr ⟨by omega, ?_⟩
  rw [readLE_one, ha, read_of_physWrite h hk]

/-- A logical read is a physical read of the state its translation leaves. -/
theorem physRead_of_memRead {s m m' : State} {addr v : Word} {pa : Addr} {n : Nat}
    (hr : resolve s (addrOf addr) false false = .ok (pa, m)) (h : memRead s addr n = .ok (v, m')) :
    m' = m ∧ physRead m pa n = .ok v := by
  obtain ⟨pa', hr', hb, hv⟩ := memRead_eq_ok.mp h
  rw [hr] at hr'
  cases hr'
  exact ⟨rfl, physRead_eq_ok.mpr ⟨hb, hv⟩⟩

/-- A logical write is a physical write of the state its translation leaves. -/
theorem physWrite_of_memWrite {s m u : State} {addr v : Word} {pa : Addr} {n : Nat}
    (hr : resolve s (addrOf addr) true false = .ok (pa, m)) (h : memWrite s addr n v = .ok u) : physWrite m pa n v = .ok u := by
  rwa [memWrite, hr, Access.andThen_ok] at h

/-- A fetch reads the four bytes at the address its translation gives. -/
theorem fourBytes_of_fetch {s t : State} {pa : Addr} {w : InstrWord} (hr : resolve s (addrOf s.ip) false true = .ok (pa, t))
    (h : fetch s = .ok (w, t)) : w = fourBytes t.mem pa.toNat := by
  obtain ⟨pa', hr', -, hw⟩ := fetch_eq_ok.mp h
  rw [hr] at hr'
  cases hr'
  rw [← hw, readLE_four]

/-- Settles O13: byte order is that of the physical access each of them makes. -/
theorem accessesAreLittleEndian : Obligations.AccessesAreLittleEndian := by
  intro s pa n hn
  have hn8 : n ≤ 8 := by omega
  refine ⟨fun v u h => ⟨fun k hk => read_of_physWrite h hk, fun a ha => read_of_physWrite_outside h ha⟩,
    fun v h => ⟨fun k hk => extractLsb'_of_physRead h hk hn8, fun k hk => getLsbD_of_physRead h hk⟩,
    fun v u k hk hs h => physRead_byte_of_physWrite hk hs h, fun addr v m hr h k hk => ?read, fun addr v m u hr h k hk => ?write,
    fun e h => ?entry, fun w t hr h => fourBytes_of_fetch hr h⟩
  case read => exact extractLsb'_of_physRead (physRead_of_memRead hr h).2 hk hn8
  case write => exact read_of_physWrite (physWrite_of_memWrite hr h) hk
  case entry => rw [← (readEntry_eq_ok.mp h).2, readLE_four]

/-- Settles O10: a fetch is four bytes at its translation, and a tick whose fetch fails has no other part. -/
theorem fetchFailureEndsTheTick : Obligations.FetchFailureEndsTheTick := by
  intro s
  refine ⟨fun j => fetch_eq_raise, ?_, fun pa t hr hb => ?_, fun op => ⟨fun j hf => ?_, fun hf => ?_⟩⟩
  · refine fetch_eq_bounds.trans (or_congr_right (exists_congr fun pa => exists_congr fun t => and_congr_right fun hr => ?_))
    rw [(resolve_memoryOnly hr).size]
  · have hsize := (resolve_memoryOnly hr).size
    exact fetch_eq_ok.mpr ⟨pa, hr, by omega, readLE_four ..⟩
  · rw [exec_eq_next, tickState_fetch_raise hf]
  · rw [exec_eq_next, tickState_fetch_bounds hf]
    rfl

/-! ### Store, then load -/

/-- The low bits of a word, by a mask. -/
theorem getLsbD_and_low_mask (v : Word) (w i : Nat) :
    (v &&& BitVec.ofNat 64 (2 ^ w - 1)).getLsbD i = (decide (i < w) && v.getLsbD i) := by
  rw [BitVec.getLsbD_and, BitVec.getLsbD_ofNat, Nat.testBit_two_pow_sub_one, Bool.and_comm]
  by_cases hi : i < 64
  · simp [hi]
  · simp [BitVec.getLsbD_of_ge v i (by omega)]

/-- A read of the bytes just stored gives the value's low bytes (41_load_store.md R142). -/
theorem readLE_writeLE_eq_and (m : Memory) (a n : Nat) (v : Word) :
    (m.writeLE a v n).readLE a n = v &&& BitVec.ofNat 64 (2 ^ (8 * n) - 1) := by
  apply BitVec.eq_of_getLsbD_eq
  intro i _
  rw [Memory.readLE_writeLE_bit, getLsbD_and_low_mask]

/-- Sign extension of a value's low `w` bits copies bit `w - 1` upward. -/
theorem getLsbD_sextFrom_and_low_mask {v : Word} {w k : Nat} (hw : 0 < w) (hk : k < 64) :
    (sextFrom w (v &&& BitVec.ofNat 64 (2 ^ w - 1))).getLsbD k = v.getLsbD (min k (w - 1)) := by
  rw [sextFrom, BitVec.getLsbD_signExtend, BitVec.msb_eq_getLsbD_last]
  simp only [BitVec.getLsbD_setWidth, getLsbD_and_low_mask, hk, decide_true, Bool.true_and]
  by_cases h : k < w
  · simp [h, Nat.min_eq_left (by omega : k ≤ w - 1)]
  · simp [h, hw, Nat.min_eq_right (by omega : w - 1 ≤ k)]

/-- Settles O15: with PG = 0 the store and the load meet the same bytes. -/
theorem storeThenLoad : Obligations.StoreThenLoad := by
  intro s u addr v n hn hp h
  obtain ⟨hb, rfl⟩ := physWrite_eq_ok.mp (physWrite_of_memWrite (resolve_of_off hp) h)
  refine ⟨_, memRead_eq_ok.mpr ⟨addrOf addr, resolve_of_off hp, ?_, rfl⟩, readLE_writeLE_eq_and .., fun _ k hk => ?_⟩
  · rwa [Memory.writeLE_size]
  · rw [readLE_writeLE_eq_and, getLsbD_sextFrom_and_low_mask (by omega) hk]

/-! ### The walk -/

/-- The root entry's address by the root index's bits (20_memory.md R72, R74). -/
theorem rootEntryAddr_eq (s : State) (la : Addr) :
    rootEntryAddr s la = (s.preg .rpt).setWidth 32 + (la >>> 22 &&& 0x3FF#32) := by
  rw [rootEntryAddr, addrOf, BitVec.setWidth_add _ _ (by decide), BitVec.setWidth_setWidth_of_le _ (by decide), BitVec.setWidth_eq]
  rfl

/-- MODIFIED and ACCESSED in one expression (20_memory.md R77). -/
theorem markModified_markAccessed (e : Entry) (write : Bool) :
    markModified (markAccessed e) write = e ||| 0x20#32 ||| (if write then 0x04#32 else 0#32) := by
  cases write <;> simp [markModified, markAccessed]

/-- Byte `k` of an entry's zero extension is the entry's. -/
theorem extractLsb'_entry {e : Entry} {k : Nat} (hk : k < 4) : (e.setWidth 64).extractLsb' (8 * k) 8 = e.extractLsb' (8 * k) 8 := by
  apply BitVec.eq_of_getLsbD_eq
  intro i hi
  simp [(by omega : 8 * k + i < 64)]

/-- Settles O18: the walk succeeds, and its two write-backs are the only bytes that change. -/
theorem walkTranslatesAndMarks : Obligations.WalkTranslatesAndMarks := by
  intro s la write jump root page ra pe hp hra hr hpe hg hroot hpage
  replace hra : ra = rootEntryAddr s la := hra.trans (rootEntryAddr_eq s la).symm
  replace hpe : pe = pageEntryAddr root la := hpe
  subst hra hpe
  refine ⟨_, resolve_eq_walked hp hr (entryFailure_eq_none.mpr hroot) hg (entryFailure_eq_none.mpr hpage), rfl, by simp, fun a => ?_⟩
  rw [read_two_writes]
  refine ite_congr rfl (fun ha => ?page) fun _ => ite_congr rfl (fun ha => ?root) fun _ => rfl
  case page => rw [extractLsb'_entry (by omega), markModified_markAccessed]
  case root => rw [extractLsb'_entry (by omega), markAccessed]

/-- A byte that two entry write-backs change is one of their bytes. -/
theorem stored_of_read_two_writes_ne {m : Memory} {a b : Addr} {c : Nat} {v w : Word}
    (h : ((m.writeLE a.toNat v 4).writeLE b.toNat w 4).read c ≠ m.read c) : storedAt a 4 c ∨ storedAt b 4 c := by
  by_contra hout
  rw [not_or, storedAt, storedAt] at hout
  rw [read_two_writes, if_neg hout.2, if_neg hout.1] at h
  exact h rfl

/-- Settles O19: only a walk changes memory, and it changes the entries it read. -/
theorem translationTouchesOnlyItsEntries : Obligations.TranslationTouchesOnlyItsEntries := by
  refine ⟨fun s u la pa write jump h => ?_, fun s t w h => ?_⟩
  · have hm := resolve_memoryOnly h
    refine ⟨hm.same, hm.size, fun hp => ?_, fun a ha => ?_⟩
    · rw [resolve_of_off hp] at h
      cases h
      rfl
    · cases hp : s.flagPG with
      | false =>
        rw [resolve_of_off hp] at h
        cases h
        exact absurd rfl ha
      | true =>
        rw [resolve, if_pos hp] at h
        obtain ⟨root, page, hr, -, -, -, -, rfl⟩ := walk_eq_ok.mp h
        exact ⟨rfl, root, hr, stored_of_read_two_writes_ne ha⟩
  · obtain ⟨pa, hr, -, -⟩ := fetch_eq_ok.mp h
    exact ⟨pa, hr⟩

/-- Settles O60: a walk leaves the array at one of its two entry reads. -/
theorem walkBoundsAreThoseOfItsEntries : Obligations.WalkBoundsAreThoseOfItsEntries := by
  intro s la write jump
  refine ⟨fun pa => readEntry_eq_bounds, ?_⟩
  simp only [← rootEntryAddr_eq, ← entryFailure_eq_none]
  cases hp : s.flagPG with
  | false => simp [resolve_of_off hp]
  | true =>
    rw [resolve, if_pos hp, walk_eq_bounds, and_iff_right rfl]
    rfl

end Sys2Proof.Machine
end

section
/-! GEF, loads, stores and the stack (40_move.md, 41_load_store.md, 42_stack.md). The one idea: an instruction that accesses memory is one
logical access, at an address that the fetch has not changed, and a few register writes; so its success and its three ways to fail are
said once for a read and once for a write. -/

namespace Sys2Proof.Machine

/-- Settles O21: GEF's body is one register write; the mode bit is not looked at. -/
theorem gefReadsEflags : Obligations.GefReadsEflags := by
  intro r0 s t ht
  obtain ⟨w, hf⟩ := ht
  have hb : bodyOf (.gef r0) t = .ok (t.setReg r0 (s.preg .eflags), none) := by
    rw [bodyOf, gefBody, (fetch_memoryOnly hf).p, State.preg_eflags]
  exact exec_of_setReg hf (MemoryOnly.refl t) hb

/-- A store and a commit change the stored bytes and IP alone. -/
theorem physWrite_onlyChanges {m u : State} {pa : Addr} {n : Nat} {v : Word} (h : physWrite m pa n v = .ok u)
    (next : Option Word) : onlyChanges m (commit u next) [] [] (storedAt pa n) := by
  have hm := physWrite_memoryOnly h
  exact ⟨⟨fun r _ => hm.reg r, fun r _ => hm.preg r, hm.size, fun a ha => read_of_physWrite_outside (u := u) h ha, hm.intSet, hm.intCode,
    hm.halted, hm.lastInt, hm.freeIndex⟩, hm.handlingInterrupt⟩

/-! ### An access that fails -/

section
variable {op : Instr} {s t : State} (ht : fetches s t)
include ht

/-- An instruction whose one read of memory fails has no effect of its own (20_memory.md R65, 60_exceptions.md R229). -/
theorem exec_of_failed_read {addr : Word} {n : Nat} {f : Word × State → Access (State × Option Word)}
    (hop : bodyOf op t = (memRead t addr n).andThen f) :
    (∀ j, resolve t (addrOf addr) false false = .raise j → exec op s = .next (takeInterrupt s j)) ∧
    (resolve t (addrOf addr) false false = .bounds → exec op s = .next { s with ip := s.ip + 4#64 }) ∧
    (∀ pa m, resolve t (addrOf addr) false false = .ok (pa, m) → s.mem.size < pa.toNat + n →
      exec op s = .next { s with ip := s.ip + 4#64 }) := by
  obtain ⟨w, hf⟩ := ht
  have bounds : memRead t addr n = .bounds → exec op s = .next { s with ip := s.ip + 4#64 } := fun h =>
    exec_of_bounds hf (by rw [hop, h, Access.andThen_bounds])
  refine ⟨fun j hr => ?_, fun hr => bounds (memRead_eq_bounds.mpr (.inl hr)), fun pa m hr hb => ?_⟩
  · exact exec_of_raise hf (by rw [hop, memRead_eq_raise.mpr hr, Access.andThen_raise])
  · refine bounds (memRead_eq_bounds.mpr (.inr ⟨pa, m, hr, ?_⟩))
    rwa [(resolve_memoryOnly hr).size, (fetch_memoryOnly hf).size]

/-- An instruction whose one write of memory fails has no effect of its own. `t'` is the state it writes in: PUSH has moved SP by then, and
the tick undoes that too. -/
theorem exec_of_failed_write {t' : State} {addr v : Word} {n : Nat} {f : State → Access (State × Option Word)}
    (hop : bodyOf op t = (memWrite t' addr n v).andThen f) (hsize : t'.mem.size = t.mem.size) :
    (∀ j, resolve t' (addrOf addr) true false = .raise j → exec op s = .next (takeInterrupt s j)) ∧
    (resolve t' (addrOf addr) true false = .bounds → exec op s = .next { s with ip := s.ip + 4#64 }) ∧
    (∀ pa m, resolve t' (addrOf addr) true false = .ok (pa, m) → s.mem.size < pa.toNat + n →
      exec op s = .next { s with ip := s.ip + 4#64 }) := by
  obtain ⟨w, hf⟩ := ht
  have bounds : memWrite t' addr n v = .bounds → exec op s = .next { s with ip := s.ip + 4#64 } := fun h =>
    exec_of_bounds hf (by rw [hop, h, Access.andThen_bounds])
  refine ⟨fun j hr => ?_, fun hr => bounds (memWrite_eq_bounds.mpr (.inl hr)), fun pa m hr hb => ?_⟩
  · exact exec_of_raise hf (by rw [hop, memWrite_eq_raise.mpr hr, Access.andThen_raise])
  · refine bounds (memWrite_eq_bounds.mpr (.inr ⟨pa, m, hr, ?_⟩))
    rwa [(resolve_memoryOnly hr).size, hsize, (fetch_memoryOnly hf).size]

/-! ### Loads and stores -/

/-- The effective address reads a register, which the fetch has not changed (41_load_store.md R130). -/
theorem regPlus_of_fetches (r : Reg) (off : Imm) : t.regPlus r off = s.reg r + off.signExtend 64 := by
  rw [(fetches_memoryOnly ht).regPlus, State.regPlus_eq]

/-- A load that completes writes its extended bytes to `x[r0]`. -/
theorem exec_of_load {n : Nat} {extend : Word → Word} {r0 r1 : Reg} {off : Imm} {m : State} {pa : Addr} {v : Word}
    (hop : bodyOf op = loadBody n extend r0 r1 off)
    (hr : resolve t (addrOf (s.reg r1 + off.signExtend 64)) false false = .ok (pa, m)) (hb : pa.toNat + n ≤ s.mem.size)
    (hv : extend (m.mem.readLE pa.toNat n) = v) :
    ∃ u, exec op s = .next u ∧ u.reg r0 = written r0 v ∧ u.ip = s.ip + 4#64 ∧ onlyChanges m u [r0] [] nowhere := by
  have hm := resolve_memoryOnly hr
  rw [← regPlus_of_fetches ht] at hr
  rw [← (fetches_memoryOnly ht).size, ← hm.size] at hb
  obtain ⟨w, hf⟩ := ht
  refine exec_of_setReg hf hm ?_
  rw [hop, ← hv]
  exact loadBody_eq_ok.mpr ⟨_, m, memRead_eq_ok.mpr ⟨pa, hr, hb, rfl⟩, rfl, rfl⟩

/-- A write that completes: its bytes at the address its translation gave, every other byte as the translation left it. -/
theorem exec_of_write {t' m : State} {addr v : Word} {pa : Addr} {n : Nat}
    (hop : bodyOf op t = (memWrite t' addr n v).andThen fun u => .ok (u, none)) (hip : t'.ip = t.ip)
    (hr : resolve t' (addrOf addr) true false = .ok (pa, m)) (hb : pa.toNat + n ≤ m.mem.size) :
    ∃ u, exec op s = .next u ∧ (∀ k, k < n → u.mem.read (pa.toNat + k) = v.extractLsb' (8 * k) 8) ∧ u.ip = s.ip + 4#64 ∧
      onlyChanges m u [] [] (storedAt pa n) := by
  obtain ⟨w, hf⟩ := ht
  obtain ⟨u, hw⟩ : ∃ u, physWrite m pa n v = .ok u := ⟨_, physWrite_eq_ok.mpr ⟨hb, rfl⟩⟩
  have hbody : bodyOf op t = .ok (u, none) := by
    rw [hop, memWrite, hr, Access.andThen_ok, hw, Access.andThen_ok]
  refine ⟨_, exec_of_ok hf hbody, fun k hk => read_of_physWrite (u := u) hw hk, ?_, physWrite_onlyChanges hw none⟩
  rw [commit_ip, Option.getD_none, (physWrite_memoryOnly hw).ip, (resolve_memoryOnly hr).ip, hip, (fetch_memoryOnly hf).ip]

/-- A store that completes. -/
theorem exec_of_store {n : Nat} {r0 r1 : Reg} {off : Imm} {m : State} {pa : Addr} (hop : bodyOf op = storeBody n r0 r1 off)
    (hr : resolve t (addrOf (s.reg r1 + off.signExtend 64)) true false = .ok (pa, m)) (hb : pa.toNat + n ≤ s.mem.size) :
    ∃ u, exec op s = .next u ∧ (∀ k, k < n → u.mem.read (pa.toNat + k) = (s.reg r0).extractLsb' (8 * k) 8) ∧
      u.ip = s.ip + 4#64 ∧ onlyChanges m u [] [] (storedAt pa n) := by
  have hm := fetches_memoryOnly ht
  rw [← hm.size, ← (resolve_memoryOnly hr).size] at hb
  refine exec_of_write ht ?_ rfl hr hb
  rw [hop, storeBody, regPlus_of_fetches ht, hm.reg]

end

/-- Settles O22: the seven loads differ in the width and the extension alone. -/
theorem loadsExtendTheBytesRead : Obligations.LoadsExtendTheBytesRead := by
  intro r0 r1 off s t m pa ht hr
  refine ⟨fun hb => exec_of_load ht rfl hr hb ?lb, fun hb => exec_of_load ht rfl hr hb ?lbu, fun hb => exec_of_load ht rfl hr hb ?lh,
    fun hb => exec_of_load ht rfl hr hb ?lhu, fun hb => exec_of_load ht rfl hr hb ?lw, fun hb => exec_of_load ht rfl hr hb ?lwu,
    fun hb => exec_of_load ht rfl hr hb ?ld⟩
  case lb => rw [readLE_one, sextFrom_zext (by decide)]
  case lbu => exact readLE_one ..
  case lh => rw [readLE_two, sextFrom_zext (by decide)]
  case lhu => exact readLE_two ..
  case lw => rw [readLE_four_zext, sextFrom_zext (by decide)]
  case lwu => exact readLE_four_zext ..
  case ld => exact readLE_eight ..

/-- Settles O23: the four stores differ in the width alone. -/
theorem storesWriteTheLowBytes : Obligations.StoresWriteTheLowBytes := by
  intro r0 r1 off s t m pa ht hr
  exact ⟨exec_of_store ht rfl hr, exec_of_store ht rfl hr, exec_of_store ht rfl hr, exec_of_store ht rfl hr⟩

/-- Settles O24: a load is one read, and a store one write, of the state its fetch left. -/
theorem loadStoreFailuresKeepNothing : Obligations.LoadStoreFailuresKeepNothing := by
  intro r0 r1 off s t ht
  rw [← regPlus_of_fetches ht]
  exact ⟨exec_of_failed_read ht rfl, exec_of_failed_read ht rfl, exec_of_failed_read ht rfl, exec_of_failed_read ht rfl,
    exec_of_failed_read ht rfl, exec_of_failed_read ht rfl, exec_of_failed_read ht rfl, exec_of_failed_write ht rfl rfl,
    exec_of_failed_write ht rfl rfl, exec_of_failed_write ht rfl rfl, exec_of_failed_write ht rfl rfl⟩

/-! ### The stack -/

/-- A frame that names more registers says less. -/
theorem onlyChanges_of_no_reg {t u : State} {stored : Nat → Prop} (h : onlyChanges t u [] [] stored) (regs : List Reg) :
    onlyChanges t u regs [] stored := by
  obtain ⟨⟨hreg, hrest⟩, hh⟩ := h
  exact ⟨⟨fun r _ => hreg r List.not_mem_nil, hrest⟩, hh⟩

/-- PUSH is one write, in the state with SP lowered, of `x[r0] + offset` read there (42_stack.md R151, D10). -/
theorem bodyOf_push_of_fetches {s t : State} (ht : fetches s t) (r0 : Reg) (off : Imm) :
    bodyOf (.push r0 off) t = (memWrite (t.setReg .sp (s.reg .sp - 8#64)) (s.reg .sp - 8#64) 8
      ((if r0 = .sp then s.reg .sp - 8#64 else s.reg r0) + off.signExtend 64)).andThen fun m => .ok (m, none) := by
  have hm := fetches_memoryOnly ht
  have hvalue : (t.setReg .sp (s.reg .sp - 8#64)).reg r0 = if r0 = .sp then s.reg .sp - 8#64 else s.reg r0 := by
    rw [State.reg_setReg, hm.reg, if_neg (show Reg.sp ≠ .z by decide)]
  rw [bodyOf, pushBody, hm.reg, ← hvalue]
  rfl

/-- POP is one read of the state its fetch left (42_stack.md R152). -/
theorem bodyOf_pop_of_fetches {s t : State} (ht : fetches s t) (r0 : Reg) :
    bodyOf (.pop r0) t = (memRead t (s.reg .sp) 8).andThen fun m =>
      .ok ((m.2.setReg r0 m.1).setReg .sp ((m.2.setReg r0 m.1).reg .sp + 8#64), none) := by
  rw [bodyOf, popBody, (fetches_memoryOnly ht).reg]

/-- Settles O25: the write completes, and keeps the SP that the body has lowered. -/
theorem pushStoresBelowTheStackPointer : Obligations.PushStoresBelowTheStackPointer := by
  intro r0 off s t m pa ht hr hb
  have hm := resolve_memoryOnly hr
  have hsize : m.mem.size = s.mem.size := hm.size.trans (fetches_memoryOnly ht).size
  obtain ⟨u, hu, hbytes, hip, honly⟩ := exec_of_write ht (bodyOf_push_of_fetches ht r0 off) rfl hr (hsize ▸ hb)
  refine ⟨u, hu, ?_, hbytes, hip, onlyChanges_of_no_reg honly _⟩
  obtain ⟨⟨hregs, -⟩, -⟩ := honly
  rw [hregs .sp List.not_mem_nil, hm.reg, State.reg_setReg, if_pos rfl, if_neg (by decide)]

/-- Settles O26: the read completes, `x[r0]` is written first and SP last. -/
theorem popLoadsAndRaisesTheStackPointer : Obligations.PopLoadsAndRaisesTheStackPointer := by
  intro r0 s t m pa ht hr hb
  have hm := (fetches_memoryOnly ht).trans (resolve_memoryOnly hr)
  have hread : memRead t (s.reg .sp) 8 = .ok (eightBytes m.mem pa.toNat, m) :=
    memRead_eq_ok.mpr ⟨pa, hr, hm.size ▸ hb, readLE_eight ..⟩
  have hbody := bodyOf_pop_of_fetches ht r0
  rw [hread, Access.andThen_ok] at hbody
  obtain ⟨w, hf⟩ := ht
  refine ⟨_, exec_of_ok hf hbody, fun hne => ⟨?_, ?_⟩, fun he => ?_, ?_, ?_⟩
  · rw [State.reg_commit, State.reg_setReg, if_neg hne, reg_setReg_self]
  · rw [State.reg_commit, reg_setReg_self, written, if_neg (by decide), State.reg_setReg, if_neg (Ne.symm hne), hm.reg]
  · rw [State.reg_commit, reg_setReg_self, written, if_neg (by decide), he, reg_setReg_self, written, if_neg (by decide)]
  · rw [commit_ip, State.setReg_ip, State.setReg_ip, hm.ip, Option.getD_none]
  · refine ⟨⟨fun r hr => ?_, fun _ _ => rfl, rfl, fun _ _ => rfl, rfl, rfl, rfl, rfl, rfl⟩, rfl⟩
    simp only [List.mem_cons, List.not_mem_nil, or_false, not_or] at hr
    rw [State.reg_commit, State.reg_setReg, if_neg hr.2, State.reg_setReg, if_neg hr.1]

/-- Settles O27: PUSH and POP are one access each. -/
theorem stackFailuresKeepNothing : Obligations.StackFailuresKeepNothing := by
  intro r0 off s t ht
  obtain ⟨hpush1, hpush2, hpush3⟩ := exec_of_failed_write ht (bodyOf_push_of_fetches ht r0 off) rfl
  exact ⟨hpush1, hpush2, hpush3, exec_of_failed_read ht (bodyOf_pop_of_fetches ht r0)⟩

/-- Eight bytes that are a value's bytes are the value (20_memory.md R63). -/
theorem eightBytes_eq {m : Memory} {a : Nat} {v : Word} (h : ∀ k, k < 8 → m.read (a + k) = v.extractLsb' (8 * k) 8) :
    eightBytes m a = v := by
  apply BitVec.eq_of_getLsbD_eq
  intro i hi
  rw [eightBytes_bit m a i hi, h _ (by omega), BitVec.getLsbD_extractLsb']
  simp [(by omega : i % 8 < 8), (by omega : 8 * (i / 8) + i % 8 = i)]

/-- With PG = 0 a fetch in bounds changes nothing. -/
theorem fetches_self {s : State} (hp : s.flagPG = false) (hb : (addrOf s.ip).toNat + 4 ≤ s.mem.size) : fetches s s :=
  ⟨_, fetch_of_translation_off hp hb⟩

/-- Settles O28: POP reads the slot that PUSH wrote, at the SP that PUSH left. -/
theorem pushThenPop : Obligations.PushThenPop := by
  intro r0 r1 s hp hr0 hr1 hz hb1 hb2 hslot
  have hp' : (s.setReg .sp (s.reg .sp - 8#64)).flagPG = false := hp
  obtain ⟨u, hu, hsp, hbytes, hip, ⟨-, hpreg, hmem, -⟩, -⟩ :=
    pushStoresBelowTheStackPointer r0 0#16 s s _ _ (fetches_self hp hb1) (resolve_of_off hp') hslot
  have hsize : u.mem.size = s.mem.size := hmem
  have hpu : u.flagPG = false := by
    have he : u.p.eflags = s.p.eflags := hpreg .eflags List.not_mem_nil
    rw [State.flagPG, he]
    exact hp
  have hoff : (0#16).signExtend 64 = 0#64 := by decide
  rw [if_neg hr0, hoff, BitVec.add_zero] at hbytes
  obtain ⟨v, hv, hpop, -, -, -⟩ := popLoadsAndRaisesTheStackPointer r1 u u _ _ (fetches_self hpu (by rwa [hip, hsize]))
    (resolve_of_off hpu) (by rwa [hsp, hsize])
  obtain ⟨hreg, hsp'⟩ := hpop hr1
  refine ⟨u, v, hu, hv, ?_, ?_⟩
  · rw [hreg, written, if_neg hz, hsp, eightBytes_eq hbytes]
  · rw [hsp', hsp, BitVec.sub_add_cancel]

end Sys2Proof.Machine
end

section
/-! The rest of the ALU (44_alu.md): shifts right, signed multiply, ADD and SUB with their exact conditions, and the two divisions. Each result and
condition of the model is tied to the integer it stands for; completion is that of the shared ends of `Laws/Alu`. -/

namespace Sys2Proof.Machine

/-! ### Shifts right -/

/-- A logical shift is an unsigned division (44_alu.md R176). -/
theorem ushiftRight_eq_ofNat_div (v : Word) (n : Nat) : v >>> n = BitVec.ofNat 64 (v.toNat / 2 ^ n) := by
  rw [← Nat.shiftRight_eq_div_pow, ← BitVec.toNat_ushiftRight, BitVec.ofNat_toNat, BitVec.setWidth_eq]

/-- An arithmetic shift is a signed division, rounded down (44_alu.md R183). -/
theorem sshiftRight_eq_ofInt_div (v : Word) (n : Nat) : v.sshiftRight n = BitVec.ofInt 64 (v.toInt / 2 ^ n) := by
  have hshift : (v.sshiftRight n).toInt = v.toInt / 2 ^ n := by
    rw [BitVec.toInt_sshiftRight, Int.shiftRight_eq_div_pow, Nat.cast_pow, Nat.cast_ofNat]
  rw [← hshift, BitVec.ofInt_toInt]

/-- Settles O33. -/
theorem rightShifts : Obligations.RightShifts := by
  intro r0 r1 off s t ht o1 n
  have hn : n = shiftAmount (s.reg r1 + off.signExtend 64) := (shiftAmount_eq _).symm
  rw [← ushiftRight_eq_ofNat_div, ← sshiftRight_eq_ofInt_div, hn]
  exact ⟨aluCompletes_of_noFlag (f := fun o1 o2 => o1 >>> shiftAmount o2) rfl ht,
    aluCompletes_of_noFlag (f := fun o1 o2 => o1.sshiftRight (shiftAmount o2)) rfl ht⟩

/-! ### Signed multiply -/

/-- The low 64 bits of a product do not depend on the operands' signs (44_alu.md R180). -/
theorem smulLow_eq_mulLow : smulLow = mulLow := by
  funext o1 o2
  rw [smulLow, mulLow, BitVec.ofInt_mul, BitVec.ofInt_toInt, BitVec.ofInt_toInt, BitVec.ofNat_mul, BitVec.ofNat_toNat,
    BitVec.ofNat_toNat, BitVec.setWidth_eq, BitVec.setWidth_eq]

/-- Settles O34: the two instructions have one body. -/
theorem smulIsMul : Obligations.SmulIsMul := by
  intro r0 r1 off s t
  have hbody : bodyOf (.smul r0 r1 off) = bodyOf (.mul r0 r1 off) := by
    rw [bodyOf, bodyOf, smulLow_eq_mulLow]
  refine ⟨?_, fun ht => aluCompletes_of_noFlag (f := smulLow) rfl ht⟩
  rw [exec_eq_next, exec_eq_next, hbody]

/-! ### ADD and SUB -/

/-- The sum wraps exactly when it comes out below an operand (44_alu.md R171). -/
theorem addCarry_iff (o1 o2 : Word) : addCarry o1 (o1 + o2) = true ↔ 2 ^ 64 ≤ o1.toNat + o2.toNat := by
  have h1 := o1.isLt
  have h2 := o2.isLt
  rw [addCarry, decide_eq_true_iff, BitVec.toNat_add]
  omega

theorem subBorrow_iff (o1 o2 : Word) : subBorrow o1 o2 = true ↔ o1.toNat < o2.toNat := by
  rw [subBorrow, decide_eq_true_iff, gt_iff_lt]

/-- The sign rule of ADD is signed overflow (44_alu.md R171). -/
theorem addOverflow_iff (o1 o2 : Word) :
    addOverflow o1 o2 (o1 + o2) = true ↔ o1.toInt + o2.toInt < -2 ^ 63 ∨ 2 ^ 63 ≤ o1.toInt + o2.toInt := by
  have hsign : addOverflow o1 o2 (o1 + o2) = o1.saddOverflow o2 := (BitVec.saddOverflow_eq o1 o2).symm
  rw [hsign, BitVec.saddOverflow, Bool.or_eq_true, decide_eq_true_iff, decide_eq_true_iff, or_comm]

/-- The sign rule of SUB is signed overflow (44_alu.md R171, D12). -/
theorem subOverflow_iff (o1 o2 : Word) :
    subOverflow o1 o2 (o1 - o2) = true ↔ o1.toInt - o2.toInt < -2 ^ 63 ∨ 2 ^ 63 ≤ o1.toInt - o2.toInt := by
  have hsign : subOverflow o1 o2 (o1 - o2) = o1.ssubOverflow o2 := by
    rw [BitVec.ssubOverflow_eq, subOverflow]
    cases o1.msb <;> cases o2.msb <;> cases (o1 - o2).msb <;> rfl
  rw [hsign, BitVec.ssubOverflow, Bool.or_eq_true, decide_eq_true_iff, decide_eq_true_iff, or_comm]

/-- Settles O35: the model's wrap and sign tests are the exact conditions. -/
theorem addSubCarryAndOverflow : Obligations.AddSubCarryAndOverflow := by
  intro r0 r1 off s t ht
  have hadd := aluCompletes_of_body (op := .add r0 r1 off) (f := fun o1 o2 => o1 + o2)
    (c := fun o1 _ result => addCarry o1 result) (v := addOverflow) rfl ht
  have hsub := aluCompletes_of_body (op := .sub r0 r1 off) (f := fun o1 o2 => o1 - o2)
    (c := fun o1 o2 _ => subBorrow o1 o2) (v := subOverflow) rfl ht
  rw [State.regPlus_eq] at hadd hsub
  exact ⟨aluCompletes_congr (addCarry_iff ..) (addOverflow_iff ..) hadd,
    aluCompletes_congr (subBorrow_iff ..) (subOverflow_iff ..) hsub⟩

/-! ### Division -/

theorem toNat_divQuotient (o1 o2 : Word) : (divQuotient o1 o2).toNat = o1.toNat / o2.toNat := by
  rw [divQuotient, BitVec.toNat_ofNat, Nat.mod_eq_of_lt (Nat.lt_of_le_of_lt (Nat.div_le_self ..) o1.isLt)]

theorem toNat_divRemainder (o1 o2 : Word) : (divRemainder o1 o2).toNat = o1.toNat % o2.toNat := by
  rw [divRemainder, BitVec.toNat_ofNat, Nat.mod_eq_of_lt (Nat.lt_of_le_of_lt (Nat.mod_le ..) o1.isLt)]

theorem sdivOverflows_iff (o1 o2 : Word) : sdivOverflows o1 o2 = true ↔ o1.toInt = -2 ^ 63 ∧ o2.toInt = -1 := by
  rw [sdivOverflows, Bool.and_eq_true, decide_eq_true_iff, decide_eq_true_iff]
  norm_num

/-- The quotient rounded toward zero has a 64-bit value but for -2^63 by -1 (44_alu.md R182). -/
theorem toInt_sdivQuotient {o1 o2 : Word} (h : ¬(o1.toInt = -2 ^ 63 ∧ o2.toInt = -1)) :
    (sdivQuotient o1 o2).toInt = o1.toInt.tdiv o2.toInt := by
  have hne : o1 ≠ BitVec.intMin 64 ∨ o2 ≠ -1#64 := by
    by_contra hboth
    rw [not_or, not_not, not_not] at hboth
    exact h ⟨hboth.1 ▸ by decide, hboth.2 ▸ by decide⟩
  rw [sdivQuotient, BitVec.toInt_ofInt, ← BitVec.toInt_sdiv, BitVec.toInt_sdiv_of_ne_or_ne _ _ hne]

/-- The remainder has the dividend's sign (44_alu.md R182, D14). -/
theorem toInt_sdivRemainder (o1 o2 : Word) : (sdivRemainder o1 o2).toInt = o1.toInt.tmod o2.toInt := by
  have hmod : o1.toInt - o1.toInt.tdiv o2.toInt * o2.toInt = o1.toInt.tmod o2.toInt := by
    rw [Int.tmod_def, Int.mul_comm]
  rw [sdivRemainder, hmod, ← BitVec.toInt_srem, BitVec.ofInt_toInt]

section
variable {r0 r1 : Reg} {off : Imm} {s t : State} (ht : fetches s t)
include ht

/-- DIV on the state its fetch left: the operands are those of the start of the tick. -/
theorem bodyOf_div_of_fetches (h : s.reg r1 + off.signExtend 64 ≠ 0#64) :
    bodyOf (.div r0 r1 off) t = .ok (finishDivide t r0 r1 (divQuotient (s.reg r0) (s.reg r1 + off.signExtend 64))
      (divRemainder (s.reg r0) (s.reg r1 + off.signExtend 64)), none) := by
  rw [bodyOf, divBody, regPlus_of_fetches ht, (fetches_memoryOnly ht).reg, if_neg h]

theorem bodyOf_sdiv_of_fetches (h : s.reg r1 + off.signExtend 64 ≠ 0#64)
    (ho : ¬((s.reg r0).toInt = -2 ^ 63 ∧ (s.reg r1 + off.signExtend 64).toInt = -1)) :
    bodyOf (.sdiv r0 r1 off) t = .ok (finishDivide t r0 r1 (sdivQuotient (s.reg r0) (s.reg r1 + off.signExtend 64))
      (sdivRemainder (s.reg r0) (s.reg r1 + off.signExtend 64)), none) := by
  rw [bodyOf, sdivBody, regPlus_of_fetches ht, (fetches_memoryOnly ht).reg, if_neg h, if_neg (mt (sdivOverflows_iff ..).mp ho)]

/-- A zero divisor, in either division. -/
theorem bodyOf_division_of_zero (h : s.reg r1 + off.signExtend 64 = 0#64) :
    bodyOf (.div r0 r1 off) t = .raise divideFault ∧ bodyOf (.sdiv r0 r1 off) t = .raise divideFault := by
  rw [bodyOf, divBody, bodyOf, sdivBody, regPlus_of_fetches ht, if_pos h, if_pos h]
  exact ⟨rfl, rfl⟩

/-- SDIV of -2^63 by -1 with a quotient and a remainder as the parameter (44_alu.md R182, D15). -/
theorem bodyOf_sdiv_of_pair {q r : Word} (h1 : (s.reg r0).toInt = -2 ^ 63) (h2 : (s.reg r1 + off.signExtend 64).toInt = -1)
    (hc : Config.sdivOverflow = .pair q r) : bodyOf (.sdiv r0 r1 off) t = .ok (finishDivide t r0 r1 q r, none) := by
  have hz : s.reg r1 + off.signExtend 64 ≠ 0#64 := fun hz => by simp [hz] at h2
  rw [bodyOf, sdivBody, regPlus_of_fetches ht, (fetches_memoryOnly ht).reg, if_neg hz, if_pos ((sdivOverflows_iff ..).mpr ⟨h1, h2⟩), hc]

/-- SDIV of -2^63 by -1 with ALU_FAULT as the parameter (44_alu.md R182, D15). -/
theorem bodyOf_sdiv_of_aluFault (h1 : (s.reg r0).toInt = -2 ^ 63) (h2 : (s.reg r1 + off.signExtend 64).toInt = -1)
    (hc : Config.sdivOverflow = .aluFault) : bodyOf (.sdiv r0 r1 off) t = .raise divideFault := by
  have hz : s.reg r1 + off.signExtend 64 ≠ 0#64 := fun hz => by simp [hz] at h2
  rw [bodyOf, sdivBody, regPlus_of_fetches ht, (fetches_memoryOnly ht).reg, if_neg hz, if_pos ((sdivOverflows_iff ..).mpr ⟨h1, h2⟩), hc]

end

/-- Settles O36. -/
theorem divQuotientAndRemainder : Obligations.DivQuotientAndRemainder := by
  intro r0 r1 off s t ht hz
  obtain ⟨u, hu, hrest⟩ := division_completes ht (bodyOf_div_of_fetches (r0 := r0) ht hz)
  exact ⟨u, _, _, hu, toNat_divQuotient .., toNat_divRemainder .., hrest⟩

/-- Settles O37. -/
theorem sdivQuotientAndRemainder : Obligations.SdivQuotientAndRemainder := by
  intro r0 r1 off s t ht hz o1 o2 ho
  obtain ⟨u, hu, hrest⟩ := division_completes ht (bodyOf_sdiv_of_fetches ht hz ho)
  have hq := toInt_sdivQuotient ho
  have hr := toInt_sdivRemainder o1 o2
  refine ⟨u, _, _, hu, hq, hr, ?_, hrest⟩
  rw [hq, hr, Int.mul_comm, Int.mul_tdiv_add_tmod]

/-- Settles O38: by cases on the parameter. -/
theorem sdivOverflowIsTheParameter : Obligations.SdivOverflowIsTheParameter := by
  intro r0 r1 off s t ht h1 h2
  cases hc : Config.sdivOverflow with
  | pair q r => exact division_completes ht (bodyOf_sdiv_of_pair ht h1 h2 hc)
  | aluFault =>
    obtain ⟨w, hf⟩ := ht
    exact exec_of_raise hf (bodyOf_sdiv_of_aluFault ⟨w, hf⟩ h1 h2 hc)

/-- Settles O39. -/
theorem zeroDivisorRaisesAluFault : Obligations.ZeroDivisorRaisesAluFault := by
  intro r0 r1 off s t ht hz
  obtain ⟨hdiv, hsdiv⟩ := bodyOf_division_of_zero (r0 := r0) ht hz
  obtain ⟨w, hf⟩ := ht
  exact ⟨exec_of_raise hf hdiv, exec_of_raise hf hsdiv⟩

end Sys2Proof.Machine
end

section
/-! The system instructions (45_system.md): INT raises in either case, PMOV and IRET test the mode before anything else, and in privileged mode
each is one update of the state that its fetch left. -/

namespace Sys2Proof.Machine

/-! ### INT -/

theorem isSoftwareCode_iff (code : Word) : isSoftwareCode code = true ↔ 0xA0 ≤ code.toNat ∧ code.toNat ≤ 0xFF := by
  rw [isSoftwareCode, Bool.and_eq_true, decide_eq_true_iff, decide_eq_true_iff]

/-- Settles O40: INT's body raises in either case, and the interrupt is taken from the start of the tick. -/
theorem intEntersItsHandler : Obligations.IntEntersItsHandler := by
  intro r1 off s t ht code takes
  have hcode : t.regPlus r1 off = code := regPlus_of_fetches ht r1 off
  obtain ⟨w, hf⟩ := ht
  have taken : ∀ j, bodyOf (.int r1 off) t = .raise j → takes j := by
    intro j hb
    refine ⟨exec_of_raise hf hb, fun u hh he => ?_⟩
    rw [exec_of_raise hf hb, takeInterrupt_of_enters hh he]
  refine ⟨fun hin => taken _ ?_, fun hout => taken _ ?_⟩
  · rw [bodyOf, intBody, hcode, if_pos ((isSoftwareCode_iff code).mpr hin)]
  · rw [bodyOf, intBody, hcode, if_neg (mt (isSoftwareCode_iff code).mp (by omega))]
    rfl

/-! ### PMOV -/

/-- A write of a protected register and a commit change that register and IP alone. -/
theorem setPReg_onlyChanges (t : State) (r : PReg) (v : Word) (next : Option Word) :
    onlyChanges t (commit (t.setPReg r v) next) [] [r] nowhere := by
  refine ⟨⟨fun _ _ => rfl, fun q hq => ?_, rfl, fun _ _ => rfl, rfl, rfl, rfl, rfl, rfl⟩, rfl⟩
  rw [List.mem_singleton] at hq
  rw [State.preg_commit, State.preg_setPReg, if_neg hq]

/-- Settles O41. -/
theorem pmovWritesAProtectedRegister : Obligations.PmovWritesAProtectedRegister := by
  intro r0 r1 off s t ht hp
  have hm := fetches_memoryOnly ht
  have hb : bodyOf (.pmov r0 r1 off) t = .ok (t.setPReg r0 (s.reg r1 + off.signExtend 64), none) := by
    rw [bodyOf, pmovBody, hm.flagPE, hp, regPlus_of_fetches ht]
    rfl
  obtain ⟨w, hf⟩ := ht
  refine ⟨_, exec_of_ok hf hb, ?_, ?_, setPReg_onlyChanges ..⟩
  · rw [State.preg_commit, preg_setPReg_self]
  · rw [commit_ip, State.setPReg_ip, hm.ip, Option.getD_none]

/-- Settles O42: both bodies test the mode first. -/
theorem privilegedInstructionsFaultInUserMode : Obligations.PrivilegedInstructionsFaultInUserMode := by
  intro r0 r1 off s t ht hp
  obtain ⟨w, hf⟩ := ht
  have hpe : t.flagPE = true := (fetch_memoryOnly hf).flagPE.trans hp
  refine ⟨exec_of_raise (j := privilegeFault) hf ?_, exec_of_raise (j := privilegeFault) hf ?_⟩
  · rw [bodyOf, pmovBody, if_pos hpe]
  · rw [bodyOf, iretBody, if_pos hpe]

/-! ### IRET -/

/-- The return leaves the array when either of its pops does (45_system.md R203). -/
theorem returnFromInterrupt_of_bounds {t : State}
    (h : t.mem.size < (addrOf t.x.sp).toNat + 8 ∨ t.mem.size < (addrOf (t.x.sp + 8#64)).toNat + 8) :
    returnFromInterrupt t = .bounds := by
  by_cases h1 : t.mem.size < (addrOf t.x.sp).toNat + 8
  · rw [returnFromInterrupt, physRead_eq_bounds.mpr h1, Access.andThen_bounds]
  · rw [returnFromInterrupt, physRead_eq_ok.mpr ⟨Nat.le_of_not_lt h1, rfl⟩, Access.andThen_ok,
      physRead_eq_bounds.mpr (h.resolve_left h1), Access.andThen_bounds]

/-- Settles O43: IRET's body is the return, on the stack pointer that its fetch left. -/
theorem iretRestoresTheFrame : Obligations.IretRestoresTheFrame := by
  intro s t ht hp
  have hm := fetches_memoryOnly ht
  have hsp : t.x.sp = s.reg .sp := hm.reg .sp
  have hbody : bodyOf .iret t = returnFromInterrupt t := by
    rw [bodyOf, iretBody, hm.flagPE, hp]
    rfl
  obtain ⟨w, hf⟩ := ht
  refine ⟨fun h1 h2 => ?_, fun h => exec_of_bounds hf ?_⟩
  · have hret := returnFromInterrupt_eq_ok.mpr ⟨_, _, physRead_eq_ok.mpr ⟨by rwa [hsp, hm.size], readLE_eight ..⟩,
      physRead_eq_ok.mpr ⟨by rwa [hsp, hm.size], readLE_eight ..⟩, rfl, rfl⟩
    refine ⟨_, exec_of_ok hf (hbody.trans hret), ?_, ?_, hm.preg .usp, ?_, rfl, ?_⟩
    · rw [commit_ip, Option.getD_some, hsp]
    · rw [State.preg_commit, State.preg_eflags, returnFlags_eq, hsp]
    · rw [← hsp]
      rfl
    · refine ⟨fun r hr => ?_, fun r hr => ?_, rfl, fun _ _ => rfl, rfl, rfl, rfl, rfl, rfl⟩
      · exact Regs.get_set_ne t.x t.p.usp (by rwa [List.mem_singleton] at hr)
      · simp only [List.mem_cons, List.not_mem_nil, or_false, not_or] at hr
        cases r <;> first | rfl | exact absurd rfl hr.1 | exact absurd rfl hr.2
  · rw [hbody]
    exact returnFromInterrupt_of_bounds (by rwa [hsp, hm.size])

end Sys2Proof.Machine
end

section
/-! Interrupt entry (60_exceptions.md). The one idea: once the frame is pushed, entry is one read of the vector, so its failures are that read's; and
the frame's two slots never overlap, so the second push keeps the first. -/

namespace Sys2Proof.Machine

/-! ### Interrupt entry -/

/-- Settles O44: where entry succeeds, taking the interrupt is entering its handler. -/
theorem interruptEntrySequence : Obligations.InterruptEntrySequence := by
  intro s u j hh he
  obtain ⟨hent, hset⟩ := entered_of_enterHandler hh (enterHandler_of_enters he)
  exact ⟨takeInterrupt_of_enters hh he, hent.handling, hent.lastInt, hent.reg_sp, hent.preg_usp, hent.flagPE, hent.flagIE,
    fun _ hi hp => hent.eflags_bit hi hp, fun _ hr => hent.reg hr, fun _ hu hf => hent.preg hu hf, hset, hent.intCode, hent.halted,
    hent.size⟩

/-- The array with the frame of entry pushed (60_exceptions.md R231, step 6). -/
def frameMemory (s : State) (code : BitVec 8) : Memory :=
  (s.mem.writeLE (addrOf (s.p.psp - 8#64)).toNat (resumeIP s code) 8).writeLE (addrOf (s.p.psp - 16#64)).toNat s.p.eflags 8

/-- Two slots in bounds are pushed, and only memory changes. -/
theorem pushesFrame_frameMemory {s : State} {code : BitVec 8} (h1 : (addrOf (s.p.psp - 8#64)).toNat + 8 ≤ s.mem.size)
    (h2 : (addrOf (s.p.psp - 16#64)).toNat + 8 ≤ s.mem.size) : pushesFrame s { s with mem := frameMemory s code } code :=
  ⟨_, physWrite_eq_ok.mpr ⟨h1, rfl⟩, physWrite_eq_ok.mpr ⟨by rwa [Memory.writeLE_size], rfl⟩⟩

/-- The frame's slots are apart, wherever PSP stands: neither wraps into the other. -/
theorem frame_slots_disjoint (psp : Word) :
    (addrOf (psp - 16#64)).toNat + 8 ≤ (addrOf (psp - 8#64)).toNat ∨
      (addrOf (psp - 8#64)).toNat + 8 ≤ (addrOf (psp - 16#64)).toNat := by
  have hpsp := psp.isLt
  simp only [addrOf, BitVec.toNat_setWidth, BitVec.toNat_sub, BitVec.toNat_ofNat]
  omega

/-- The frame's bytes: saved EFLAGS, saved IP above it, and every other byte as it was (60_exceptions.md R232). The second push keeps the first
slot because the slots are apart. -/
theorem frameMemory_read (s : State) (code : BitVec 8) :
    (∀ k, k < 8 → (frameMemory s code).read ((addrOf (s.p.psp - 16#64)).toNat + k) = s.p.eflags.extractLsb' (8 * k) 8) ∧
    (∀ k, k < 8 → (frameMemory s code).read ((addrOf (s.p.psp - 8#64)).toNat + k) = (resumeIP s code).extractLsb' (8 * k) 8) ∧
    (∀ a, ¬storedAt (addrOf (s.p.psp - 8#64)) 8 a → ¬storedAt (addrOf (s.p.psp - 16#64)) 8 a →
      (frameMemory s code).read a = s.mem.read a) := by
  have hdisjoint := frame_slots_disjoint s.p.psp
  rw [frameMemory]
  refine ⟨fun k hk => Memory.read_writeLE_inside _ _ _ _ _ hk, fun k hk => ?_, fun a ha hb => ?_⟩
  · rw [Memory.read_writeLE_outside _ _ _ _ _ (by omega), Memory.read_writeLE_inside _ _ _ _ _ hk]
  · rw [storedAt] at ha hb
    rw [Memory.read_writeLE_outside _ _ _ _ _ (by omega), Memory.read_writeLE_outside _ _ _ _ _ (by omega)]

/-- Entry keeps PG, so the vector is read through the same translator (60_exceptions.md R231). -/
theorem vectorReadState_flagPG (s pushed : State) (j : Interrupt) : (vectorReadState s pushed j).flagPG = s.flagPG := by
  have hflags : (vectorReadState s pushed j).p.eflags = handlerFlags s.p.eflags := (handlerFlags_eq _).symm
  rw [State.flagPG, hflags, handlerFlags_bit, State.flagPG]
  simp

/-- Entry reads the vector in privileged mode (60_exceptions.md R231). -/
theorem vectorReadState_flagPE (s pushed : State) (j : Interrupt) : (vectorReadState s pushed j).flagPE = false := by
  have hflags : (vectorReadState s pushed j).p.eflags = handlerFlags s.p.eflags := (handlerFlags_eq _).symm
  rw [State.flagPE, hflags, handlerFlags_bit, beq_self_eq_true, Bool.not_true, Bool.and_false]

/-- With PG = 0, a frame and a vector in bounds are all that entry needs. -/
theorem enters_of_translation_off {s : State} {j : Interrupt} (hp : s.flagPG = false)
    (h1 : (addrOf (s.p.psp - 8#64)).toNat + 8 ≤ s.mem.size) (h2 : (addrOf (s.p.psp - 16#64)).toNat + 8 ≤ s.mem.size)
    (h3 : (addrOf (s.p.ijt + 8#64 * j.code.setWidth 64)).toNat + 4 ≤ s.mem.size) :
    enters s j { vectorReadState s { s with mem := frameMemory s j.code } j with
      ip := (fourBytes (frameMemory s j.code) (addrOf (s.p.ijt + 8#64 * j.code.setWidth 64)).toNat).setWidth 64 } :=
  ⟨_, _, _, pushesFrame_frameMemory h1 h2, resolve_of_off ((vectorReadState_flagPG ..).trans hp), h3, rfl⟩

/-- Settles O45: the memory of the handler is the array with the frame pushed, and IP is the vector read there. -/
theorem interruptFrameLayout : Obligations.InterruptFrameLayout := by
  intro s j hh hp _ ipSlot flagSlot vector h1 h2 h3 u
  have hu := takeInterrupt_of_enters hh (enters_of_translation_off hp h1 h2 h3)
  have hmem := congrArg State.mem hu
  have hip := congrArg State.ip hu
  replace hmem : u.mem = frameMemory s j.code := hmem
  obtain ⟨hflags, hsaved, hrest⟩ := frameMemory_read s j.code
  rw [hmem]
  exact ⟨hflags, hsaved, hrest, hip⟩

/-! ### Entry that fails -/

/-- The vector's bytes out of bounds are so in the array of the tick's start: entry keeps MEM_SIZE. -/
theorem memRead_vector_bounds {base pushed m : State} {j : Interrupt} {pa : Addr} (hp : pushesFrame base pushed j.code)
    (h : resolve (vectorReadState base pushed j) (addrOf (base.p.ijt + 8#64 * j.code.setWidth 64)) false false = .ok (pa, m))
    (hb : base.mem.size < pa.toNat + 4) :
    memRead (vectorReadState base pushed j) (base.p.ijt + 8#64 * j.code.setWidth 64) 4 = .bounds := by
  have hsize : m.mem.size = pushed.mem.size := (resolve_memoryOnly h).size
  rw [← pushesFrame_size hp, ← hsize] at hb
  exact memRead_eq_bounds.mpr (.inr ⟨pa, m, h, hb⟩)

section
variable {start base : State} {j : Interrupt} (hh : base.handlingInterrupt = false)
include hh

/-- A push out of bounds undoes the tick (60_exceptions.md R234). -/
theorem takeInterruptFrom_push_bounds
    (h : base.mem.size < (addrOf (base.p.psp - 8#64)).toNat + 8 ∨ base.mem.size < (addrOf (base.p.psp - 16#64)).toNat + 8) :
    takeInterruptFrom start base j = dropTick start :=
  takeInterruptFrom_bounds hh (enterHandler_push_bounds h)

variable {pushed : State} (hp : pushesFrame base pushed j.code)
include hp

/-- A fault of the vector's translation is a double fault with that fault (60_exceptions.md R234). -/
theorem takeInterruptFrom_vector_raise {k : Interrupt}
    (h : resolve (vectorReadState base pushed j) (addrOf (base.p.ijt + 8#64 * j.code.setWidth 64)) false false = .raise k) :
    takeInterruptFrom start base j = doubleFault base k := by
  refine takeInterruptFrom_raise hh ?_
  rw [enterHandler_of_pushed hp, memRead_eq_raise.mpr h, Access.andThen_raise]

/-- A vector read out of bounds, in its walk or in its bytes, undoes the tick (60_exceptions.md R234). -/
theorem takeInterruptFrom_vector_bounds
    (h : memRead (vectorReadState base pushed j) (base.p.ijt + 8#64 * j.code.setWidth 64) 4 = .bounds) :
    takeInterruptFrom start base j = dropTick start := by
  refine takeInterruptFrom_bounds hh ?_
  rw [enterHandler_of_pushed hp, h, Access.andThen_bounds]

end

/-- Settles O46. -/
theorem interruptEntryFailures : Obligations.InterruptEntryFailures := by
  intro s j
  refine ⟨fun hh => ?_, fun hh => ⟨takeInterruptFrom_push_bounds hh, fun pushed hp => ⟨fun k hk => ?_, fun hb => ?_, fun pa m hr hb => ?_⟩⟩⟩
  · rw [takeInterrupt, takeInterruptFrom_handling hh]
    exact ⟨rfl, rfl⟩
  · rw [takeInterrupt, takeInterruptFrom_vector_raise hh hp hk]
    exact ⟨rfl, rfl⟩
  · exact takeInterruptFrom_vector_bounds hh hp (memRead_eq_bounds.mpr (.inl hb))
  · exact takeInterruptFrom_vector_bounds hh hp (memRead_vector_bounds hp hr hb)

/-! ### Hardware interrupts -/

theorem injectable_iff (code : BitVec 8) : injectable code = true ↔ 0x20 ≤ code.toNat ∧ code.toNat ≤ 0x9F := by
  rw [injectable, Bool.and_eq_true, decide_eq_true_iff, decide_eq_true_iff]

/-- In privileged mode a translation raises for a clear OCCUPIED bit alone (20_memory.md R75). -/
theorem resolve_raise_privileged {s : State} {la : Addr} {write jump : Bool} {k : Interrupt} (hs : s.flagPE = false)
    (h : resolve s la write jump = .raise k) : k = pageFaultOf 0x01#64 la := by
  unfold resolve at h
  split at h
  · obtain ⟨e, mask, hf, rfl⟩ := walk_raise_mask h
    have hmask := ((firstFailure_privileged_iff (by simp [hs])).mp (entryFailure_eq_some.mp hf)).2
    rw [hmask]
    rfl
  · cases h

/-- Settles O47: the tick is taking the interrupt from the state with `intSet` cleared, and a dropped one starts again from the state itself. -/
theorem hardwareInterruptIsServiced : Obligations.HardwareInterruptIsServiced := by
  intro s hhalted hset hie hh hcode base j va dropped
  have hstep : step s = .next (takeInterruptFrom s base j) :=
    step_of_accepts hhalted (acceptsInterrupt_eq_true.mpr ⟨hset, hie, hh⟩)
  have hbase : base.handlingInterrupt = false := hh
  have drops : takeInterruptFrom s base j = dropTick s → dropped := fun h => hstep.trans (congrArg Host.Outcome.next h)
  refine ⟨fun u he => ?_, fun hb => drops (takeInterruptFrom_push_bounds hbase hb), fun pushed hp =>
    ⟨fun k hk => ?_, fun hb => ?_, fun pa m hr hb => ?_⟩⟩
  · have hent := enterHandler_of_enters he
    obtain ⟨hentered, hclear⟩ := entered_of_enterHandler hbase hent
    have htaken := takeInterruptFrom_ok (start := s) hbase hent
    have hclass := (injectable_iff s.intCode).mp hcode
    refine ⟨hstep.trans (congrArg Host.Outcome.next htaken), hclear, hentered.lastInt, ?_⟩
    rw [resumeIP, if_neg (by omega)]
  · refine ⟨resolve_raise_privileged (vectorReadState_flagPE ..) hk, _, hstep, ?_⟩
    rw [takeInterruptFrom_vector_raise (j := j) hbase hp hk]
    exact ⟨rfl, rfl⟩
  · exact drops (takeInterruptFrom_vector_bounds (j := j) hbase hp (memRead_eq_bounds.mpr (.inl hb)))
  · exact drops (takeInterruptFrom_vector_bounds (j := j) hbase hp (memRead_vector_bounds (j := j) hp hr hb))

/-- Settles O49. -/
theorem injectSetsThePendingSlot : Obligations.InjectSetsThePendingSlot := by
  intro code s
  refine ⟨fun hin => ?_, fun hout => ?_⟩
  · rw [inject, if_pos ((injectable_iff code).mpr hin)]
  · rw [inject, if_neg (mt (injectable_iff code).mp (by omega))]

end Sys2Proof.Machine
end

section
/-! Runs and reset (60_exceptions.md R240, 70_reset_and_hazards.md): statements over any number of ticks, by induction on it, and the state that every
run starts from. -/

namespace Sys2Proof.Machine

/-! ### Runs -/

theorem core_run_succ {M : Host.Core} {s t : M.State} (h : M.step s = .next t) (n : Nat) : M.run (n + 1) s = M.run n t := by
  rw [Host.Core.run, h]

theorem run_succ_of_step {s t : State} (h : step s = .next t) (n : Nat) : Sys2Proof.core.run (n + 1) s = Sys2Proof.core.run n t :=
  core_run_succ (M := Sys2Proof.core) h n

/-- Settles O50: by induction on the number of ticks. -/
theorem haltedCoreNeverChanges : Obligations.HaltedCoreNeverChanges := by
  intro n s hh
  induction n with
  | zero => rfl
  | succ n ih => rw [run_succ_of_step (step_of_halted hh), ih]

/-- Settles O51: by induction on the length of the shorter run; a run of no ticks is safe because a halted core stays halted. -/
theorem safeRunsArePrefixClosed : Obligations.SafeRunsArePrefixClosed := by
  intro n k
  induction n with
  | zero =>
    rintro s ⟨t, hrun, ht⟩
    refine ⟨s, rfl, ?_⟩
    by_contra hh
    rw [haltedCoreNeverChanges _ s (by simpa using hh)] at hrun
    cases hrun
    exact hh ht
  | succ n ih =>
    rintro s ⟨t, hrun, ht⟩
    obtain ⟨u, hu⟩ := step_has_next s
    rw [Nat.add_right_comm, run_succ_of_step hu] at hrun
    obtain ⟨v, hv, hhalted⟩ := ih u ⟨t, hrun, ht⟩
    exact ⟨v, (run_succ_of_step hu n).trans hv, hhalted⟩

/-! ### Reset -/

/-- Byte `k` of an image is byte `k` of its array (70_reset_and_hazards.md R261). -/
theorem getElem?_eq_read_ofImage {image : List Byte} {k : Nat} (hk : k < image.length) :
    image[k]? = some ((Memory.ofImage image).read k) := by
  have hread := cellsRead_cellsOfImage image 0 k
  rw [Nat.zero_add, List.getD_eq_getElem _ _ hk] at hread
  rw [List.getElem?_eq_getElem hk, Memory.read, Memory.ofImage, hread]

/-- Settles O52: reset writes every field; with PG = 0 the first fetch is at LA(IP). -/
theorem resetState : Obligations.ResetState := by
  intro image ip s
  have hbit : ∀ k, s.p.eflags.getLsbD k = false := fun _ => BitVec.getLsbD_zero
  have hreg : ∀ r, s.reg r = 0#64 := fun r => by cases r <;> rfl
  have hpreg : ∀ r, s.preg r = 0#64 := fun r => by cases r <;> rfl
  exact ⟨hreg, hpreg, rfl, rfl, fun k hk => getElem?_eq_read_ofImage hk, hbit 63, hbit 62, hbit 61, rfl, rfl, rfl, rfl, rfl,
    fun hb => fetch_of_translation_off (hbit 62) hb⟩

theorem resetWith_inv {mem : Memory} (h : mem.wf = true) (ip : Word) : (State.resetWith mem ip).inv :=
  ⟨h, rfl, fun _ hs => nomatch hs⟩

/-- Settles O53. -/
theorem resetHasTheInvariant : Obligations.ResetHasTheInvariant :=
  ⟨resetWith_inv rfl _, fun _ ip h1 h2 => resetWith_inv (Memory.wf_ofImage h1 h2) ip⟩

end Sys2Proof.Machine
end
